-- ==== Sys2Proof/Word.lean ====
section
/-! DEFINITION. The word types of the bus core (spec/00_scope.md R8, R14) and the plain-data form of a byte buffer
and of a cartridge image. Address space: 16 bits; data: 8-bit bytes and 16-bit little-endian words; the two bank
offsets: 32 bits. -/

namespace Sys2Proof

/-- A data byte, the document's `u8` (R8). -/
abbrev Byte := BitVec 8

/-- A bus address, the document's `u16` (R8, R70). -/
abbrev Addr := BitVec 16

/-- A 16-bit data word (R8, R134). -/
abbrev Word := BitVec 16

/-- A bank offset, the document's `u32` (R8, R28, R29). -/
abbrev Offset := BitVec 32

/-- A byte buffer as a list of (index, byte) pairs. In canonical form (`Memory.wf`, WellFormed.lean) the indexes
rise strictly and no entry is zero, and an index that is not listed reads as zero: every array of bytes has exactly
one such form. That zero is the representation's, not the hardware's (notes/assumptions/4.md). -/
abbrev Memory := List Host.Cell

/-- A cartridge image (R9, R25): `len` is `ROM_LEN`, `bytes` its contents, every index below `len`. -/
structure Image where
  len   : Nat
  bytes : Memory
  deriving DecidableEq, Repr

end Sys2Proof
end

