-- ==== Sys2Proof/Config.lean ====
section
/-! DEFINITION. The parameters the document leaves open (spec/00_scope.md R10) as one structure of plain data, and
the types they are made of. A machine's parameters stand in `State.cfg`, no step changes them, and a statement over
every state is a statement over every value of them. -/

namespace Sys2Proof

/-- The bank-controller mode of the cartridge (R27). -/
inductive Mode where
  | romOnly | mbc1 | mbc1Ram | mbc2
  deriving DecidableEq, Repr

/-- The state that belongs to the keyboard: one cell (R41). -/
structure Keyboard where
  joypad : Byte
  deriving DecidableEq, Repr

/-- The state that belongs to the timer: four cells (R42). -/
structure Timer where
  divider : Byte
  counter : Byte
  modulo  : Byte
  control : Byte
  deriving DecidableEq, Repr

/-- The state that belongs to the interrupt controller: two cells, no bit of which the spec gives a meaning (R43, R343). -/
structure Interrupts where
  flags  : Byte
  enable : Byte
  deriving DecidableEq, Repr

/-- The state that belongs to the display: the two borrowed buffers (R38, R39) and nine cells (R44, R45). -/
structure Display where
  vram            : Memory
  oam             : Memory
  control         : Byte
  status          : Byte
  scrollY         : Byte
  scrollX         : Byte
  scanline        : Byte
  scanlineCompare : Byte
  palette0        : Byte
  palette1        : Byte
  palette2        : Byte
  deriving DecidableEq, Repr

/-- All the borrowed state: what the four owners hold and the bus core reaches by reference (R22, R38 to R45). -/
structure Owners where
  kbd : Keyboard
  tmr : Timer
  irq : Interrupts
  lcd : Display
  deriving DecidableEq, Repr

/-- The open parameters of R10, one field each.
`biosImage` is `BIOS_IMAGE` (256 bytes).
`mbcCodeMap` is `MBC_CODE_MAP`, the finite partial map from header codes to modes (R301).
`biosKeepOn` gives `BIOS_DISABLE_ON` by its complement: the written values, other than 1, that do NOT clear the
overlay latch, so that the required `BIOS_DISABLE_ON(1) = true` holds whatever the list is (R265).
`initWram`, `initZp`, `initEram` are `INIT_WRAM`, `INIT_ZP`, `INIT_ERAM`; of the last a session takes the first
`ram_size` bytes.
`initOwners` is the initial contents of every borrowed buffer and cell. -/
structure Config where
  biosImage  : Memory
  mbcCodeMap : List (Byte × Mode)
  biosKeepOn : List Byte
  initWram   : Memory
  initZp     : Memory
  initEram   : Memory
  initOwners : Owners
  deriving DecidableEq, Repr

/-- The owners' cells and buffers all zero: a value named for `State.reset` only (DESIGN CHOICE, notes/assumptions/5.md). -/
def Owners.zero : Owners :=
  { kbd := { joypad := 0 }
    tmr := { divider := 0, counter := 0, modulo := 0, control := 0 }
    irq := { flags := 0, enable := 0 }
    lcd := { vram := [], oam := [], control := 0, status := 0, scrollY := 0, scrollX := 0, scanline := 0,
             scanlineCompare := 0, palette0 := 0, palette1 := 0, palette2 := 0 } }

/-- The parameters `State.reset` carries. The contents are zero (DESIGN CHOICE, notes/assumptions/5.md), every
written value clears the overlay latch (the default of R265, notes/assumptions/6.md), and the header codes are the
default the spec offers in R301 (PRESUMED, notes/assumptions/7.md). -/
def Config.atReset : Config :=
  { biosImage := []
    mbcCodeMap := [(0x00, .romOnly), (0x01, .mbc1), (0x02, .mbc1Ram), (0x05, .mbc2)]
    biosKeepOn := []
    initWram := []
    initZp := []
    initEram := []
    initOwners := Owners.zero }

end Sys2Proof
end

