-- ==== Sys2Proof/Syntax.lean ====
section
/-! DEFINITION. The request formats of the two ports (spec/30_encoding.md R120, R121, R123) and the instructions:
one constructor per row of spec/opcode_table.json, in the table's order (R138). An address operand is the whole
16-bit bus address; the range it may take is the row's (WellFormed.lean). -/

namespace Sys2Proof

/-- What arrives at the block's ports.
`req` is a request word of the runtime port, format REQ: op in bits 34..32, addr in 31..16, wdata in 15..0 (R120).
`host` is the 2-bit ATTACH selector of the host port (R123).
`construct` is the reset, which has no bit encoding, only operands (R123, R300). -/
inductive PortWord where
  | req (w : BitVec 35)
  | host (hop : BitVec 2)
  | construct (rom : Image) (mbcCode : Byte) (ramCode : Byte)
  deriving DecidableEq, Repr

/-- A bus transaction or host operation, by the row of the opcode table that names it. -/
inductive Instr where
  /-- RD8.IO.FF00: read joypad/input at 0xFF00 (R232). -/
  | rd8IoFF00
  /-- RD8.IO.FF04: read timer divider at 0xFF04 (R234). -/
  | rd8IoFF04
  /-- RD8.IO.FF05: read timer counter at 0xFF05 (R236). -/
  | rd8IoFF05
  /-- RD8.IO.FF06: read timer modulo at 0xFF06 (R238). -/
  | rd8IoFF06
  /-- RD8.IO.FF07: read timer control at 0xFF07 (R240). -/
  | rd8IoFF07
  /-- RD8.IO.FF0F: read interrupt flags at 0xFF0F (R242). -/
  | rd8IoFF0F
  /-- RD8.IO.FF40: read LCD control at 0xFF40 (R244). -/
  | rd8IoFF40
  /-- RD8.IO.FF41: read LCD status at 0xFF41 (R246). -/
  | rd8IoFF41
  /-- RD8.IO.FF42: read scroll Y at 0xFF42 (R248). -/
  | rd8IoFF42
  /-- RD8.IO.FF43: read scroll X at 0xFF43 (R250). -/
  | rd8IoFF43
  /-- RD8.IO.FF44: read current scanline at 0xFF44 (R252). -/
  | rd8IoFF44
  /-- RD8.IO.FF45: read scanline compare at 0xFF45 (R254). -/
  | rd8IoFF45
  /-- RD8.IO.FF46: read DMA trigger at 0xFF46 (R256). -/
  | rd8IoFF46
  /-- RD8.IO.FF47: read palette register, first at 0xFF47 (R258). -/
  | rd8IoFF47
  /-- RD8.IO.FF48: read palette register, second at 0xFF48 (R260). -/
  | rd8IoFF48
  /-- RD8.IO.FF49: read palette register, third at 0xFF49 (R262). -/
  | rd8IoFF49
  /-- RD8.IO.FF50: read BIOS-disable latch at 0xFF50 (R264). -/
  | rd8IoFF50
  /-- RD8.IO.FFFF: read interrupt enable mask at 0xFFFF (R266). -/
  | rd8IoFFFF
  /-- WR8.IO.FF00: write joypad/input at 0xFF00 (R233). -/
  | wr8IoFF00 (v : Byte)
  /-- WR8.IO.FF04: write timer divider at 0xFF04 (R235). -/
  | wr8IoFF04 (v : Byte)
  /-- WR8.IO.FF05: write timer counter at 0xFF05 (R237). -/
  | wr8IoFF05 (v : Byte)
  /-- WR8.IO.FF06: write timer modulo at 0xFF06 (R239). -/
  | wr8IoFF06 (v : Byte)
  /-- WR8.IO.FF07: write timer control at 0xFF07 (R241). -/
  | wr8IoFF07 (v : Byte)
  /-- WR8.IO.FF0F: write interrupt flags at 0xFF0F (R243). -/
  | wr8IoFF0F (v : Byte)
  /-- WR8.IO.FF40: write LCD control at 0xFF40 (R245). -/
  | wr8IoFF40 (v : Byte)
  /-- WR8.IO.FF41: write LCD status at 0xFF41 (R247). -/
  | wr8IoFF41 (v : Byte)
  /-- WR8.IO.FF42: write scroll Y at 0xFF42 (R249). -/
  | wr8IoFF42 (v : Byte)
  /-- WR8.IO.FF43: write scroll X at 0xFF43 (R251). -/
  | wr8IoFF43 (v : Byte)
  /-- WR8.IO.FF44: write current scanline at 0xFF44 (R253). -/
  | wr8IoFF44 (v : Byte)
  /-- WR8.IO.FF45: write scanline compare at 0xFF45 (R255). -/
  | wr8IoFF45 (v : Byte)
  /-- WR8.IO.FF46: write DMA trigger at 0xFF46 (R257). -/
  | wr8IoFF46 (v : Byte)
  /-- WR8.IO.FF47: write palette register, first at 0xFF47 (R259). -/
  | wr8IoFF47 (v : Byte)
  /-- WR8.IO.FF48: write palette register, second at 0xFF48 (R261). -/
  | wr8IoFF48 (v : Byte)
  /-- WR8.IO.FF49: write palette register, third at 0xFF49 (R263). -/
  | wr8IoFF49 (v : Byte)
  /-- WR8.IO.FF50: write BIOS-disable latch at 0xFF50 (R265). -/
  | wr8IoFF50 (v : Byte)
  /-- WR8.IO.FFFF: write interrupt enable mask at 0xFFFF (R267). -/
  | wr8IoFFFF (v : Byte)
  /-- RD8.ZP: 0xFF80 to 0xFFFE (R173). -/
  | rd8Zp (a : Addr)
  /-- RD8.IO.UNIMPL: 0xFF00 to 0xFF7F (R268). -/
  | rd8IoUnimpl (a : Addr)
  /-- RD8.UNMAPPED_A: 0xFEA0 to 0xFEBF (R172). -/
  | rd8UnmappedA (a : Addr)
  /-- RD8.UNMAPPED_B: 0xFEC0 to 0xFEFF (R172). -/
  | rd8UnmappedB (a : Addr)
  /-- RD8.OAM: 0xFE00 to 0xFE9F (R171). -/
  | rd8Oam (a : Addr)
  /-- RD8.ECHO: 0xE000 to 0xFDFF (R170). -/
  | rd8Echo (a : Addr)
  /-- RD8.WRAM: 0xC000 to 0xDFFF (R169). -/
  | rd8Wram (a : Addr)
  /-- RD8.ERAM: 0xA000 to 0xBFFF (R168). -/
  | rd8Eram (a : Addr)
  /-- RD8.VRAM: 0x8000 to 0x9FFF (R167). -/
  | rd8Vram (a : Addr)
  /-- RD8.BIOS: 0x0000 to 0x00FF (R164). -/
  | rd8Bios (a : Addr)
  /-- RD8.ROM0: 0x0000 to 0x3FFF (R165). -/
  | rd8Rom0 (a : Addr)
  /-- RD8.ROMX: 0x4000 to 0x7FFF (R166). -/
  | rd8Romx (a : Addr)
  /-- WR8.ZP: 0xFF80 to 0xFFFE (R183). -/
  | wr8Zp (a : Addr) (v : Byte)
  /-- WR8.IO.UNIMPL: 0xFF00 to 0xFF7F (R269). -/
  | wr8IoUnimpl (a : Addr) (v : Byte)
  /-- WR8.UNMAPPED_A: 0xFEA0 to 0xFEBF (R182). -/
  | wr8UnmappedA (a : Addr) (v : Byte)
  /-- WR8.UNMAPPED_B: 0xFEC0 to 0xFEFF (R182). -/
  | wr8UnmappedB (a : Addr) (v : Byte)
  /-- WR8.OAM: 0xFE00 to 0xFE9F (R181). -/
  | wr8Oam (a : Addr) (v : Byte)
  /-- WR8.ECHO: 0xE000 to 0xFDFF (R180). -/
  | wr8Echo (a : Addr) (v : Byte)
  /-- WR8.WRAM: 0xC000 to 0xDFFF (R179). -/
  | wr8Wram (a : Addr) (v : Byte)
  /-- WR8.ERAM: 0xA000 to 0xBFFF (R178). -/
  | wr8Eram (a : Addr) (v : Byte)
  /-- WR8.VRAM: 0x8000 to 0x9FFF (R177). -/
  | wr8Vram (a : Addr) (v : Byte)
  /-- BC.NONE: 0x0000 to 0x0FFF (R202). -/
  | bcNone (a : Addr) (v : Byte)
  /-- BC.RAMEN: 0x1000 to 0x1FFF (R203). -/
  | bcRamen (a : Addr) (v : Byte)
  /-- BC.ROMSEL: 0x2000 to 0x3FFF (R204). -/
  | bcRomsel (a : Addr) (v : Byte)
  /-- BC.HISEL: 0x4000 to 0x5FFF (R205). -/
  | bcHisel (a : Addr) (v : Byte)
  /-- BC.MODESEL: 0x6000 to 0x7FFF (R208). -/
  | bcModesel (a : Addr) (v : Byte)
  /-- RD16: word read at a (R185). -/
  | rd16 (a : Addr)
  /-- WR16: word write of w at a (R187). -/
  | wr16 (a : Addr) (w : Word)
  /-- SETBIOS: the force-overlay setter, its flag wdata[0] (R308). -/
  | setbios (flag : Bool)
  /-- RESERVED.5: reserved op code 5 (R121). -/
  | reserved5
  /-- RESERVED.6: reserved op code 6 (R121). -/
  | reserved6
  /-- RESERVED.7: reserved op code 7 (R121). -/
  | reserved7
  /-- ATTACH_DISPLAY: host port, selector 0b00 (R304). -/
  | attachDisplay
  /-- ATTACH_TIMER: host port, selector 0b01 (R304). -/
  | attachTimer
  /-- ATTACH_IRQ: host port, selector 0b10 (R304). -/
  | attachIrq
  /-- ATTACH_KBD: host port, selector 0b11 (R304). -/
  | attachKbd
  /-- CONSTRUCT: the block's reset, with the three session parameters (R300). -/
  | construct (rom : Image) (mbcCode : Byte) (ramCode : Byte)
  deriving DecidableEq, Repr

end Sys2Proof
end

