-- ==== Sys2Proof/Machine/Types.lean ====
section
/-! DEFINITION. The data types the machine's state is made of (spec/10_state.md), the reasons a transaction can end
otherwise than `ok` (spec/60_exceptions.md R320, R323) and the response format (spec/30_encoding.md R122). -/

namespace Sys2Proof.Machine

/-- The fatal conditions, all four (R320). -/
inductive Cause where
  /-- CONSTRUCT: `MBC_CODE` outside the domain of `MBC_CODE_MAP` (R301). -/
  | unsupportedBankController
  /-- CONSTRUCT: `RAM_CODE` not in {0, 1, 2} (R302). -/
  | unsupportedRamSize
  /-- A byte access to external RAM with `ram_size = 0` (R321). -/
  | eramNotConfigured
  /-- A byte access to external RAM with an index not below `ram_size` (R321). -/
  | eramOutOfRange
  deriving DecidableEq, Repr

/-- The numeric cause codes of R320. -/
def Cause.code : Cause → Nat
  | .unsupportedBankController => 1
  | .unsupportedRamSize => 2
  | .eramNotConfigured => 3
  | .eramOutOfRange => 4

/-- The reasons a request is refused, all seven (R323). -/
inductive Reason where
  | notConstructed
  | afterFatal
  | reservedOp
  | wordAtTop
  | alreadyWired
  | romIndexOutOfRange
  | unwired
  deriving DecidableEq, Repr

/-- A diagnostic event (R340): an output of a transaction, not state of the block (R341, R50). -/
inductive Event where
  | unimplRead (a : Addr)
  | unimplWrite (a : Addr) (v : Byte)
  deriving DecidableEq, Repr

/-- How a transaction ends (R13, R122). -/
inductive Ending where
  | ok
  | fatal (c : Cause)
  | refuse (r : Reason)
  deriving DecidableEq, Repr

/-- Format RSP (R122). `rdata` is there exactly when it is meaningful: the outcome is `ok` and the request was RD8
or RD16. -/
structure Response where
  outcome : Ending
  rdata   : Option Word
  events  : List Event
  deriving DecidableEq, Repr

/-- `bc.banking_mode` (R31). -/
inductive BankingMode where
  | romBanking | ramBanking
  deriving DecidableEq, Repr

/-- `ram_size ∈ {0, 2048, 8192}` (R26). -/
inductive RamSize where
  | none | kb2 | kb8
  deriving DecidableEq, Repr

/-- The size in bytes (R26). -/
def RamSize.bytes : RamSize → Nat
  | .none => 0
  | .kb2 => 2048
  | .kb8 => 8192

/-- The registers of the Bank Controller (R27 to R31). -/
structure Bank where
  mode          : Mode
  romBankOffset : Offset
  ramBankOffset : Offset
  ramEnabled    : Bool
  bankingMode   : BankingMode
  deriving DecidableEq, Repr

/-- The four `wired_*` flags (R36). -/
structure Wiring where
  display : Bool
  timer   : Bool
  irq     : Bool
  kbd     : Bool
  deriving DecidableEq, Repr

/-- A constructed instance of the block: its constant and owned state (R22 to R36), and the borrowed state of the
owners it is wired to (R38 to R45). -/
structure Bus where
  bios    : Memory
  rom     : Image
  ramSize : RamSize
  inBios  : Bool
  bc      : Bank
  wram    : Memory
  eram    : Memory
  zp      : Memory
  wired   : Wiring
  own     : Owners
  deriving DecidableEq, Repr

/-- The one-byte cells the owners hold and the router reaches (R41 to R45). -/
inductive RegCell where
  | joypad
  | divider | counter | modulo | timerControl
  | irqFlags | irqEnable
  | lcdControl | lcdStatus | scrollY | scrollX | scanline | scanlineCompare
  | palette0 | palette1 | palette2
  deriving DecidableEq, Repr

/-- A byte an owner may change on its own: a cell, or a byte of one of the display's buffers (R46). -/
inductive OwnerByte where
  | cell (c : RegCell)
  | vram (i : Fin 8192)
  | oam (i : Fin 160)
  deriving DecidableEq, Repr

/-- What happens to the block next: a request at one of its ports, or an owner step `OWNER x := v` (R46, R139),
which falls between two transactions and never inside one. -/
inductive Input where
  | port (w : PortWord)
  | owner (x : OwnerByte) (v : Byte)
  deriving DecidableEq, Repr

end Sys2Proof.Machine
end

