-- ==== Sys2Proof/Machine/Construct.lean ====
section
/-! DEFINITION. The state construction leaves, which is the block's reset (spec/10_state.md R52,
spec/70_reset_and_hazards.md R370). -/

namespace Sys2Proof

/-- The entries with an index below `n`: the first `n` bytes of the array. -/
def Memory.below (m : Memory) (n : Nat) : Memory := m.filter fun c => decide (c.1 < n)

end Sys2Proof

namespace Sys2Proof.Machine

/-- The Bank Controller's registers after construction (R52, `90_conflicts.md` C1). -/
def Bank.reset (mode : Mode) : Bank :=
  { mode := mode, romBankOffset := 0x4000, ramBankOffset := 0, ramEnabled := false, bankingMode := .romBanking }

/-- No owner wired (R36, R52). -/
def Wiring.reset : Wiring := { display := false, timer := false, irq := false, kbd := false }

/-- The instance a CONSTRUCT that does not end fatal leaves: the table of R52. -/
def Bus.reset (cfg : Config) (rom : Image) (mode : Mode) (ramSize : RamSize) : Bus :=
  { bios := cfg.biosImage
    rom := rom
    ramSize := ramSize
    inBios := true
    bc := Bank.reset mode
    wram := cfg.initWram
    eram := cfg.initEram.below ramSize.bytes
    zp := cfg.initZp
    wired := Wiring.reset
    own := cfg.initOwners }

end Sys2Proof.Machine
end

