-- ==== Sys2Proof/Machine/State.lean ====
section
/-! DEFINITION. The state of the machine as plain data (spec/10_state.md), why a step may stop, and the state after
reset (R52, R370). -/

namespace Sys2Proof.Machine

/-- The machine.
`session` is the constructed instance: `none` before the first CONSTRUCT (R160) and after a CONSTRUCT that ended
fatal, of which "no instance exists" and no other state may be spoken of (R303).
`fatal` is the fatal latch (R35).
`cfg` holds the open parameters (R10); `pending` is what the requester, the host and the owners do next (R11); `rsp`
is the response to the latest transaction (R122). These three are the model's own fields, not the spec's state. -/
structure State where
  cfg     : Config
  session : Option Bus
  fatal   : Option Cause
  pending : List Input
  rsp     : Option Response
  deriving DecidableEq, Repr

/-- Why a step stops the machine with a fault: never. A fatal condition is not a stop: the spec describes its entry,
the latch and the response `fatal(cause)` (R330), and the step takes it to a next state. -/
inductive Fault where
  deriving DecidableEq, Repr

/-- Why a step gives an instruction no meaning. A request that the spec refuses is not one of these: its response is
`refuse(reason)`, in a next state (R122, R324). -/
inductive Refusal where
  /-- Raised by an arm of `exec` whose instruction has no meaning yet. Safe. No arm raises it. -/
  | notModelled (mnemonic : String)
  /-- Raised by `step` where the operand of a pending CONSTRUCT is not the canonical form of an image: the term
  denotes no request of the hardware. Safe. -/
  | malformedImage
  /-- Raised by `step` where no row of the opcode table selects a REQ word. Safe; no word is such. -/
  | noRow
  deriving DecidableEq, Repr

/-- What a meaning and a step answer. -/
abbrev StepOutcome := Host.Outcome State Fault Refusal

/-- The machine right after reset, which is CONSTRUCT (R370, R52). The session parameters are an empty cartridge
image, mode RomOnly and no external RAM (DESIGN CHOICE, notes/assumptions/3.md): no program is put into it. -/
def State.reset : State :=
  { cfg := Config.atReset
    session := some (Bus.reset Config.atReset { len := 0, bytes := [] } .romOnly .none)
    fatal := none
    pending := []
    rsp := none }

end Sys2Proof.Machine
end

