-- ==== Sys2Proof/Machine/Ops.lean ====
section
/-! DEFINITION. The shared operations: reading and writing a byte buffer and an owner's cell, what one byte access
answers, the wiring check (spec/44_host_ops.md R307), admission (spec/40_bus_access.md R160), the response, and
entering the fatal state (spec/60_exceptions.md R330). There is no operation that leaves the fatal state (R331). -/

namespace Sys2Proof

/-- The byte at index `i`; an unlisted index reads as zero. -/
def Memory.read : Memory → Nat → Byte
  | [], _ => 0
  | (j, w) :: m, i => if i = j then w else Memory.read m i

/-- Store `v` at index `i`, keeping the canonical form: a zero is stored by removing the entry. -/
def Memory.write : Memory → Nat → Byte → Memory
  | [], i, v => if v = 0 then [] else [(i, v)]
  | (j, w) :: m, i, v =>
    if i < j then (if v = 0 then (j, w) :: m else (i, v) :: (j, w) :: m)
    else if i = j then (if v = 0 then m else (i, v) :: m)
    else (j, w) :: Memory.write m i v

end Sys2Proof

namespace Sys2Proof.Machine

/-! ## The owners' cells -/

/-- The four owners of borrowed state (R11, R230). -/
inductive Owner where
  | display | timer | irq | kbd
  deriving DecidableEq, Repr

/-- The flag that records that the owner's reference has been installed (R36). -/
def Wiring.has (w : Wiring) : Owner → Bool
  | .display => w.display
  | .timer => w.timer
  | .irq => w.irq
  | .kbd => w.kbd

/-- The wiring after the owner's reference is installed (R304). -/
def Wiring.attach (w : Wiring) : Owner → Wiring
  | .display => { w with display := true }
  | .timer => { w with timer := true }
  | .irq => { w with irq := true }
  | .kbd => { w with kbd := true }

/-- Who holds a cell (R41 to R45, R230). -/
def RegCell.owner : RegCell → Owner
  | .joypad => .kbd
  | .divider | .counter | .modulo | .timerControl => .timer
  | .irqFlags | .irqEnable => .irq
  | .lcdControl | .lcdStatus | .scrollY | .scrollX | .scanline | .scanlineCompare => .display
  | .palette0 | .palette1 | .palette2 => .display

/-- The cell's current value (R40). -/
def ownerGet (o : Owners) : RegCell → Byte
  | .joypad => o.kbd.joypad
  | .divider => o.tmr.divider
  | .counter => o.tmr.counter
  | .modulo => o.tmr.modulo
  | .timerControl => o.tmr.control
  | .irqFlags => o.irq.flags
  | .irqEnable => o.irq.enable
  | .lcdControl => o.lcd.control
  | .lcdStatus => o.lcd.status
  | .scrollY => o.lcd.scrollY
  | .scrollX => o.lcd.scrollX
  | .scanline => o.lcd.scanline
  | .scanlineCompare => o.lcd.scanlineCompare
  | .palette0 => o.lcd.palette0
  | .palette1 => o.lcd.palette1
  | .palette2 => o.lcd.palette2

/-- The cell made to hold `v`; every other cell and both buffers as they were (R40). -/
def ownerSet (o : Owners) (c : RegCell) (v : Byte) : Owners :=
  match c with
  | .joypad => { o with kbd := { o.kbd with joypad := v } }
  | .divider => { o with tmr := { o.tmr with divider := v } }
  | .counter => { o with tmr := { o.tmr with counter := v } }
  | .modulo => { o with tmr := { o.tmr with modulo := v } }
  | .timerControl => { o with tmr := { o.tmr with control := v } }
  | .irqFlags => { o with irq := { o.irq with flags := v } }
  | .irqEnable => { o with irq := { o.irq with enable := v } }
  | .lcdControl => { o with lcd := { o.lcd with control := v } }
  | .lcdStatus => { o with lcd := { o.lcd with status := v } }
  | .scrollY => { o with lcd := { o.lcd with scrollY := v } }
  | .scrollX => { o with lcd := { o.lcd with scrollX := v } }
  | .scanline => { o with lcd := { o.lcd with scanline := v } }
  | .scanlineCompare => { o with lcd := { o.lcd with scanlineCompare := v } }
  | .palette0 => { o with lcd := { o.lcd with palette0 := v } }
  | .palette1 => { o with lcd := { o.lcd with palette1 := v } }
  | .palette2 => { o with lcd := { o.lcd with palette2 := v } }

/-- Video RAM after a byte of it is stored (R38). -/
def ownerSetVram (o : Owners) (i : Nat) (v : Byte) : Owners :=
  { o with lcd := { o.lcd with vram := o.lcd.vram.write i v } }

/-- OAM after a byte of it is stored (R39). -/
def ownerSetOam (o : Owners) (i : Nat) (v : Byte) : Owners :=
  { o with lcd := { o.lcd with oam := o.lcd.oam.write i v } }

/-! ## Updates of one part of the instance -/

def Bus.withInBios (b : Bus) (f : Bool) : Bus := { b with inBios := f }
def Bus.withBc (b : Bus) (c : Bank) : Bus := { b with bc := c }
def Bus.withWram (b : Bus) (m : Memory) : Bus := { b with wram := m }
def Bus.withEram (b : Bus) (m : Memory) : Bus := { b with eram := m }
def Bus.withZp (b : Bus) (m : Memory) : Bus := { b with zp := m }
def Bus.withWired (b : Bus) (w : Wiring) : Bus := { b with wired := w }
def Bus.withOwn (b : Bus) (o : Owners) : Bus := { b with own := o }

/-! ## What a byte access answers -/

/-- Why a byte access is not made (R320, R323). -/
inductive Stop where
  | fatal (c : Cause)
  | refuse (r : Reason)
  deriving DecidableEq, Repr

/-- The ending of a transaction whose byte access stopped. -/
def Stop.ending : Stop → Ending
  | .fatal c => .fatal c
  | .refuse r => .refuse r

/-- A byte read: the byte and the events it emitted, or why it was not made. It changes no state (R92). -/
abbrev ByteRead := Except Stop (Byte × List Event)

/-- What a run of byte accesses comes to: the instance it leaves, the events in order, how it ended, and how many byte
accesses were made, the one step count the spec supports (R392). Where it did not end `ok`, `bus` holds the effects of
the accesses before the failing one (R189, R324, R330), and that one is not counted. -/
structure Run where
  bus      : Bus
  events   : List Event
  ending   : Ending
  accesses : Nat
  deriving DecidableEq, Repr

/-- No byte access: the instance is `b`, ended `ok`. -/
def Run.idle (b : Bus) : Run := { bus := b, events := [], ending := .ok, accesses := 0 }

/-- One byte access made, which leaves `b` and emits no event. -/
def Run.done (b : Bus) : Run := { bus := b, events := [], ending := .ok, accesses := 1 }

/-- A byte access that is not made: nothing changes. -/
def Run.stop (b : Bus) (x : Stop) : Run := { bus := b, events := [], ending := x.ending, accesses := 0 }

/-- One run and then, if it ended `ok`, another from the instance it left (R189, R286). -/
def Run.andThen (r : Run) (k : Bus → Run) : Run :=
  match r.ending with
  | .ok =>
    { bus := (k r.bus).bus, events := r.events ++ (k r.bus).events, ending := (k r.bus).ending
      accesses := r.accesses + (k r.bus).accesses }
  | .fatal c => { r with ending := .fatal c }
  | .refuse x => { r with ending := .refuse x }

/-- What the byte reads of a transaction come to: the bytes read in order, the events in order, how it ended. A read
changes no state (R92), so no instance is left; each read that is made gives one byte. -/
structure Reads where
  bytes  : List Byte
  events : List Event
  ending : Ending
  deriving DecidableEq, Repr

/-- The byte accesses made (R392). -/
def Reads.accesses (r : Reads) : Nat := r.bytes.length

/-- One byte read. -/
def Reads.one (r : ByteRead) : Reads :=
  match r with
  | .ok (v, events) => { bytes := [v], events := events, ending := .ok }
  | .error x => { bytes := [], events := [], ending := x.ending }

/-- One read and then, if it was made, the next: the events of the first stay where the second is not made (R189). -/
def Reads.andThen (r k : Reads) : Reads :=
  match r.ending with
  | .ok => { bytes := r.bytes ++ k.bytes, events := r.events ++ k.events, ending := k.ending }
  | .fatal c => { r with ending := .fatal c }
  | .refuse x => { r with ending := .refuse x }

/-- The data of the response: a byte zero-extended, or the word `hi ++ lo` of the byte read first and the one read
second (R122, R134). -/
def Reads.data (r : Reads) : Word :=
  match r.bytes with
  | [] => 0
  | [v] => v.setWidth 16
  | lo :: hi :: _ => hi ++ lo

/-- Make a read only if its owner is wired (R307). -/
def Bus.needsForRead (b : Bus) (o : Owner) (k : ByteRead) : ByteRead :=
  if b.wired.has o then k else .error (.refuse .unwired)

/-- Make a write only if its owner is wired (R307). -/
def Bus.needsForWrite (b : Bus) (o : Owner) (k : Run) : Run :=
  if b.wired.has o then k else .stop b (.refuse .unwired)

/-! ## Transactions -/

/-- Answer the transaction; no other state changes. -/
def State.respond (s : State) (r : Response) : State := { s with rsp := some r }

/-- Refuse the request: nothing changes but the response, and no event is emitted (R324). -/
def State.refuse (s : State) (x : Reason) : State :=
  s.respond { outcome := .refuse x, rdata := none, events := [] }

/-- Enter the fatal state: latch the cause and end the transaction with it, `rdata` meaningless, the events those
emitted before the failing access. Nothing else is saved and nothing is rolled back (R330). -/
def State.takeFatal (s : State) (c : Cause) (events : List Event) : State :=
  { s with fatal := some c, rsp := some { outcome := .fatal c, rdata := none, events := events } }

/-- End a transaction at an access that was not made (R330 for a fatal condition, R324 for a refusal). -/
def State.stop (s : State) (x : Stop) (events : List Event) : State :=
  match x with
  | .fatal c => s.takeFatal c events
  | .refuse r => s.respond { outcome := .refuse r, rdata := none, events := events }

/-- Admission (R160, R325): a request after a fatal condition is refused `AfterFatal`, a request before the first
CONSTRUCT `NotConstructed`; otherwise the transaction `k` is made on the instance. There is no instance exactly when
no CONSTRUCT has happened or the latest one ended fatal, and then `fatal` is latched (R303). -/
def State.onInstance (s : State) (k : Bus → State) : State :=
  match s.fatal with
  | some _ => s.refuse .afterFatal
  | none =>
    match s.session with
    | none => s.refuse .notConstructed
    | some b => k b

/-- The instance replaced. -/
def State.withBus (s : State) (b : Bus) : State := { s with session := some b }

/-- End a writing transaction with what its byte accesses came to. -/
def State.finish (s : State) (r : Run) : State :=
  match r.ending with
  | .ok => (s.withBus r.bus).respond { outcome := .ok, rdata := none, events := r.events }
  | .fatal c => (s.withBus r.bus).stop (.fatal c) r.events
  | .refuse x => (s.withBus r.bus).stop (.refuse x) r.events

/-- A transaction that writes: admission, then its byte accesses. -/
def State.writeTxn (s : State) (k : Bus → Run) : State := s.onInstance fun b => s.finish (k b)

/-- End a reading transaction with what its byte reads came to. -/
def State.finishRead (s : State) (r : Reads) : State :=
  match r.ending with
  | .ok => s.respond { outcome := .ok, rdata := some r.data, events := r.events }
  | .fatal c => s.stop (.fatal c) r.events
  | .refuse x => s.stop (.refuse x) r.events

/-- A byte-read transaction: admission, then the read; RSP carries the byte zero-extended (R122). -/
def State.readTxn (s : State) (k : Bus → ByteRead) : State := s.onInstance fun b => s.finishRead (.one (k b))

/-- An owner step: the owner changes one byte of its own, and nothing else changes (R46). While no instance exists
there is nothing of the owners' for the block to hold (notes/assumptions/8.md). -/
def State.ownerStep (s : State) (x : OwnerByte) (v : Byte) : State :=
  match s.session with
  | none => s
  | some b =>
    match x with
    | .cell c => s.withBus (b.withOwn (ownerSet b.own c v))
    | .vram i => s.withBus (b.withOwn (ownerSetVram b.own i.val v))
    | .oam i => s.withBus (b.withOwn (ownerSetOam b.own i.val v))

end Sys2Proof.Machine
end

