-- ==== Sys2Proof/Machine/Operands.lean ====
section
/-! DEFINITION. The operand forms: the window an address selects (spec/20_memory.md R70, R71), the index of a byte
in its buffer (spec/30_encoding.md R135, R96), the register an I/O address selects (R131, R230), the fields of a
data byte (R129, R132), the assembly of a bank number (R130), of a word (R134) and of a DMA address (R133). -/

namespace Sys2Proof.Machine

/-- The windows of the address map, W2 to W10 (R70). W1, the overlay, is a condition on reads of W2 (R72). -/
inductive Window where
  | rom0 | romx | vram | eram | wram | echo | oam | unmapped | io | zp | ie
  deriving DecidableEq, Repr

/-- The window of an address, tested in the order of the decode list (R71, R161). -/
def windowOf (a : Addr) : Window :=
  if a.toNat ≤ 0x3FFF then .rom0
  else if a.toNat ≤ 0x7FFF then .romx
  else if a.toNat ≤ 0x9FFF then .vram
  else if a.toNat ≤ 0xBFFF then .eram
  else if a.toNat ≤ 0xDFFF then .wram
  else if a.toNat ≤ 0xFDFF then .echo
  else if a.toNat ≤ 0xFE9F then .oam
  else if a.toNat ≤ 0xFEFF then .unmapped
  else if 0xFF80 ≤ a.toNat ∧ a.toNat ≤ 0xFFFE then .zp
  else if a.toNat = 0xFFFF then .ie
  else .io

/-- `addr[15:12]`, the nibble that selects a Bank Controller command (R125, R128). -/
def nibble (a : Addr) : Nat := a.toNat / 0x1000

/-! ## Index assembly (R135): an offset from the window's base, with a bank offset added where there is one -/

def vramIndex (a : Addr) : Nat := a.toNat - 0x8000
def wramIndex (a : Addr) : Nat := a.toNat - 0xC000
def echoIndex (a : Addr) : Nat := a.toNat - 0xE000
def oamIndex (a : Addr) : Nat := a.toNat - 0xFE00
def zpIndex (a : Addr) : Nat := a.toNat - 0xFF80

/-- The physical ROM index of an address of W3 (R73, R166). -/
def romxIndex (b : Bus) (a : Addr) : Nat := b.bc.romBankOffset.toNat + (a.toNat - 0x4000)

/-- The external-RAM offset of an address of W5 (R75, R163). -/
def eramOffset (b : Bus) (a : Addr) : Nat := b.bc.ramBankOffset.toNat + (a.toNat - 0xA000)

/-- `EramIndex`: the checked offset. The size-zero test comes first (R163, R321). -/
def eramIndex (b : Bus) (a : Addr) : Except Cause Nat :=
  if b.ramSize.bytes = 0 then .error .eramNotConfigured
  else if b.ramSize.bytes ≤ eramOffset b a then .error .eramOutOfRange
  else .ok (eramOffset b a)

/-! ## The registers of the I/O router -/

/-- What a listed I/O address selects: an owner's cell, or one of the two registers the Bus owns (R230). -/
inductive IoReg where
  | cell (c : RegCell)
  | dmaTrigger
  | biosLatch
  deriving DecidableEq, Repr

/-- The router's table (R230). -/
def ioTable : List (Nat × IoReg) :=
  [(0xFF00, .cell .joypad), (0xFF04, .cell .divider), (0xFF05, .cell .counter), (0xFF06, .cell .modulo),
   (0xFF07, .cell .timerControl), (0xFF0F, .cell .irqFlags)] ++
  [(0xFF40, .cell .lcdControl), (0xFF41, .cell .lcdStatus), (0xFF42, .cell .scrollY), (0xFF43, .cell .scrollX),
   (0xFF44, .cell .scanline), (0xFF45, .cell .scanlineCompare)] ++
  [(0xFF46, .dmaTrigger), (0xFF47, .cell .palette0), (0xFF48, .cell .palette1), (0xFF49, .cell .palette2),
   (0xFF50, .biosLatch), (0xFFFF, .cell .irqEnable)]

/-- Dispatch by exact address (R131); none for an unimplemented one (R268). -/
def ioRegOf (a : Addr) : Option IoReg := ioTable.lookup a.toNat

/-- What a bus write of `v` stores in a cell; none where the write is ignored. The divider stores 0 (R235), the
timer control the low three bits (R241), the scanline nothing (R253), every other cell the whole byte. -/
def storedInCell (c : RegCell) (v : Byte) : Option Byte :=
  match c with
  | .divider => some 0
  | .timerControl => some (v &&& 0x07)
  | .scanline => none
  | _ => some v

/-! ## Bank numbers (R129, R130) -/

/-- BC.ROMSEL: `value[4:0]`, zero coerced to one (R204). -/
def romSelBank (v : Byte) : Offset :=
  if v &&& 0x1F = 0 then 1 else (v &&& 0x1F).setWidth 32

/-- BC.HISEL in RomBanking: bits 4:0 of the existing bank number kept, bits 6:5 replaced by `value[5:4]` (R206). -/
def hiSelRomBank (offset : Offset) (v : Byte) : Offset :=
  let low : Offset := (offset / 0x4000) &&& 0x1F
  let high : Offset := ((v >>> 4) &&& 0x3).setWidth 32
  low ||| high <<< (5 : Nat)

/-- BC.HISEL in RamBanking: `value[1:0]` (R207). -/
def hiSelRamBank (v : Byte) : Offset := (v &&& 0x3).setWidth 32

/-- A ROM bank number's offset (R130). -/
def romOffsetOf (bank : Offset) : Offset := bank * 0x4000

/-- A RAM bank number's offset (R130). -/
def ramOffsetOf (bank : Offset) : Offset := bank * 0x2000

/-! ## Words and the DMA addresses -/

/-- The address of a word's high byte (R134). Not used at 0xFFFF (R89). -/
def nextAddr (a : Addr) : Addr := a + 1

/-- `w[7:0]` (R134). -/
def lowByte (w : Word) : Byte := w.extractLsb' 0 8

/-- `w[15:8]` (R134). -/
def highByte (w : Word) : Byte := w.extractLsb' 8 8

/-- The DMA source address of byte `i`: `value << 8` in 16 bits, plus `i` (R133, R280). -/
def dmaSource (page : Byte) (i : Nat) : Addr := (page.setWidth 16 <<< 8) + BitVec.ofNat 16 i

/-- The DMA destination address of byte `i` (R133, R280). -/
def dmaDest (i : Nat) : Addr := 0xFE00 + BitVec.ofNat 16 i

/-- The DMA length (R133, R280). -/
def dmaLength : Nat := 0xA0

end Sys2Proof.Machine
end

