-- ==== Sys2Proof/Machine/Flags.lean ====
section
/-! DEFINITION. The one-bit status values of the block and how each is computed (spec/10_state.md R51): the overlay
latch, the RAM enable and the banking mode; the block has no arithmetic flags. With them, the two header codes a
CONSTRUCT turns into constant state (R301, R302). -/

namespace Sys2Proof.Machine

/-- `BIOS_DISABLE_ON(v)`, with `BIOS_DISABLE_ON(1) = true` (R10, R265). -/
def biosDisableOn (cfg : Config) (v : Byte) : Bool := v == 1 || !cfg.biosKeepOn.contains v

/-- The overlay latch after a write of `v` to 0xFF50: cleared, or as it was; never set (R265). -/
def latchAfterWrite (cfg : Config) (inBios : Bool) (v : Byte) : Bool :=
  if inBios && biosDisableOn cfg v then false else inBios

/-- The byte a read of 0xFF50 returns (R264). -/
def latchByte (inBios : Bool) : Byte := if inBios then 0x01 else 0x00

/-- `bc.ram_enabled` after BC.RAMEN of `v`: the low nibble is 0xA (R203). -/
def ramEnableOf (v : Byte) : Bool := v &&& 0x0F == 0x0A

/-- `bc.banking_mode` after BC.MODESEL of `v`: bit 0 (R208). -/
def bankingModeOf (v : Byte) : BankingMode := if v.getLsbD 0 then .ramBanking else .romBanking

/-- `MBC_CODE_MAP(code)`; none outside its domain (R301). -/
def modeOfCode (cfg : Config) (code : Byte) : Option Mode := cfg.mbcCodeMap.lookup code

/-- `RAM_SIZE_MAP = {0→0, 1→2048, 2→8192}`; none for every other code (R302). -/
def ramSizeOfCode (code : Byte) : Option RamSize :=
  match code.toNat with
  | 0 => some .none
  | 1 => some .kb2
  | 2 => some .kb8
  | _ => none

end Sys2Proof.Machine
end

