-- ==== Sys2Proof/Machine/HostOps.lean ====
section
/-! DEFINITION. The operations that are neither loads nor stores (spec/44_host_ops.md): CONSTRUCT, the four ATTACH
operations, SETBIOS, and the three reserved op codes (spec/30_encoding.md R121). -/

namespace Sys2Proof.Machine

/-- SETBIOS: `in_bios <- flag`, and nothing else of the instance (R308). -/
def execSetbios (flag : Bool) (s : State) : StepOutcome :=
  .next (s.writeTxn fun b => .idle (b.withInBios flag))

/-- A reserved op code: after admission, refused `ReservedOp`, nothing changed (R121, R325). -/
def refuseReserved (s : State) : State := s.onInstance fun _ => s.refuse .reservedOp

/-- RESERVED.5 (R121). -/
def execReserved5 (s : State) : StepOutcome := .next (refuseReserved s)

/-- RESERVED.6 (R121). -/
def execReserved6 (s : State) : StepOutcome := .next (refuseReserved s)

/-- RESERVED.7 (R121). -/
def execReserved7 (s : State) : StepOutcome := .next (refuseReserved s)

/-- ATTACH of an owner: after admission, its flag becomes true; a second ATTACH is refused `AlreadyWired` (R304,
R305). -/
def attachOwner (s : State) (o : Owner) : State :=
  s.writeTxn fun b =>
    if b.wired.has o then .stop b (.refuse .alreadyWired) else .idle (b.withWired (b.wired.attach o))

/-- ATTACH_DISPLAY (R304). -/
def execAttachDisplay (s : State) : StepOutcome := .next (attachOwner s .display)

/-- ATTACH_TIMER (R304). -/
def execAttachTimer (s : State) : StepOutcome := .next (attachOwner s .timer)

/-- ATTACH_IRQ (R304). -/
def execAttachIrq (s : State) : StepOutcome := .next (attachOwner s .irq)

/-- ATTACH_KBD (R304). -/
def execAttachKbd (s : State) : StepOutcome := .next (attachOwner s .kbd)

/-- A CONSTRUCT that ends fatal: the cause is latched and no instance exists; every other state element is
unspecified, so none is kept (R303). -/
def constructFatal (s : State) (c : Cause) : State := State.takeFatal { s with session := none } c []

/-- A CONSTRUCT that succeeds: a new session with the full reset state, the fatal latch cleared (R300, R331). -/
def constructOk (s : State) (b : Bus) : State :=
  State.respond { s with session := some b, fatal := none } { outcome := .ok, rdata := none, events := [] }

/-- CONSTRUCT: accepted in every state; the bank-controller code is checked before the RAM-size code (R300). -/
def execConstruct (rom : Image) (mbcCode ramCode : Byte) (s : State) : StepOutcome :=
  .next
    (match modeOfCode s.cfg mbcCode with
     | none => constructFatal s .unsupportedBankController
     | some mode =>
       match ramSizeOfCode ramCode with
       | none => constructFatal s .unsupportedRamSize
       | some size => constructOk s (Bus.reset s.cfg rom mode size))

end Sys2Proof.Machine
end

