-- ==== Sys2Proof/Machine/BankController.lean ====
section
/-! DEFINITION. The Bank Controller state machine (spec/41_bank_controller.md): its commands, its dispatch, and the
meanings of the five command rows of the opcode table. -/

namespace Sys2Proof.Machine

/-! ## Commands -/

/-- RAMEN (R203). -/
def bankRamEnable (b : Bus) (v : Byte) : Bus := b.withBc { b.bc with ramEnabled := ramEnableOf v }

/-- ROMSEL: the whole bank number is replaced (R204). -/
def bankRomSelect (b : Bus) (v : Byte) : Bus := b.withBc { b.bc with romBankOffset := romOffsetOf (romSelBank v) }

/-- HISEL, by the banking mode (R205, R206, R207). -/
def bankHighSelect (b : Bus) (v : Byte) : Bus :=
  match b.bc.bankingMode with
  | .romBanking => b.withBc { b.bc with romBankOffset := romOffsetOf (hiSelRomBank b.bc.romBankOffset v) }
  | .ramBanking => b.withBc { b.bc with ramBankOffset := ramOffsetOf (hiSelRamBank v) }

/-- MODESEL: neither offset is recomputed (R208). -/
def bankModeSelect (b : Bus) (v : Byte) : Bus := b.withBc { b.bc with bankingMode := bankingModeOf v }

/-- The checked store to external RAM (R163, R178). -/
def eramStore (b : Bus) (a : Addr) (v : Byte) : Run :=
  match eramIndex b a with
  | .ok i => .done (b.withEram (b.eram.write i v))
  | .error c => .stop b (.fatal c)

/-- STORE: dropped before any check while RAM is disabled (R209). -/
def bankStore (b : Bus) (a : Addr) (v : Byte) : Run :=
  if b.bc.ramEnabled then eramStore b a v else .done b

/-- A no-op in RomOnly mode, otherwise the command (R200). The three banked modes behave alike (R201). -/
def bankCommand (b : Bus) (k : Run) : Run :=
  match b.bc.mode with
  | .romOnly => .done b
  | .mbc1 => k
  | .mbc1Ram => k
  | .mbc2 => k

/-- `BankCtlWrite`: the command by the top nibble (R200). It is called with nibbles 0x0 to 0x7, 0xA and 0xB only. -/
def bankCtlWrite (b : Bus) (a : Addr) (v : Byte) : Run :=
  bankCommand b
    (match nibble a with
     | 0x0 => .done b
     | 0x1 => .done (bankRamEnable b v)
     | 0x2 => .done (bankRomSelect b v)
     | 0x3 => .done (bankRomSelect b v)
     | 0x4 => .done (bankHighSelect b v)
     | 0x5 => .done (bankHighSelect b v)
     | 0x6 => .done (bankModeSelect b v)
     | 0x7 => .done (bankModeSelect b v)
     | _ => bankStore b a v)

/-! ## The meanings of the command rows -/

/-- BC.NONE: no effect in any mode; address and data are ignored (R202). -/
def execBcNone (_a : Addr) (_v : Byte) (s : State) : StepOutcome :=
  .next (s.writeTxn fun b => .done b)

/-- BC.RAMEN (R203, R200). -/
def execBcRamen (_a : Addr) (v : Byte) (s : State) : StepOutcome :=
  .next (s.writeTxn fun b => bankCommand b (.done (bankRamEnable b v)))

/-- BC.ROMSEL (R204, R200). -/
def execBcRomsel (_a : Addr) (v : Byte) (s : State) : StepOutcome :=
  .next (s.writeTxn fun b => bankCommand b (.done (bankRomSelect b v)))

/-- BC.HISEL (R205, R206, R207, R200). -/
def execBcHisel (_a : Addr) (v : Byte) (s : State) : StepOutcome :=
  .next (s.writeTxn fun b => bankCommand b (.done (bankHighSelect b v)))

/-- BC.MODESEL (R208, R200). -/
def execBcModesel (_a : Addr) (v : Byte) (s : State) : StepOutcome :=
  .next (s.writeTxn fun b => bankCommand b (.done (bankModeSelect b v)))

end Sys2Proof.Machine
end

