-- ==== Sys2Proof/Machine/IoRouter.lean ====
section
/-! DEFINITION. The I/O Register Router (spec/42_io_router.md): a read and a write of a listed register and of an
unimplemented address. What a write to the DMA trigger does is a parameter here; Dma.lean gives it. -/

namespace Sys2Proof.Machine

/-- A read of a listed register. An owner's cell needs its owner wired and reads as it stands (R231, R232 to R267).
The DMA trigger reads as an unimplemented address (R256); the overlay latch reads as a byte (R264). -/
def readIoReg (b : Bus) : IoReg → ByteRead
  | .cell c => b.needsForRead c.owner (.ok (ownerGet b.own c, []))
  | .dmaTrigger => .ok (0, [.unimplRead 0xFF46])
  | .biosLatch => .ok (latchByte b.inBios, [])

/-- A write of a listed register. An ignored write touches no owner (R253); any other write of a cell needs its
owner wired (R231). -/
def writeIoReg (trigger : Bus → Byte → Run) (cfg : Config) (b : Bus) (r : IoReg) (v : Byte) : Run :=
  match r with
  | .cell c =>
    match storedInCell c v with
    | none => .done b
    | some x => b.needsForWrite c.owner (.done (b.withOwn (ownerSet b.own c x)))
  | .dmaTrigger => trigger b v
  | .biosLatch => .done (b.withInBios (latchAfterWrite cfg b.inBios v))

/-- A read of an unimplemented address: zero and one event (R268). -/
def readUnimplemented (a : Addr) : ByteRead := .ok (0, [.unimplRead a])

/-- A write of an unimplemented address: no effect and one event (R269). -/
def writeUnimplemented (b : Bus) (a : Addr) (v : Byte) : Run :=
  { bus := b, events := [.unimplWrite a v], ending := .ok, accesses := 1 }

/-- `IoRead` (R174, R230). -/
def ioRead (b : Bus) (a : Addr) : ByteRead :=
  match ioRegOf a with
  | some r => readIoReg b r
  | none => readUnimplemented a

/-- `IoWrite` (R184, R230). -/
def ioWrite (trigger : Bus → Byte → Run) (cfg : Config) (b : Bus) (a : Addr) (v : Byte) : Run :=
  match ioRegOf a with
  | some r => writeIoReg trigger cfg b r v
  | none => writeUnimplemented b a v

end Sys2Proof.Machine
end

