-- ==== Sys2Proof/Machine/BusAccess.lean ====
section
/-! DEFINITION. The byte accesses by window, and the two dispatchers `Read8` and `Write8` over all of them
(spec/40_bus_access.md R161, R175). What a write to the DMA trigger does is a parameter; Dma.lean gives it. -/

namespace Sys2Proof.Machine

/-! ## Reads -/

/-- `RomByte`: a read of the cartridge image at a physical index (R162). -/
def romByte (b : Bus) (i : Nat) : ByteRead :=
  if i < b.rom.len then .ok (b.rom.bytes.read i, []) else .error (.refuse .romIndexOutOfRange)

/-- W2 with W1 over it: 0x0000 to 0x00FF read the overlay while `in_bios` (R164), every other address of 0x0000 to
0x3FFF the fixed bank (R165). -/
def readLow (b : Bus) (a : Addr) : ByteRead :=
  if a.toNat ≤ 0x00FF ∧ b.inBios = true then .ok (b.bios.read a.toNat, []) else romByte b a.toNat

/-- W3 (R166). -/
def readRomx (b : Bus) (a : Addr) : ByteRead := romByte b (romxIndex b a)

/-- W4 (R167). -/
def readVram (b : Bus) (a : Addr) : ByteRead :=
  b.needsForRead .display (.ok (b.own.lcd.vram.read (vramIndex a), []))

/-- W5: in every mode and whatever `bc.ram_enabled` holds (R168). -/
def readEram (b : Bus) (a : Addr) : ByteRead :=
  match eramIndex b a with
  | .ok i => .ok (b.eram.read i, [])
  | .error c => .error (.fatal c)

/-- W6 (R169). -/
def readWram (b : Bus) (a : Addr) : ByteRead := .ok (b.wram.read (wramIndex a), [])

/-- W7: the same storage as W6 (R170). -/
def readEcho (b : Bus) (a : Addr) : ByteRead := .ok (b.wram.read (echoIndex a), [])

/-- W8 (R171). -/
def readOam (b : Bus) (a : Addr) : ByteRead :=
  b.needsForRead .display (.ok (b.own.lcd.oam.read (oamIndex a), []))

/-- W8u: zero, no event, no owner needed (R172). -/
def readUnmapped : ByteRead := .ok (0, [])

/-- W9 (R173). -/
def readZp (b : Bus) (a : Addr) : ByteRead := .ok (b.zp.read (zpIndex a), [])

/-- `Read8` without admission (R161). -/
def read8 (b : Bus) (a : Addr) : ByteRead :=
  match windowOf a with
  | .rom0 => readLow b a
  | .romx => readRomx b a
  | .vram => readVram b a
  | .eram => readEram b a
  | .wram => readWram b a
  | .echo => readEcho b a
  | .oam => readOam b a
  | .unmapped => readUnmapped
  | .zp => readZp b a
  | .io => ioRead b a
  | .ie => ioRead b a

/-! ## Writes -/

/-- W4 (R177). -/
def writeVram (b : Bus) (a : Addr) (v : Byte) : Run :=
  b.needsForWrite .display (.done (b.withOwn (ownerSetVram b.own (vramIndex a) v)))

/-- W5: a direct checked store in RomOnly mode, otherwise the command BC.STORE (R178, R209). -/
def writeEram (b : Bus) (a : Addr) (v : Byte) : Run :=
  match b.bc.mode with
  | .romOnly => eramStore b a v
  | .mbc1 => bankCtlWrite b a v
  | .mbc1Ram => bankCtlWrite b a v
  | .mbc2 => bankCtlWrite b a v

/-- W6 (R179). -/
def writeWram (b : Bus) (a : Addr) (v : Byte) : Run := .done (b.withWram (b.wram.write (wramIndex a) v))

/-- W7: the same storage as W6 (R180). -/
def writeEcho (b : Bus) (a : Addr) (v : Byte) : Run := .done (b.withWram (b.wram.write (echoIndex a) v))

/-- W8 (R181). -/
def writeOam (b : Bus) (a : Addr) (v : Byte) : Run :=
  b.needsForWrite .display (.done (b.withOwn (ownerSetOam b.own (oamIndex a) v)))

/-- W8u: nothing, the value discarded (R182). -/
def writeUnmapped (b : Bus) : Run := .done b

/-- W9 (R183). -/
def writeZp (b : Bus) (a : Addr) (v : Byte) : Run := .done (b.withZp (b.zp.write (zpIndex a) v))

/-- `Write8` without admission (R175), with `trigger` for what a write to 0xFF46 starts. -/
def write8With (trigger : Bus → Byte → Run) (cfg : Config) (b : Bus) (a : Addr) (v : Byte) : Run :=
  match windowOf a with
  | .rom0 => bankCtlWrite b a v
  | .romx => bankCtlWrite b a v
  | .vram => writeVram b a v
  | .eram => writeEram b a v
  | .wram => writeWram b a v
  | .echo => writeEcho b a v
  | .oam => writeOam b a v
  | .unmapped => writeUnmapped b
  | .zp => writeZp b a v
  | .io => ioWrite trigger cfg b a v
  | .ie => ioWrite trigger cfg b a v

end Sys2Proof.Machine
end

