-- ==== Sys2Proof/Machine/Dma.lean ====
section
/-! DEFINITION. The DMA Engine (spec/43_dma.md) and, with it, the whole byte write. -/

namespace Sys2Proof.Machine

/-- The trigger of the writes a copy makes. Those land in OAM, never on 0xFF46, so a copy cannot start another
(R285) and this is not reached. -/
def noTrigger (b : Bus) (_page : Byte) : Run := .done b

/-- Byte `i` of a copy: `Read8` of the source, then `Write8` of the destination, each fully decoded (R281). -/
def dmaByte (cfg : Config) (page : Byte) (i : Nat) (b : Bus) : Run :=
  match read8 b (dmaSource page i) with
  | .ok (v, events) =>
    Run.andThen { bus := b, events := events, ending := .ok, accesses := 1 } fun b' => write8With noTrigger cfg b' (dmaDest i) v
  | .error x => .stop b x

/-- `n` bytes of a copy from byte `i` on, ascending; the first access that is not made ends it (R281, R286). -/
def dmaFrom (cfg : Config) (page : Byte) : Nat → Nat → Bus → Run
  | 0, _, b => .idle b
  | n + 1, i, b => (dmaByte cfg page i b).andThen fun b' => dmaFrom cfg page n (i + 1) b'

/-- The write of the trigger: it stores its value nowhere (R257), and then `Dma(value)`, 160 bytes from `value << 8`
to 0xFE00 (R281). -/
def dmaCopy (cfg : Config) (b : Bus) (page : Byte) : Run := (Run.done b).andThen (dmaFrom cfg page dmaLength 0)

/-- `Write8` without admission (R175). -/
def write8 (cfg : Config) (b : Bus) (a : Addr) (v : Byte) : Run := write8With (dmaCopy cfg) cfg b a v

/-- A write of a listed register, the DMA trigger among them (R184, R257). -/
def writeReg (cfg : Config) (b : Bus) (r : IoReg) (v : Byte) : Run := writeIoReg (dmaCopy cfg) cfg b r v

end Sys2Proof.Machine
end

