-- ==== Sys2Proof/Machine/Rd8.lean ====
section
/-! DEFINITION. The meanings of the RD8 rows (spec/40_bus_access.md R161 to R174, spec/42_io_router.md): admission,
then the read of the row's register or window. No read changes state (R92). -/

namespace Sys2Proof.Machine

/-- RD8.IO.FF00: joypad/input (R232). -/
def execRd8IoFF00 (s : State) : StepOutcome := .next (s.readTxn fun b => readIoReg b (.cell .joypad))

/-- RD8.IO.FF04: timer divider (R234). -/
def execRd8IoFF04 (s : State) : StepOutcome := .next (s.readTxn fun b => readIoReg b (.cell .divider))

/-- RD8.IO.FF05: timer counter (R236). -/
def execRd8IoFF05 (s : State) : StepOutcome := .next (s.readTxn fun b => readIoReg b (.cell .counter))

/-- RD8.IO.FF06: timer modulo (R238). -/
def execRd8IoFF06 (s : State) : StepOutcome := .next (s.readTxn fun b => readIoReg b (.cell .modulo))

/-- RD8.IO.FF07: timer control (R240). -/
def execRd8IoFF07 (s : State) : StepOutcome := .next (s.readTxn fun b => readIoReg b (.cell .timerControl))

/-- RD8.IO.FF0F: interrupt flags (R242). -/
def execRd8IoFF0F (s : State) : StepOutcome := .next (s.readTxn fun b => readIoReg b (.cell .irqFlags))

/-- RD8.IO.FF40: LCD control (R244). -/
def execRd8IoFF40 (s : State) : StepOutcome := .next (s.readTxn fun b => readIoReg b (.cell .lcdControl))

/-- RD8.IO.FF41: LCD status (R246). -/
def execRd8IoFF41 (s : State) : StepOutcome := .next (s.readTxn fun b => readIoReg b (.cell .lcdStatus))

/-- RD8.IO.FF42: scroll Y (R248). -/
def execRd8IoFF42 (s : State) : StepOutcome := .next (s.readTxn fun b => readIoReg b (.cell .scrollY))

/-- RD8.IO.FF43: scroll X (R250). -/
def execRd8IoFF43 (s : State) : StepOutcome := .next (s.readTxn fun b => readIoReg b (.cell .scrollX))

/-- RD8.IO.FF44: current scanline (R252). -/
def execRd8IoFF44 (s : State) : StepOutcome := .next (s.readTxn fun b => readIoReg b (.cell .scanline))

/-- RD8.IO.FF45: scanline compare (R254). -/
def execRd8IoFF45 (s : State) : StepOutcome := .next (s.readTxn fun b => readIoReg b (.cell .scanlineCompare))

/-- RD8.IO.FF46: DMA trigger (R256). -/
def execRd8IoFF46 (s : State) : StepOutcome := .next (s.readTxn fun b => readIoReg b .dmaTrigger)

/-- RD8.IO.FF47: palette register, first (R258). -/
def execRd8IoFF47 (s : State) : StepOutcome := .next (s.readTxn fun b => readIoReg b (.cell .palette0))

/-- RD8.IO.FF48: palette register, second (R260). -/
def execRd8IoFF48 (s : State) : StepOutcome := .next (s.readTxn fun b => readIoReg b (.cell .palette1))

/-- RD8.IO.FF49: palette register, third (R262). -/
def execRd8IoFF49 (s : State) : StepOutcome := .next (s.readTxn fun b => readIoReg b (.cell .palette2))

/-- RD8.IO.FF50: BIOS-disable latch (R264). -/
def execRd8IoFF50 (s : State) : StepOutcome := .next (s.readTxn fun b => readIoReg b .biosLatch)

/-- RD8.IO.FFFF: interrupt enable mask (R266). -/
def execRd8IoFFFF (s : State) : StepOutcome := .next (s.readTxn fun b => readIoReg b (.cell .irqEnable))

/-- RD8.ZP (R173). -/
def execRd8Zp (a : Addr) (s : State) : StepOutcome := .next (s.readTxn fun b => readZp b a)

/-- RD8.IO.UNIMPL (R268). -/
def execRd8IoUnimpl (a : Addr) (s : State) : StepOutcome := .next (s.readTxn fun _ => readUnimplemented a)

/-- RD8.UNMAPPED_A (R172). -/
def execRd8UnmappedA (_a : Addr) (s : State) : StepOutcome := .next (s.readTxn fun _ => readUnmapped)

/-- RD8.UNMAPPED_B (R172). -/
def execRd8UnmappedB (_a : Addr) (s : State) : StepOutcome := .next (s.readTxn fun _ => readUnmapped)

/-- RD8.OAM (R171). -/
def execRd8Oam (a : Addr) (s : State) : StepOutcome := .next (s.readTxn fun b => readOam b a)

/-- RD8.ECHO (R170). -/
def execRd8Echo (a : Addr) (s : State) : StepOutcome := .next (s.readTxn fun b => readEcho b a)

/-- RD8.WRAM (R169). -/
def execRd8Wram (a : Addr) (s : State) : StepOutcome := .next (s.readTxn fun b => readWram b a)

/-- RD8.ERAM (R168). -/
def execRd8Eram (a : Addr) (s : State) : StepOutcome := .next (s.readTxn fun b => readEram b a)

/-- RD8.VRAM (R167). -/
def execRd8Vram (a : Addr) (s : State) : StepOutcome := .next (s.readTxn fun b => readVram b a)

/-- RD8.BIOS (R164, R138). Where the overlay is off the row is not selected and the next one, RD8.ROM0, is taken. -/
def execRd8Bios (a : Addr) (s : State) : StepOutcome := .next (s.readTxn fun b => readLow b a)

/-- RD8.ROM0 (R165). -/
def execRd8Rom0 (a : Addr) (s : State) : StepOutcome := .next (s.readTxn fun b => readLow b a)

/-- RD8.ROMX (R166). -/
def execRd8Romx (a : Addr) (s : State) : StepOutcome := .next (s.readTxn fun b => readRomx b a)

end Sys2Proof.Machine
end

