-- ==== Sys2Proof/Machine/Words.lean ====
section
/-! DEFINITION. The word transactions: two byte accesses, low address first, each fully decoded
(spec/40_bus_access.md R185 to R189). -/

namespace Sys2Proof.Machine

/-- `Read16` after its checks: the low byte, then the high byte (R185, R189, R324). -/
def readWord (b : Bus) (a : Addr) : Reads := (Reads.one (read8 b a)).andThen (.one (read8 b (nextAddr a)))

/-- `Write16` after its checks: the second write runs in the state the first one left (R187, R188, R189). -/
def writeWord (cfg : Config) (b : Bus) (a : Addr) (w : Word) : Run :=
  (write8 cfg b a (lowByte w)).andThen fun b' => write8 cfg b' (nextAddr a) (highByte w)

/-- RD16: admission, then `WordAtTop`, then the two reads (R185, R325). -/
def execRd16 (a : Addr) (s : State) : StepOutcome :=
  .next (s.onInstance fun b => if a = 0xFFFF then s.refuse .wordAtTop else s.finishRead (readWord b a))

/-- WR16: admission, then `WordAtTop`, then the two writes (R187, R325). -/
def execWr16 (a : Addr) (w : Word) (s : State) : StepOutcome :=
  .next (s.onInstance fun b => if a = 0xFFFF then s.refuse .wordAtTop else s.finish (writeWord s.cfg b a w))

end Sys2Proof.Machine
end

