-- ==== Sys2Proof/Machine/Wr8.lean ====
section
/-! DEFINITION. The meanings of the WR8 rows (spec/40_bus_access.md R175 to R184, spec/42_io_router.md): admission,
then the write of the row's register or window. The rows of 0x0000 to 0x7FFF are in BankController.lean. -/

namespace Sys2Proof.Machine

/-- WR8.IO.FF00: joypad/input (R233). -/
def execWr8IoFF00 (v : Byte) (s : State) : StepOutcome := .next (s.writeTxn fun b => writeReg s.cfg b (.cell .joypad) v)

/-- WR8.IO.FF04: timer divider (R235). -/
def execWr8IoFF04 (v : Byte) (s : State) : StepOutcome := .next (s.writeTxn fun b => writeReg s.cfg b (.cell .divider) v)

/-- WR8.IO.FF05: timer counter (R237). -/
def execWr8IoFF05 (v : Byte) (s : State) : StepOutcome := .next (s.writeTxn fun b => writeReg s.cfg b (.cell .counter) v)

/-- WR8.IO.FF06: timer modulo (R239). -/
def execWr8IoFF06 (v : Byte) (s : State) : StepOutcome := .next (s.writeTxn fun b => writeReg s.cfg b (.cell .modulo) v)

/-- WR8.IO.FF07: timer control (R241). -/
def execWr8IoFF07 (v : Byte) (s : State) : StepOutcome := .next (s.writeTxn fun b => writeReg s.cfg b (.cell .timerControl) v)

/-- WR8.IO.FF0F: interrupt flags (R243). -/
def execWr8IoFF0F (v : Byte) (s : State) : StepOutcome := .next (s.writeTxn fun b => writeReg s.cfg b (.cell .irqFlags) v)

/-- WR8.IO.FF40: LCD control (R245). -/
def execWr8IoFF40 (v : Byte) (s : State) : StepOutcome := .next (s.writeTxn fun b => writeReg s.cfg b (.cell .lcdControl) v)

/-- WR8.IO.FF41: LCD status (R247). -/
def execWr8IoFF41 (v : Byte) (s : State) : StepOutcome := .next (s.writeTxn fun b => writeReg s.cfg b (.cell .lcdStatus) v)

/-- WR8.IO.FF42: scroll Y (R249). -/
def execWr8IoFF42 (v : Byte) (s : State) : StepOutcome := .next (s.writeTxn fun b => writeReg s.cfg b (.cell .scrollY) v)

/-- WR8.IO.FF43: scroll X (R251). -/
def execWr8IoFF43 (v : Byte) (s : State) : StepOutcome := .next (s.writeTxn fun b => writeReg s.cfg b (.cell .scrollX) v)

/-- WR8.IO.FF44: current scanline (R253). The write is ignored and touches no owner. -/
def execWr8IoFF44 (v : Byte) (s : State) : StepOutcome := .next (s.writeTxn fun b => writeReg s.cfg b (.cell .scanline) v)

/-- WR8.IO.FF45: scanline compare (R255). -/
def execWr8IoFF45 (v : Byte) (s : State) : StepOutcome := .next (s.writeTxn fun b => writeReg s.cfg b (.cell .scanlineCompare) v)

/-- WR8.IO.FF46: DMA trigger (R257). The copy runs to completion inside the transaction. -/
def execWr8IoFF46 (v : Byte) (s : State) : StepOutcome := .next (s.writeTxn fun b => writeReg s.cfg b .dmaTrigger v)

/-- WR8.IO.FF47: palette register, first (R259). -/
def execWr8IoFF47 (v : Byte) (s : State) : StepOutcome := .next (s.writeTxn fun b => writeReg s.cfg b (.cell .palette0) v)

/-- WR8.IO.FF48: palette register, second (R261). -/
def execWr8IoFF48 (v : Byte) (s : State) : StepOutcome := .next (s.writeTxn fun b => writeReg s.cfg b (.cell .palette1) v)

/-- WR8.IO.FF49: palette register, third (R263). -/
def execWr8IoFF49 (v : Byte) (s : State) : StepOutcome := .next (s.writeTxn fun b => writeReg s.cfg b (.cell .palette2) v)

/-- WR8.IO.FF50: BIOS-disable latch (R265). -/
def execWr8IoFF50 (v : Byte) (s : State) : StepOutcome := .next (s.writeTxn fun b => writeReg s.cfg b .biosLatch v)

/-- WR8.IO.FFFF: interrupt enable mask (R267). -/
def execWr8IoFFFF (v : Byte) (s : State) : StepOutcome := .next (s.writeTxn fun b => writeReg s.cfg b (.cell .irqEnable) v)

/-- WR8.ZP (R183). -/
def execWr8Zp (a : Addr) (v : Byte) (s : State) : StepOutcome := .next (s.writeTxn fun b => writeZp b a v)

/-- WR8.IO.UNIMPL (R269). -/
def execWr8IoUnimpl (a : Addr) (v : Byte) (s : State) : StepOutcome := .next (s.writeTxn fun b => writeUnimplemented b a v)

/-- WR8.UNMAPPED_A (R182). -/
def execWr8UnmappedA (_a : Addr) (_v : Byte) (s : State) : StepOutcome := .next (s.writeTxn fun b => writeUnmapped b)

/-- WR8.UNMAPPED_B (R182). -/
def execWr8UnmappedB (_a : Addr) (_v : Byte) (s : State) : StepOutcome := .next (s.writeTxn fun b => writeUnmapped b)

/-- WR8.OAM (R181). -/
def execWr8Oam (a : Addr) (v : Byte) (s : State) : StepOutcome := .next (s.writeTxn fun b => writeOam b a v)

/-- WR8.ECHO (R180). -/
def execWr8Echo (a : Addr) (v : Byte) (s : State) : StepOutcome := .next (s.writeTxn fun b => writeEcho b a v)

/-- WR8.WRAM (R179). -/
def execWr8Wram (a : Addr) (v : Byte) (s : State) : StepOutcome := .next (s.writeTxn fun b => writeWram b a v)

/-- WR8.ERAM (R178, R209). -/
def execWr8Eram (a : Addr) (v : Byte) (s : State) : StepOutcome := .next (s.writeTxn fun b => writeEram b a v)

/-- WR8.VRAM (R177). -/
def execWr8Vram (a : Addr) (v : Byte) (s : State) : StepOutcome := .next (s.writeTxn fun b => writeVram b a v)

end Sys2Proof.Machine
end

