-- ==== Sys2Proof/Machine/Dispatch.lean ====
section
/-! DEFINITION. One arm per instruction, each a direct call of its meaning. -/

namespace Sys2Proof.Machine

def exec (i : Instr) (s : State) : Host.Outcome State Fault Refusal :=
  match i with
  | .rd8IoFF00 => Sys2Proof.Machine.execRd8IoFF00 s
  | .rd8IoFF04 => Sys2Proof.Machine.execRd8IoFF04 s
  | .rd8IoFF05 => Sys2Proof.Machine.execRd8IoFF05 s
  | .rd8IoFF06 => Sys2Proof.Machine.execRd8IoFF06 s
  | .rd8IoFF07 => Sys2Proof.Machine.execRd8IoFF07 s
  | .rd8IoFF0F => Sys2Proof.Machine.execRd8IoFF0F s
  | .rd8IoFF40 => Sys2Proof.Machine.execRd8IoFF40 s
  | .rd8IoFF41 => Sys2Proof.Machine.execRd8IoFF41 s
  | .rd8IoFF42 => Sys2Proof.Machine.execRd8IoFF42 s
  | .rd8IoFF43 => Sys2Proof.Machine.execRd8IoFF43 s
  | .rd8IoFF44 => Sys2Proof.Machine.execRd8IoFF44 s
  | .rd8IoFF45 => Sys2Proof.Machine.execRd8IoFF45 s
  | .rd8IoFF46 => Sys2Proof.Machine.execRd8IoFF46 s
  | .rd8IoFF47 => Sys2Proof.Machine.execRd8IoFF47 s
  | .rd8IoFF48 => Sys2Proof.Machine.execRd8IoFF48 s
  | .rd8IoFF49 => Sys2Proof.Machine.execRd8IoFF49 s
  | .rd8IoFF50 => Sys2Proof.Machine.execRd8IoFF50 s
  | .rd8IoFFFF => Sys2Proof.Machine.execRd8IoFFFF s
  | .wr8IoFF00 v => Sys2Proof.Machine.execWr8IoFF00 v s
  | .wr8IoFF04 v => Sys2Proof.Machine.execWr8IoFF04 v s
  | .wr8IoFF05 v => Sys2Proof.Machine.execWr8IoFF05 v s
  | .wr8IoFF06 v => Sys2Proof.Machine.execWr8IoFF06 v s
  | .wr8IoFF07 v => Sys2Proof.Machine.execWr8IoFF07 v s
  | .wr8IoFF0F v => Sys2Proof.Machine.execWr8IoFF0F v s
  | .wr8IoFF40 v => Sys2Proof.Machine.execWr8IoFF40 v s
  | .wr8IoFF41 v => Sys2Proof.Machine.execWr8IoFF41 v s
  | .wr8IoFF42 v => Sys2Proof.Machine.execWr8IoFF42 v s
  | .wr8IoFF43 v => Sys2Proof.Machine.execWr8IoFF43 v s
  | .wr8IoFF44 v => Sys2Proof.Machine.execWr8IoFF44 v s
  | .wr8IoFF45 v => Sys2Proof.Machine.execWr8IoFF45 v s
  | .wr8IoFF46 v => Sys2Proof.Machine.execWr8IoFF46 v s
  | .wr8IoFF47 v => Sys2Proof.Machine.execWr8IoFF47 v s
  | .wr8IoFF48 v => Sys2Proof.Machine.execWr8IoFF48 v s
  | .wr8IoFF49 v => Sys2Proof.Machine.execWr8IoFF49 v s
  | .wr8IoFF50 v => Sys2Proof.Machine.execWr8IoFF50 v s
  | .wr8IoFFFF v => Sys2Proof.Machine.execWr8IoFFFF v s
  | .rd8Zp a => Sys2Proof.Machine.execRd8Zp a s
  | .rd8IoUnimpl a => Sys2Proof.Machine.execRd8IoUnimpl a s
  | .rd8UnmappedA a => Sys2Proof.Machine.execRd8UnmappedA a s
  | .rd8UnmappedB a => Sys2Proof.Machine.execRd8UnmappedB a s
  | .rd8Oam a => Sys2Proof.Machine.execRd8Oam a s
  | .rd8Echo a => Sys2Proof.Machine.execRd8Echo a s
  | .rd8Wram a => Sys2Proof.Machine.execRd8Wram a s
  | .rd8Eram a => Sys2Proof.Machine.execRd8Eram a s
  | .rd8Vram a => Sys2Proof.Machine.execRd8Vram a s
  | .rd8Bios a => Sys2Proof.Machine.execRd8Bios a s
  | .rd8Rom0 a => Sys2Proof.Machine.execRd8Rom0 a s
  | .rd8Romx a => Sys2Proof.Machine.execRd8Romx a s
  | .wr8Zp a v => Sys2Proof.Machine.execWr8Zp a v s
  | .wr8IoUnimpl a v => Sys2Proof.Machine.execWr8IoUnimpl a v s
  | .wr8UnmappedA a v => Sys2Proof.Machine.execWr8UnmappedA a v s
  | .wr8UnmappedB a v => Sys2Proof.Machine.execWr8UnmappedB a v s
  | .wr8Oam a v => Sys2Proof.Machine.execWr8Oam a v s
  | .wr8Echo a v => Sys2Proof.Machine.execWr8Echo a v s
  | .wr8Wram a v => Sys2Proof.Machine.execWr8Wram a v s
  | .wr8Eram a v => Sys2Proof.Machine.execWr8Eram a v s
  | .wr8Vram a v => Sys2Proof.Machine.execWr8Vram a v s
  | .bcNone a v => Sys2Proof.Machine.execBcNone a v s
  | .bcRamen a v => Sys2Proof.Machine.execBcRamen a v s
  | .bcRomsel a v => Sys2Proof.Machine.execBcRomsel a v s
  | .bcHisel a v => Sys2Proof.Machine.execBcHisel a v s
  | .bcModesel a v => Sys2Proof.Machine.execBcModesel a v s
  | .rd16 a => Sys2Proof.Machine.execRd16 a s
  | .wr16 a w => Sys2Proof.Machine.execWr16 a w s
  | .setbios flag => Sys2Proof.Machine.execSetbios flag s
  | .reserved5 => Sys2Proof.Machine.execReserved5 s
  | .reserved6 => Sys2Proof.Machine.execReserved6 s
  | .reserved7 => Sys2Proof.Machine.execReserved7 s
  | .attachDisplay => Sys2Proof.Machine.execAttachDisplay s
  | .attachTimer => Sys2Proof.Machine.execAttachTimer s
  | .attachIrq => Sys2Proof.Machine.execAttachIrq s
  | .attachKbd => Sys2Proof.Machine.execAttachKbd s
  | .construct rom mbcCode ramCode => Sys2Proof.Machine.execConstruct rom mbcCode ramCode s

end Sys2Proof.Machine
end

