-- ==== Sys2Proof/WellFormed.lean ====
section
/-! DEFINITION. Which terms are well formed: buffers and images in canonical form, and instructions whose address
lies in the range their row of spec/opcode_table.json serves (`addr_lo` to `addr_hi`, once the earlier rows have
taken theirs: R138, R126, R131). -/

namespace Sys2Proof

/-- The entries of `m` rise strictly from `lo` upwards and none is zero. -/
def Memory.wfFrom : Nat → Memory → Bool
  | _, [] => true
  | lo, (i, v) :: m => decide (lo ≤ i) && decide (v ≠ 0) && Memory.wfFrom (i + 1) m

/-- The canonical form: indexes strictly rising, no entry equal to what an unlisted index reads as. -/
def Memory.wf (m : Memory) : Bool := Memory.wfFrom 0 m

/-- `m` is the canonical form of an array of `size` bytes. -/
def Memory.fits (size : Nat) (m : Memory) : Bool := m.wf && m.all fun c => decide (c.1 < size)

/-- `rom` is the canonical form of an image of `rom.len` bytes (any length: R9). -/
def Image.wf (rom : Image) : Bool := rom.bytes.fits rom.len

/-- The eighteen register addresses the I/O router lists (R131). -/
def listedIo : List Nat :=
  [0xFF00, 0xFF04, 0xFF05, 0xFF06, 0xFF07, 0xFF0F] ++ [0xFF40, 0xFF41, 0xFF42, 0xFF43, 0xFF44, 0xFF45] ++
  [0xFF46, 0xFF47, 0xFF48, 0xFF49, 0xFF50, 0xFFFF]

/-- `lo ≤ a ≤ hi`. -/
def Addr.within (a : Addr) (lo hi : Nat) : Bool := decide (lo ≤ a.toNat) && decide (a.toNat ≤ hi)

/-- An address of 0xFF00 to 0xFF7F that the router does not list: one of the 111 of R268. -/
def Addr.isUnimplemented (a : Addr) : Bool := a.within 0xFF00 0xFF7F && !listedIo.contains a.toNat

/-- The instruction's operands are values its row admits. -/
def Instr.wf : Instr → Bool
  | .rd8IoFF00 => true
  | .rd8IoFF04 => true
  | .rd8IoFF05 => true
  | .rd8IoFF06 => true
  | .rd8IoFF07 => true
  | .rd8IoFF0F => true
  | .rd8IoFF40 => true
  | .rd8IoFF41 => true
  | .rd8IoFF42 => true
  | .rd8IoFF43 => true
  | .rd8IoFF44 => true
  | .rd8IoFF45 => true
  | .rd8IoFF46 => true
  | .rd8IoFF47 => true
  | .rd8IoFF48 => true
  | .rd8IoFF49 => true
  | .rd8IoFF50 => true
  | .rd8IoFFFF => true
  | .wr8IoFF00 _ => true
  | .wr8IoFF04 _ => true
  | .wr8IoFF05 _ => true
  | .wr8IoFF06 _ => true
  | .wr8IoFF07 _ => true
  | .wr8IoFF0F _ => true
  | .wr8IoFF40 _ => true
  | .wr8IoFF41 _ => true
  | .wr8IoFF42 _ => true
  | .wr8IoFF43 _ => true
  | .wr8IoFF44 _ => true
  | .wr8IoFF45 _ => true
  | .wr8IoFF46 _ => true
  | .wr8IoFF47 _ => true
  | .wr8IoFF48 _ => true
  | .wr8IoFF49 _ => true
  | .wr8IoFF50 _ => true
  | .wr8IoFFFF _ => true
  | .rd8Zp a => a.within 0xFF80 0xFFFE
  | .rd8IoUnimpl a => a.isUnimplemented
  | .rd8UnmappedA a => a.within 0xFEA0 0xFEBF
  | .rd8UnmappedB a => a.within 0xFEC0 0xFEFF
  | .rd8Oam a => a.within 0xFE00 0xFE9F
  | .rd8Echo a => a.within 0xE000 0xFDFF
  | .rd8Wram a => a.within 0xC000 0xDFFF
  | .rd8Eram a => a.within 0xA000 0xBFFF
  | .rd8Vram a => a.within 0x8000 0x9FFF
  | .rd8Bios a => a.within 0x0000 0x00FF
  | .rd8Rom0 a => a.within 0x0000 0x3FFF
  | .rd8Romx a => a.within 0x4000 0x7FFF
  | .wr8Zp a _ => a.within 0xFF80 0xFFFE
  | .wr8IoUnimpl a _ => a.isUnimplemented
  | .wr8UnmappedA a _ => a.within 0xFEA0 0xFEBF
  | .wr8UnmappedB a _ => a.within 0xFEC0 0xFEFF
  | .wr8Oam a _ => a.within 0xFE00 0xFE9F
  | .wr8Echo a _ => a.within 0xE000 0xFDFF
  | .wr8Wram a _ => a.within 0xC000 0xDFFF
  | .wr8Eram a _ => a.within 0xA000 0xBFFF
  | .wr8Vram a _ => a.within 0x8000 0x9FFF
  | .bcNone a _ => a.within 0x0000 0x0FFF
  | .bcRamen a _ => a.within 0x1000 0x1FFF
  | .bcRomsel a _ => a.within 0x2000 0x3FFF
  | .bcHisel a _ => a.within 0x4000 0x5FFF
  | .bcModesel a _ => a.within 0x6000 0x7FFF
  | .rd16 _ => true
  | .wr16 _ _ => true
  | .setbios _ => true
  | .reserved5 => true
  | .reserved6 => true
  | .reserved7 => true
  | .attachDisplay => true
  | .attachTimer => true
  | .attachIrq => true
  | .attachKbd => true
  | .construct rom _ _ => rom.wf

/-- The condition a row puts on the state: RD8.BIOS is selected only while the overlay is on, and RD8.ROM0 gets an
address of 0x0000 to 0x00FF only while it is off. No other row has one (R138, R127). -/
def Instr.selectable (inBios : Bool) : Instr → Bool
  | .rd8Bios _ => inBios
  | .rd8Rom0 a => !inBios || decide (0x0100 ≤ a.toNat)
  | .rd8IoFF00 => true
  | .rd8IoFF04 => true
  | .rd8IoFF05 => true
  | .rd8IoFF06 => true
  | .rd8IoFF07 => true
  | .rd8IoFF0F => true
  | .rd8IoFF40 => true
  | .rd8IoFF41 => true
  | .rd8IoFF42 => true
  | .rd8IoFF43 => true
  | .rd8IoFF44 => true
  | .rd8IoFF45 => true
  | .rd8IoFF46 => true
  | .rd8IoFF47 => true
  | .rd8IoFF48 => true
  | .rd8IoFF49 => true
  | .rd8IoFF50 => true
  | .rd8IoFFFF => true
  | .wr8IoFF00 _ => true
  | .wr8IoFF04 _ => true
  | .wr8IoFF05 _ => true
  | .wr8IoFF06 _ => true
  | .wr8IoFF07 _ => true
  | .wr8IoFF0F _ => true
  | .wr8IoFF40 _ => true
  | .wr8IoFF41 _ => true
  | .wr8IoFF42 _ => true
  | .wr8IoFF43 _ => true
  | .wr8IoFF44 _ => true
  | .wr8IoFF45 _ => true
  | .wr8IoFF46 _ => true
  | .wr8IoFF47 _ => true
  | .wr8IoFF48 _ => true
  | .wr8IoFF49 _ => true
  | .wr8IoFF50 _ => true
  | .wr8IoFFFF _ => true
  | .rd8Zp _ => true
  | .rd8IoUnimpl _ => true
  | .rd8UnmappedA _ => true
  | .rd8UnmappedB _ => true
  | .rd8Oam _ => true
  | .rd8Echo _ => true
  | .rd8Wram _ => true
  | .rd8Eram _ => true
  | .rd8Vram _ => true
  | .rd8Romx _ => true
  | .wr8Zp _ _ => true
  | .wr8IoUnimpl _ _ => true
  | .wr8UnmappedA _ _ => true
  | .wr8UnmappedB _ _ => true
  | .wr8Oam _ _ => true
  | .wr8Echo _ _ => true
  | .wr8Wram _ _ => true
  | .wr8Eram _ _ => true
  | .wr8Vram _ _ => true
  | .bcNone _ _ => true
  | .bcRamen _ _ => true
  | .bcRomsel _ _ => true
  | .bcHisel _ _ => true
  | .bcModesel _ _ => true
  | .rd16 _ => true
  | .wr16 _ _ => true
  | .setbios _ => true
  | .reserved5 => true
  | .reserved6 => true
  | .reserved7 => true
  | .attachDisplay => true
  | .attachTimer => true
  | .attachIrq => true
  | .attachKbd => true
  | .construct _ _ _ => true

end Sys2Proof
end

