-- ==== Sys2Proof/Decode.lean ====
section
/-! DEFINITION. The decoder and the encoder. Every request is one REQ word or one host operation (spec/30_encoding.md
R124). A REQ word selects the FIRST row of the table, in file order, whose fixed bits its KEY has (R138): KEY is
`op ++ addr`, REQ bits 34 to 16. -/

namespace Sys2Proof

/-- Why a port word is no request.
`malformedImage`: the operand of a CONSTRUCT is not the canonical form of any image, so it denotes none.
`noRow`: no row of the table has the word's fixed bits (no word is such: the rows cover every KEY). -/
inductive DecodeError where
  | malformedImage
  | noRow
  deriving DecidableEq, Repr

/-- REQ bits 34..32 (R120). -/
def reqOp (w : BitVec 35) : BitVec 3 := w.extractLsb' 32 3

/-- REQ bits 31..16 (R120). -/
def reqAddr (w : BitVec 35) : Addr := w.extractLsb' 16 16

/-- REQ bits 15..0 (R120). -/
def reqData (w : BitVec 35) : Word := w.extractLsb' 0 16

/-- The 19-bit key `op ++ addr` the table matches on (R138). -/
def reqKey (w : BitVec 35) : BitVec 19 := w.extractLsb' 16 19

/-- WR8's operand is `wdata[7:0]`, `wdata[15:8]` is ignored (R120). -/
def dataByte (d : Word) : Byte := d.extractLsb' 0 8

/-- SETBIOS's flag is `wdata[0]` (R120, R308). -/
def dataFlag (d : Word) : Bool := d.getLsbD 0

/-- A row of the table: KEY bits 18..`lo` are `value` (the row's `fixed` entry, that is its `match` under its
`mask`), `overlayOnly` is the condition `in_bios = true`, and `build` makes the instruction from addr and wdata. -/
structure Row where
  lo          : Nat
  value       : Nat
  overlayOnly : Bool
  build       : Addr → Word → Instr

/-- The key has the row's fixed bits, and the row's condition on `in_bios` holds. -/
def Row.selects (r : Row) (inBios : Bool) (key : BitVec 19) : Bool :=
  (key.toNat >>> r.lo == r.value) && (!r.overlayOnly || inBios)

/-- RD8 of the eighteen listed registers (R131, R230). -/
def exactReadRows : List Row := [
  ⟨0, 0xFF00, false, fun _ _ => .rd8IoFF00⟩,
  ⟨0, 0xFF04, false, fun _ _ => .rd8IoFF04⟩,
  ⟨0, 0xFF05, false, fun _ _ => .rd8IoFF05⟩,
  ⟨0, 0xFF06, false, fun _ _ => .rd8IoFF06⟩,
  ⟨0, 0xFF07, false, fun _ _ => .rd8IoFF07⟩,
  ⟨0, 0xFF0F, false, fun _ _ => .rd8IoFF0F⟩,
  ⟨0, 0xFF40, false, fun _ _ => .rd8IoFF40⟩,
  ⟨0, 0xFF41, false, fun _ _ => .rd8IoFF41⟩,
  ⟨0, 0xFF42, false, fun _ _ => .rd8IoFF42⟩,
  ⟨0, 0xFF43, false, fun _ _ => .rd8IoFF43⟩,
  ⟨0, 0xFF44, false, fun _ _ => .rd8IoFF44⟩,
  ⟨0, 0xFF45, false, fun _ _ => .rd8IoFF45⟩,
  ⟨0, 0xFF46, false, fun _ _ => .rd8IoFF46⟩,
  ⟨0, 0xFF47, false, fun _ _ => .rd8IoFF47⟩,
  ⟨0, 0xFF48, false, fun _ _ => .rd8IoFF48⟩,
  ⟨0, 0xFF49, false, fun _ _ => .rd8IoFF49⟩,
  ⟨0, 0xFF50, false, fun _ _ => .rd8IoFF50⟩,
  ⟨0, 0xFFFF, false, fun _ _ => .rd8IoFFFF⟩]

/-- WR8 of the eighteen listed registers (R131, R230). -/
def exactWriteRows : List Row := [
  ⟨0, 0x1FF00, false, fun _ d => .wr8IoFF00 (dataByte d)⟩,
  ⟨0, 0x1FF04, false, fun _ d => .wr8IoFF04 (dataByte d)⟩,
  ⟨0, 0x1FF05, false, fun _ d => .wr8IoFF05 (dataByte d)⟩,
  ⟨0, 0x1FF06, false, fun _ d => .wr8IoFF06 (dataByte d)⟩,
  ⟨0, 0x1FF07, false, fun _ d => .wr8IoFF07 (dataByte d)⟩,
  ⟨0, 0x1FF0F, false, fun _ d => .wr8IoFF0F (dataByte d)⟩,
  ⟨0, 0x1FF40, false, fun _ d => .wr8IoFF40 (dataByte d)⟩,
  ⟨0, 0x1FF41, false, fun _ d => .wr8IoFF41 (dataByte d)⟩,
  ⟨0, 0x1FF42, false, fun _ d => .wr8IoFF42 (dataByte d)⟩,
  ⟨0, 0x1FF43, false, fun _ d => .wr8IoFF43 (dataByte d)⟩,
  ⟨0, 0x1FF44, false, fun _ d => .wr8IoFF44 (dataByte d)⟩,
  ⟨0, 0x1FF45, false, fun _ d => .wr8IoFF45 (dataByte d)⟩,
  ⟨0, 0x1FF46, false, fun _ d => .wr8IoFF46 (dataByte d)⟩,
  ⟨0, 0x1FF47, false, fun _ d => .wr8IoFF47 (dataByte d)⟩,
  ⟨0, 0x1FF48, false, fun _ d => .wr8IoFF48 (dataByte d)⟩,
  ⟨0, 0x1FF49, false, fun _ d => .wr8IoFF49 (dataByte d)⟩,
  ⟨0, 0x1FF50, false, fun _ d => .wr8IoFF50 (dataByte d)⟩,
  ⟨0, 0x1FFFF, false, fun _ d => .wr8IoFFFF (dataByte d)⟩]

/-- RD8 by window, the high page first (R126, R138). -/
def windowReadRows : List Row := [
  ⟨7, 0x1FF, false, fun a _ => .rd8Zp a⟩,
  ⟨7, 0x1FE, false, fun a _ => .rd8IoUnimpl a⟩,
  ⟨5, 0x7F5, false, fun a _ => .rd8UnmappedA a⟩,
  ⟨6, 0x3FB, false, fun a _ => .rd8UnmappedB a⟩,
  ⟨8, 0xFE, false, fun a _ => .rd8Oam a⟩,
  ⟨13, 0x7, false, fun a _ => .rd8Echo a⟩,
  ⟨13, 0x6, false, fun a _ => .rd8Wram a⟩,
  ⟨13, 0x5, false, fun a _ => .rd8Eram a⟩,
  ⟨13, 0x4, false, fun a _ => .rd8Vram a⟩,
  ⟨8, 0x0, true, fun a _ => .rd8Bios a⟩,
  ⟨14, 0x0, false, fun a _ => .rd8Rom0 a⟩,
  ⟨14, 0x1, false, fun a _ => .rd8Romx a⟩]

/-- WR8 by window, the high page first (R126, R138). -/
def windowWriteRows : List Row := [
  ⟨7, 0x3FF, false, fun a d => .wr8Zp a (dataByte d)⟩,
  ⟨7, 0x3FE, false, fun a d => .wr8IoUnimpl a (dataByte d)⟩,
  ⟨5, 0xFF5, false, fun a d => .wr8UnmappedA a (dataByte d)⟩,
  ⟨6, 0x7FB, false, fun a d => .wr8UnmappedB a (dataByte d)⟩,
  ⟨8, 0x1FE, false, fun a d => .wr8Oam a (dataByte d)⟩,
  ⟨13, 0xF, false, fun a d => .wr8Echo a (dataByte d)⟩,
  ⟨13, 0xE, false, fun a d => .wr8Wram a (dataByte d)⟩,
  ⟨13, 0xD, false, fun a d => .wr8Eram a (dataByte d)⟩,
  ⟨13, 0xC, false, fun a d => .wr8Vram a (dataByte d)⟩]

/-- WR8 to 0x0000 to 0x7FFF, the Bank Controller commands (R128, R138). -/
def bankCommandRows : List Row := [
  ⟨12, 0x10, false, fun a d => .bcNone a (dataByte d)⟩,
  ⟨12, 0x11, false, fun a d => .bcRamen a (dataByte d)⟩,
  ⟨13, 0x9, false, fun a d => .bcRomsel a (dataByte d)⟩,
  ⟨13, 0xA, false, fun a d => .bcHisel a (dataByte d)⟩,
  ⟨13, 0xB, false, fun a d => .bcModesel a (dataByte d)⟩]

/-- The other op codes (R121). -/
def wideRows : List Row := [
  ⟨16, 0x2, false, fun a _ => .rd16 a⟩,
  ⟨16, 0x3, false, fun a d => .wr16 a d⟩,
  ⟨16, 0x4, false, fun _ d => .setbios (dataFlag d)⟩,
  ⟨16, 0x5, false, fun _ _ => .reserved5⟩,
  ⟨16, 0x6, false, fun _ _ => .reserved6⟩,
  ⟨16, 0x7, false, fun _ _ => .reserved7⟩]

/-- The REQ rows of spec/opcode_table.json, in file order. -/
def reqTable : List Row :=
  exactReadRows ++ exactWriteRows ++ windowReadRows ++ windowWriteRows ++ bankCommandRows ++ wideRows

/-- The instruction of a REQ word while the overlay latch is `inBios`: its first row (R138). -/
def decodeReq (inBios : Bool) (w : BitVec 35) : Except DecodeError Instr :=
  match reqTable.find? (·.selects inBios (reqKey w)) with
  | some r => .ok (r.build (reqAddr w) (reqData w))
  | none => .error .noRow

/-- The ATTACH selector of the host port (R123). -/
def decodeHost (hop : BitVec 2) : Instr :=
  match hop.toNat with
  | 0 => .attachDisplay
  | 1 => .attachTimer
  | 2 => .attachIrq
  | _ => .attachKbd

/-- The instruction a port word is. `inBios` is the overlay latch, the one piece of state the selection of a row
needs (R138). -/
def decode (inBios : Bool) : PortWord → Except DecodeError Instr
  | .req w => decodeReq inBios w
  | .host hop => .ok (decodeHost hop)
  | .construct rom mbcCode ramCode => if rom.wf then .ok (.construct rom mbcCode ramCode) else .error .malformedImage

/-! ## The encoder -/

/-- A REQ word from its three fields (R120). -/
def reqWord (op : BitVec 3) (a : Addr) (d : Word) : BitVec 35 := op ++ a ++ d

/-- The runtime-port word of the two byte transactions; ignored bits are written as 0 (R120, R121). -/
def rd8Word (a : Addr) : PortWord := .req (reqWord 0 a 0)

/-- See `rd8Word`: op 001, `wdata[7:0]` the byte (R120, R121). -/
def wr8Word (a : Addr) (v : Byte) : PortWord := .req (reqWord 1 a (v.setWidth 16))

/-- The port word of an instruction, ignored bits 0 (R120, R121, R123). -/
def encode : Instr → PortWord
  | .rd8IoFF00 => rd8Word 0xFF00
  | .rd8IoFF04 => rd8Word 0xFF04
  | .rd8IoFF05 => rd8Word 0xFF05
  | .rd8IoFF06 => rd8Word 0xFF06
  | .rd8IoFF07 => rd8Word 0xFF07
  | .rd8IoFF0F => rd8Word 0xFF0F
  | .rd8IoFF40 => rd8Word 0xFF40
  | .rd8IoFF41 => rd8Word 0xFF41
  | .rd8IoFF42 => rd8Word 0xFF42
  | .rd8IoFF43 => rd8Word 0xFF43
  | .rd8IoFF44 => rd8Word 0xFF44
  | .rd8IoFF45 => rd8Word 0xFF45
  | .rd8IoFF46 => rd8Word 0xFF46
  | .rd8IoFF47 => rd8Word 0xFF47
  | .rd8IoFF48 => rd8Word 0xFF48
  | .rd8IoFF49 => rd8Word 0xFF49
  | .rd8IoFF50 => rd8Word 0xFF50
  | .rd8IoFFFF => rd8Word 0xFFFF
  | .wr8IoFF00 v => wr8Word 0xFF00 v
  | .wr8IoFF04 v => wr8Word 0xFF04 v
  | .wr8IoFF05 v => wr8Word 0xFF05 v
  | .wr8IoFF06 v => wr8Word 0xFF06 v
  | .wr8IoFF07 v => wr8Word 0xFF07 v
  | .wr8IoFF0F v => wr8Word 0xFF0F v
  | .wr8IoFF40 v => wr8Word 0xFF40 v
  | .wr8IoFF41 v => wr8Word 0xFF41 v
  | .wr8IoFF42 v => wr8Word 0xFF42 v
  | .wr8IoFF43 v => wr8Word 0xFF43 v
  | .wr8IoFF44 v => wr8Word 0xFF44 v
  | .wr8IoFF45 v => wr8Word 0xFF45 v
  | .wr8IoFF46 v => wr8Word 0xFF46 v
  | .wr8IoFF47 v => wr8Word 0xFF47 v
  | .wr8IoFF48 v => wr8Word 0xFF48 v
  | .wr8IoFF49 v => wr8Word 0xFF49 v
  | .wr8IoFF50 v => wr8Word 0xFF50 v
  | .wr8IoFFFF v => wr8Word 0xFFFF v
  | .rd8Zp a => rd8Word a
  | .rd8IoUnimpl a => rd8Word a
  | .rd8UnmappedA a => rd8Word a
  | .rd8UnmappedB a => rd8Word a
  | .rd8Oam a => rd8Word a
  | .rd8Echo a => rd8Word a
  | .rd8Wram a => rd8Word a
  | .rd8Eram a => rd8Word a
  | .rd8Vram a => rd8Word a
  | .rd8Bios a => rd8Word a
  | .rd8Rom0 a => rd8Word a
  | .rd8Romx a => rd8Word a
  | .wr8Zp a v => wr8Word a v
  | .wr8IoUnimpl a v => wr8Word a v
  | .wr8UnmappedA a v => wr8Word a v
  | .wr8UnmappedB a v => wr8Word a v
  | .wr8Oam a v => wr8Word a v
  | .wr8Echo a v => wr8Word a v
  | .wr8Wram a v => wr8Word a v
  | .wr8Eram a v => wr8Word a v
  | .wr8Vram a v => wr8Word a v
  | .bcNone a v => wr8Word a v
  | .bcRamen a v => wr8Word a v
  | .bcRomsel a v => wr8Word a v
  | .bcHisel a v => wr8Word a v
  | .bcModesel a v => wr8Word a v
  | .rd16 a => .req (reqWord 2 a 0)
  | .wr16 a w => .req (reqWord 3 a w)
  | .setbios flag => .req (reqWord 4 0 (if flag then 1 else 0))
  | .reserved5 => .req (reqWord 5 0 0)
  | .reserved6 => .req (reqWord 6 0 0)
  | .reserved7 => .req (reqWord 7 0 0)
  | .attachDisplay => .host 0
  | .attachTimer => .host 1
  | .attachIrq => .host 2
  | .attachKbd => .host 3
  | .construct rom mbcCode ramCode => .construct rom mbcCode ramCode

/-! ## The table's own numbering of a word -/

/-- The port word that a word of the table's numbering stands for. The table numbers the 19 bits of KEY, bit 0 the
lowest; KEY is REQ bits 34..16 and the bits the table gives no number, wdata, are 0 (R138). The HOST rows have no
key bits: a word of at most 8 bits is read as the host port's 2-bit selector (R123). -/
def tablePortWord (nbits w : Nat) : Option PortWord :=
  if 19 ≤ nbits then
    if w < 2 ^ 19 then some (.req (BitVec.ofNat 35 (w * 2 ^ 16))) else none
  else if nbits ≤ 8 then
    if w < 4 then some (.host (BitVec.ofNat 2 w)) else none
  else none

/-- What the decoder reads from a word of the table's numbering with the overlay on, as it is after reset (R52); none
where the word is no request. -/
def decodeTableWord (nbits w : Nat) : Option Instr :=
  match tablePortWord nbits w with
  | some p => (decode true p).toOption
  | none => none

end Sys2Proof
end

