-- ==== Sys2Proof/Machine/Fetch.lean ====
section
/-! DEFINITION. How the block gets its next request: the requester, the host and the owners are one thread of control
(spec/00_scope.md R11), and what they do next is the head of `State.pending`. -/

namespace Sys2Proof.Machine

/-- The condition the selection of a row needs: `in_bios = true` (R138). It holds of no block without an instance. -/
def State.overlay (s : State) : Bool :=
  match s.session with
  | some b => b.inBios
  | none => false

/-- The state once the pending input has been taken; `rest` is still to come. -/
def State.taken (s : State) (rest : List Input) : State := { s with pending := rest }

/-- The state in which `w` is the next request. -/
def State.requestFirst (s : State) (w : PortWord) : State := { s with pending := .port w :: s.pending }

/-- The refusal of a port word that is no request. -/
def refusalOf : DecodeError → Refusal
  | .malformedImage => .malformedImage
  | .noRow => .noRow

end Sys2Proof.Machine
end

