-- ==== Sys2Proof/Machine/Step.lean ====
section
/-! DEFINITION. One step: one transaction, or one owner step between two transactions (spec/00_scope.md R12,
spec/10_state.md R46). With no input pending the block is idle and nothing changes. -/

namespace Sys2Proof.Machine

/-- One step of the machine. -/
def step (s : State) : Host.Outcome State Fault Refusal :=
  match s.pending with
  | [] => .next s
  | .owner x v :: rest => .next ((s.taken rest).ownerStep x v)
  | .port w :: rest =>
    match decode s.overlay w with
    | .ok i => exec i (s.taken rest)
    | .error e => .refused (refusalOf e)

/-- `s` with the request of a word of the table's numbering put first at its port, so that the next step runs it. A
word that is no request changes nothing. -/
def State.withFetchWord (s : State) (nbits w : Nat) : State :=
  match tablePortWord nbits w with
  | some p => s.requestFirst p
  | none => s

end Sys2Proof.Machine
end

