-- ==== Sys2Proof/Machine/Cost.lean ====
section
/-! DEFINITION. The one step count the spec supports, read off a request's word: the number of byte accesses of its
transaction where that completes (spec/70_reset_and_hazards.md R392). The transaction's own accesses are counted where they
are made, in `Run.accesses` and `Reads.accesses` (Ops.lean). The count is no duration; the model has no time (R390). -/

namespace Sys2Proof.Machine

/-- A copy's 160 reads and 160 writes (R281). -/
def copyAccesses : Nat := 2 * dmaLength

/-- Byte accesses of a WR8 at `a`: the write itself, and a copy where it lands on the trigger (R392). -/
def writeAccesses (a : Addr) : Nat := if a = 0xFF46 then 1 + copyAccesses else 1

/-- Byte accesses of a port word's transaction that completes (R392); none for an operation that is no access. -/
def byteAccesses : PortWord → Nat
  | .req w =>
    match (reqOp w).toNat with
    | 0 => 1
    | 1 => writeAccesses (reqAddr w)
    | 2 => 2
    | 3 => writeAccesses (reqAddr w) + writeAccesses (nextAddr (reqAddr w))
    | _ => 0
  | .host _ => 0
  | .construct _ _ _ => 0

end Sys2Proof.Machine
end

