-- ==== Sys2Proof/Safety.lean ====
section
/-! DEFINITION. What a safe run is, in the terms statements use: the invariant that every step keeps
(spec/10_state.md R48, R49, and the canonical form of every buffer), a live block, the next states of a transaction
written out, the place an address names, and the explicit script a DMA copy equals (spec/43_dma.md R287). -/

namespace Sys2Proof.Machine

/-- The borrowed buffers are canonical arrays of their sizes (R38, R39). -/
def ownersLegal (o : Owners) : Bool := o.lcd.vram.fits 8192 && o.lcd.oam.fits 160

/-- Every mode is selected by some code: the range of `MBC_CODE_MAP` is all four (R301). -/
def modesCovered (cfg : Config) : Bool :=
  [Mode.romOnly, Mode.mbc1, Mode.mbc1Ram, Mode.mbc2].all fun m =>
    cfg.mbcCodeMap.any fun p => modeOfCode cfg p.1 == some m

/-- The parameters have the shapes R10 gives them. -/
def configLegal (cfg : Config) : Bool :=
  cfg.biosImage.fits 256 && cfg.initWram.fits 8192 && cfg.initZp.fits 128 && cfg.initEram.fits 8192 &&
  ownersLegal cfg.initOwners && modesCovered cfg

/-- The derived ROM bank number (R37). -/
def romBank (c : Bank) : Nat := c.romBankOffset.toNat / 0x4000

/-- R48 (a) and R49: the offset is a bank number times 0x4000, the number 1 to 127 with its low five bits not zero. -/
def romBankLegal (c : Bank) : Bool :=
  decide (c.romBankOffset.toNat % 0x4000 = 0) && decide (1 ≤ romBank c) && decide (romBank c ≤ 127) &&
  decide (romBank c % 32 ≠ 0)

/-- R48 (b). -/
def ramBankLegal (c : Bank) : Bool := [0, 0x2000, 0x4000, 0x6000].contains c.ramBankOffset.toNat

/-- R48 (g). -/
def romOnlyFrozen (c : Bank) : Bool := c.mode != .romOnly || c == Bank.reset .romOnly

/-- The invariant of an instance: its constant state is that of its construction (R48 c, of the overlay image), its
registers have legal values, its buffers are canonical arrays of their sizes. -/
def busLegal (cfg : Config) (b : Bus) : Bool :=
  b.bios == cfg.biosImage && b.rom.wf && romBankLegal b.bc && ramBankLegal b.bc && romOnlyFrozen b.bc &&
  b.wram.fits 8192 && b.eram.fits b.ramSize.bytes && b.zp.fits 128 && ownersLegal b.own

/-- A cause of construction (1, 2) is latched only without an instance, a cause of an access (3, 4) only with one
(R303, R320). -/
def latchLegal (s : State) : Bool :=
  match s.fatal with
  | none => true
  | some c => if c.code ≤ 2 then s.session.isNone else s.session.isSome

/-- The invariant of the machine. -/
def State.legal (s : State) : Bool := configLegal s.cfg && s.session.all (busLegal s.cfg) && latchLegal s

/-- The block has an instance and is not in the fatal state: a request is admitted (R160). -/
def State.live (s : State) (b : Bus) : Prop := s.fatal = none ∧ s.session = some b

/-- All four owners are wired: the prologue a session requires (R306). -/
def fullyWired (b : Bus) : Bool := b.wired.display && b.wired.timer && b.wired.irq && b.wired.kbd

/-! ## The next states of a transaction, written out -/

/-- A read that ended `ok`: the word returned, and no state but the response changed (R122, R92). -/
def State.readOk (s : State) (d : Word) (events : List Event) : State :=
  { s with rsp := some { outcome := .ok, rdata := some d, events := events } }

/-- Any other transaction that ended `ok`, leaving the instance `b`. -/
def State.writeOk (s : State) (b : Bus) (events : List Event) : State :=
  { s with session := some b, rsp := some { outcome := .ok, rdata := none, events := events } }

/-- A refusal that leaves the instance `b`: the one before, or the one the bytes already done left (R324). -/
def State.refusedIn (s : State) (b : Bus) (x : Reason) (events : List Event) : State :=
  { s with session := some b, rsp := some { outcome := .refuse x, rdata := none, events := events } }

/-- The fatal state entered with cause `c`, leaving the instance `b` (R330). -/
def State.fatalIn (s : State) (b : Bus) (c : Cause) (events : List Event) : State :=
  { s with session := some b, fatal := some c, rsp := some { outcome := .fatal c, rdata := none, events := events } }

/-- The transaction ended at an access that was not made, leaving the instance `b`. -/
def State.stoppedIn (s : State) (b : Bus) (x : Stop) (events : List Event) : State :=
  match x with
  | .fatal c => s.fatalIn b c events
  | .refuse r => s.refusedIn b r events

end Sys2Proof.Machine

namespace Sys2Proof

/-! ## What an instruction and an address name -/

/-- The address of the byte an RD8 reads (R120, R121). -/
def Instr.readAt (i : Instr) : Option Addr :=
  match encode i with
  | .req w => if reqOp w = 0 then some (reqAddr w) else none
  | .host _ => none
  | .construct _ _ _ => none

/-- The addresses of the byte writes a WR8 or WR16 makes, in order; a copy's own writes are not among them (R120,
R187). -/
def Instr.writesAt (i : Instr) : List Addr :=
  match encode i with
  | .req w =>
    if reqOp w = 1 then [reqAddr w] else if reqOp w = 3 then [reqAddr w, Machine.nextAddr (reqAddr w)] else []
  | .host _ => []
  | .construct _ _ _ => []

/-- An RD8 or an RD16 (R121). -/
def Instr.isRead (i : Instr) : Bool :=
  match encode i with
  | .req w => reqOp w == 0 || reqOp w == 2
  | .host _ => false
  | .construct _ _ _ => false

/-- A CONSTRUCT. -/
def Instr.isConstruct (i : Instr) : Bool :=
  match encode i with
  | .req _ => false
  | .host _ => false
  | .construct _ _ _ => true

end Sys2Proof

namespace Sys2Proof.Machine

/-- A byte of storage, under whatever address it is reached. -/
inductive Place where
  | bios (i : Nat)
  | rom (i : Nat)
  | vram (i : Nat)
  | eram (i : Nat)
  | wram (i : Nat)
  | oam (i : Nat)
  | zp (i : Nat)
  | cell (c : RegCell)
  | latch
  deriving DecidableEq, Repr

/-- The byte of storage an address reads: the index column of the address map (R70), the register of an I/O address
(R230). None for an address that reads a constant. -/
def placeOf (b : Bus) (a : Addr) : Option Place :=
  match windowOf a with
  | .rom0 => some (if a.toNat ≤ 0x00FF ∧ b.inBios = true then .bios a.toNat else .rom a.toNat)
  | .romx => some (.rom (b.bc.romBankOffset.toNat + (a.toNat - 0x4000)))
  | .vram => some (.vram (a.toNat - 0x8000))
  | .eram => some (.eram (b.bc.ramBankOffset.toNat + (a.toNat - 0xA000)))
  | .wram => some (.wram (a.toNat - 0xC000))
  | .echo => some (.wram (a.toNat - 0xE000))
  | .oam => some (.oam (a.toNat - 0xFE00))
  | .unmapped => none
  | .zp => some (.zp (a.toNat - 0xFF80))
  | .io | .ie =>
    match ioRegOf a with
    | some (.cell c) => some (.cell c)
    | some .biosLatch => some .latch
    | some .dmaTrigger => none
    | none => none

/-- The address is plain storage (R187): W6, W7, W9; W5 when enabled and in range; W4, W8 with the display wired. -/
def plainStorage (b : Bus) (a : Addr) : Bool :=
  match windowOf a with
  | .wram | .echo | .zp => true
  | .vram | .oam => b.wired.display
  | .eram =>
    (b.bc.mode == .romOnly || b.bc.ramEnabled) && decide (b.bc.ramBankOffset.toNat + (a.toNat - 0xA000) < b.ramSize.bytes)
  | .rom0 | .romx | .unmapped | .io | .ie => false

/-- One byte of what an owner holds. -/
def ownerByte (o : Owners) : OwnerByte → Byte
  | .cell c => ownerGet o c
  | .vram i => o.lcd.vram.read i.val
  | .oam i => o.lcd.oam.read i.val

/-- `o'` is `o` with the byte `x` made `v` and every other byte the owners hold as it was. -/
def changedAt (o o' : Owners) (x : OwnerByte) (v : Byte) : Prop :=
  ∀ y, ownerByte o' y = if y = x then v else ownerByte o y

/-! ## The explicit script of a DMA copy (R287) -/

/-- The state after one request, made as the next step. -/
def State.request (s : State) (w : PortWord) : State :=
  match step (s.requestFirst w) with
  | .next t => t
  | .fault _ => s
  | .refused _ => s

/-- `n` lines of the script from line `i` on: `RD8 (page << 8) + i -> b; WR8 0xFE00 + i, b`. It ends at the first
request that does not end `ok`. Answers the last state and the events of all its requests in order. -/
def copyScript (page : Byte) : Nat → Nat → State → List Event → State × List Event
  | 0, _, s, log => (s, log)
  | n + 1, i, s, log =>
    let t := s.request (rd8Word (dmaSource page i))
    match t.rsp with
    | some { outcome := .ok, rdata := some d, events := e } =>
      let u := t.request (wr8Word (dmaDest i) (lowByte d))
      match u.rsp with
      | some { outcome := .ok, rdata := _, events := e' } => copyScript page n (i + 1) u (log ++ e ++ e')
      | some { outcome := .fatal _, rdata := _, events := e' } => (u, log ++ e ++ e')
      | some { outcome := .refuse _, rdata := _, events := e' } => (u, log ++ e ++ e')
      | none => (u, log ++ e)
    | some { outcome := .ok, rdata := none, events := e } => (t, log ++ e)
    | some { outcome := .fatal _, rdata := _, events := e } => (t, log ++ e)
    | some { outcome := .refuse _, rdata := _, events := e } => (t, log ++ e)
    | none => (t, log)

end Sys2Proof.Machine
end

