-- ==== Sys2Proof/Certificates/Slice0/Obligations.lean ====
section
/-! DEFINITION. The statements for the provers, each from the rules of spec/ its docstring names. A statement over
every state holds for every value of the open parameters in `State.cfg` (R10). Where a statement rests on a choice the
spec marks as its own decision, or on a log entry, its docstring says so. -/

section Statements

open Sys2Proof Sys2Proof.Machine

/-! ## Encoding (spec/30_encoding.md) -/

/-- R120, R123, R138 (decision D1): the decoder reads every well-formed instruction back from its own word, with every
operand, whatever the overlay latch, wherever its row may be selected. -/
def Obligations.DecodeReadsBackEveryInstruction : Prop :=
  ∀ (i : Instr) (inBios : Bool), i.wf = true → i.selectable inBios = true → decode inBios (encode i) = .ok i

/-- R138, R325 item 4 (decision D1): every REQ word is some well-formed instruction, of a row that may be selected. -/
def Obligations.EveryRequestWordDecodes : Prop :=
  ∀ (inBios : Bool) (w : BitVec 35),
    ∃ i, decode inBios (.req w) = .ok i ∧ i.wf = true ∧ i.selectable inBios = true

/-- R120 (decision D1): the bits the format calls ignored do not change the instruction. They are the address of op
codes 4 to 7, and of the data all bits but `wdata[7:0]` for WR8, `wdata[15:0]` for WR16, `wdata[0]` for SETBIOS. -/
def Obligations.IgnoredBitsDoNotMatter : Prop :=
  ∀ (inBios : Bool) (w w' : BitVec 35), reqOp w = reqOp w' → (reqOp w < 4 → reqAddr w = reqAddr w') →
    (reqOp w = 1 → (reqData w).toNat % 256 = (reqData w').toNat % 256) → (reqOp w = 3 → reqData w = reqData w') →
    (reqOp w = 4 → (reqData w).toNat % 2 = (reqData w').toNat % 2) →
    decode inBios (.req w) = decode inBios (.req w')

/-- R120, R121, R123, R126, R131: words written out from the format, as in spec/95_test_vectors.md, decode to the
instructions they stand for. -/
def Obligations.SpecWordsDecode : Prop :=
  decode true (.req 0x0FF040000) = .ok .rd8IoFF04 ∧ decode true (.req 0x1FF500001) = .ok (.wr8IoFF50 0x01) ∧
  decode true (.req 0x000FF0000) = .ok (.rd8Bios 0x00FF) ∧ decode false (.req 0x000FF0000) = .ok (.rd8Rom0 0x00FF) ∧
  decode true (.req 0x001000000) = .ok (.rd8Rom0 0x0100) ∧ decode true (.req 0x07FFF0000) = .ok (.rd8Romx 0x7FFF) ∧
  decode true (.req 0x0FFFE0000) = .ok (.rd8Zp 0xFFFE) ∧ decode true (.req 0x0FFFF0000) = .ok .rd8IoFFFF ∧
  decode true (.req 0x1FDFF0099) = .ok (.wr8Echo 0xFDFF 0x99) ∧ decode true (.req 0x1FEA00055) = .ok (.wr8UnmappedA 0xFEA0 0x55) ∧
  decode true (.req 0x10FFF000A) = .ok (.bcNone 0x0FFF 0x0A) ∧ decode true (.req 0x13FFF001F) = .ok (.bcRomsel 0x3FFF 0x1F) ∧
  decode true (.req 0x2FF0F0000) = .ok (.rd16 0xFF0F) ∧ decode true (.req 0x3C000BEEF) = .ok (.wr16 0xC000 0xBEEF) ∧
  decode true (.req 0x400000001) = .ok (.setbios true) ∧ decode true (.req 0x7FFFFFFFF) = .ok .reserved7 ∧
  decode true (.host 2) = .ok .attachIrq

/-! ## The step (spec/00_scope.md R11, R12; spec/10_state.md R46) -/

/-- R12: when the pending port word decodes to `i`, the step is `exec i` once the word has been taken. -/
def Obligations.StepRunsTheDecodedInstruction : Prop :=
  ∀ (s : State) (w : PortWord) (rest : List Input) (i : Instr),
    s.pending = .port w :: rest → decode s.overlay w = .ok i → step s = exec i { s with pending := rest }

/-- The model's own (notes/assumptions/14.md): a step never faults, and it is refused exactly where the operand of a
pending CONSTRUCT is the canonical form of no image. -/
def Obligations.StepStopsOnlyAtAMalformedImage : Prop :=
  ∀ s : State, (∀ f, step s ≠ .fault f) ∧
    ((∃ x, step s = .refused x) ↔
      ∃ rom m r rest, s.pending = .port (.construct rom m r) :: rest ∧ rom.wf = false)

/-- R46 (decision D18): an owner step makes one byte of the owners `v`, leaves every other byte of theirs, and changes
nothing else of the block. That a step changes one byte, and that owners act in the fatal state too, is the model's
(notes/assumptions/8.md). -/
def Obligations.OwnerStepChangesOneByte : Prop :=
  ∀ (s : State) (b : Bus) (x : OwnerByte) (v : Byte) (rest : List Input),
    s.pending = .owner x v :: rest → s.session = some b → ownersLegal b.own = true →
    ∃ o, step s = .next { s with pending := rest, session := some { b with own := o } } ∧ changedAt b.own o x v

/-- The model's own (notes/assumptions/8.md and 13.md): with nothing pending a step changes nothing, and an owner step
while no instance exists only passes. -/
def Obligations.IdleStepChangesNothing : Prop :=
  ∀ s : State, (s.pending = [] → step s = .next s) ∧
    ∀ x v rest, s.pending = .owner x v :: rest → s.session = none → step s = .next { s with pending := rest }

/-! ## Admission, the fatal state, reserved requests (spec/60_exceptions.md) -/

/-- R330, R160 (decision D22): in the fatal state every request but CONSTRUCT is refused `AfterFatal` and changes
nothing. -/
def Obligations.AfterFatalEveryRequestIsRefused : Prop :=
  ∀ (i : Instr) (s : State) (c : Cause), s.fatal = some c → i.isConstruct = false →
    exec i s = .next { s with rsp := some { outcome := .refuse .afterFatal, rdata := none, events := [] } }

/-- R160 (decisions D22, D29): before the first CONSTRUCT every other request is refused `NotConstructed`. -/
def Obligations.BeforeConstructEveryRequestIsRefused : Prop :=
  ∀ (i : Instr) (s : State), s.fatal = none → s.session = none → i.isConstruct = false →
    exec i s = .next { s with rsp := some { outcome := .refuse .notConstructed, rdata := none, events := [] } }

/-- R331, R300 (decision D22, notes/assumptions/32.md): an instruction in the fatal state leaves the latch and the session
as they were, or it is a CONSTRUCT, whose session, latch and response do not depend on the old session, latch or response.
That the owners' bytes after it do not depend on the old ones either is the model's (notes/assumptions/9.md). -/
def Obligations.FatalStateLeftOnlyByConstruct : Prop :=
  ∀ (i : Instr) (s t : State) (c : Cause), s.fatal = some c → exec i s = .next t →
    (t.fatal = some c ∧ t.session = s.session) ∨
    (i.isConstruct = true ∧ ∀ (b : Option Bus) (f : Option Cause) (r : Option Response),
      exec i { s with session := b, fatal := f, rsp := r } = .next t)

/-- R320, R321 (decisions D9, D10, D22): which instructions can latch which cause. Causes 1 and 2 only a CONSTRUCT;
causes 3 and 4 only a byte of 0xA000 to 0xBFFF read or written, or a copy from a page 0xA0 to 0xBF. -/
def Obligations.OnlyTheFourFatalConditions : Prop :=
  ∀ (i : Instr) (s t : State) (c : Cause), i.wf = true → s.fatal = none → exec i s = .next t → t.fatal = some c →
    (i.isConstruct = true ∧ c.code ≤ 2) ∨
    (i.isConstruct = false ∧ 3 ≤ c.code ∧
      ((∃ a, (i.readAt = some a ∨ i = .rd16 a ∨ (i = .rd16 (a - 1) ∧ a ≠ 0) ∨ a ∈ i.writesAt) ∧
          0xA000 ≤ a.toNat ∧ a.toNat ≤ 0xBFFF) ∨
       (0xFF46 ∈ i.writesAt ∧ ∃ page : Byte, 0xA0 ≤ page.toNat ∧ page.toNat ≤ 0xBF ∧
          (i = .wr8IoFF46 page ∨ (∃ a w, i = .wr16 a w ∧ (page = lowByte w ∨ page = highByte w))))))

/-- R121, R325 (decisions D1, D30): the three reserved op codes are refused `ReservedOp` on a live block; nothing else
changes. -/
def Obligations.ReservedOpsAreRefused : Prop :=
  ∀ (s : State) (b : Bus), s.live b →
    exec .reserved5 s = .next (s.refusedIn b .reservedOp []) ∧ exec .reserved6 s = .next (s.refusedIn b .reservedOp []) ∧
    exec .reserved7 s = .next (s.refusedIn b .reservedOp [])

/-! ## Reads (spec/40_bus_access.md section 2, spec/42_io_router.md) -/

/-- R164: while the overlay is on, 0x0000 to 0x00FF read its bytes. -/
def Obligations.OverlayReads : Prop :=
  ∀ (s : State) (b : Bus) (a : Addr), s.live b → a.toNat ≤ 0x00FF → b.inBios = true →
    exec (.rd8Bios a) s = .next (s.readOk ((b.bios.read a.toNat).setWidth 16) [])

/-- R165, R166, R162 (decision D11 for the refusal): the cartridge windows read the image at `addr` and at
`bc.rom_bank_offset + (addr - 0x4000)`, and are refused beyond its end. -/
def Obligations.CartridgeReads : Prop :=
  ∀ (s : State) (b : Bus) (a : Addr), s.live b →
    (a.toNat ≤ 0x3FFF → (b.inBios = true → 0x0100 ≤ a.toNat) →
      exec (.rd8Rom0 a) s = .next (if a.toNat < b.rom.len then s.readOk ((b.rom.bytes.read a.toNat).setWidth 16) []
        else s.refusedIn b .romIndexOutOfRange [])) ∧
    (0x4000 ≤ a.toNat → a.toNat ≤ 0x7FFF →
      exec (.rd8Romx a) s = .next (if b.bc.romBankOffset.toNat + (a.toNat - 0x4000) < b.rom.len then
          s.readOk ((b.rom.bytes.read (b.bc.romBankOffset.toNat + (a.toNat - 0x4000))).setWidth 16) []
        else s.refusedIn b .romIndexOutOfRange []))

/-- R169, R170, R173: working RAM through both windows and the zero page read their byte. -/
def Obligations.WorkingRamAndZeroPageReads : Prop :=
  ∀ (s : State) (b : Bus) (a : Addr), s.live b →
    (0xC000 ≤ a.toNat → a.toNat ≤ 0xDFFF →
      exec (.rd8Wram a) s = .next (s.readOk ((b.wram.read (a.toNat - 0xC000)).setWidth 16) [])) ∧
    (0xE000 ≤ a.toNat → a.toNat ≤ 0xFDFF →
      exec (.rd8Echo a) s = .next (s.readOk ((b.wram.read (a.toNat - 0xE000)).setWidth 16) []) ∧
      exec (.rd8Wram (a - 0x2000)) s = exec (.rd8Echo a) s) ∧
    (0xFF80 ≤ a.toNat → a.toNat ≤ 0xFFFE →
      exec (.rd8Zp a) s = .next (s.readOk ((b.zp.read (a.toNat - 0xFF80)).setWidth 16) []))

/-- R167, R171 (decision D29 for the refusal): video RAM and OAM read the display's byte, or are refused `Unwired`. -/
def Obligations.DisplayBufferReads : Prop :=
  ∀ (s : State) (b : Bus) (a : Addr), s.live b →
    (0x8000 ≤ a.toNat → a.toNat ≤ 0x9FFF →
      exec (.rd8Vram a) s = .next (if b.wired.display = true then
          s.readOk ((b.own.lcd.vram.read (a.toNat - 0x8000)).setWidth 16) [] else s.refusedIn b .unwired [])) ∧
    (0xFE00 ≤ a.toNat → a.toNat ≤ 0xFE9F →
      exec (.rd8Oam a) s = .next (if b.wired.display = true then
          s.readOk ((b.own.lcd.oam.read (a.toNat - 0xFE00)).setWidth 16) [] else s.refusedIn b .unwired []))

/-- R168, R321, R330 (decisions D8, D9, D10, D22): an external-RAM read is made at
`bc.ram_bank_offset + (addr - 0xA000)` in every mode, whatever the enable, or it enters the fatal state: the cause is
latched, nothing else changes. -/
def Obligations.ExternalRamReads : Prop :=
  ∀ (s : State) (b : Bus) (a : Addr), s.live b → 0xA000 ≤ a.toNat → a.toNat ≤ 0xBFFF →
    exec (.rd8Eram a) s = .next (
      if b.ramSize.bytes = 0 then s.fatalIn b .eramNotConfigured []
      else if b.ramSize.bytes ≤ b.bc.ramBankOffset.toNat + (a.toNat - 0xA000) then s.fatalIn b .eramOutOfRange []
      else s.readOk ((b.eram.read (b.bc.ramBankOffset.toNat + (a.toNat - 0xA000))).setWidth 16) [])

/-- R172, R182 (decision D12): the unmapped area reads 0, ignores writes, emits nothing and needs no owner. -/
def Obligations.UnmappedAreaIsInert : Prop :=
  ∀ (s : State) (b : Bus) (a : Addr) (v : Byte), s.live b →
    (0xFEA0 ≤ a.toNat → a.toNat ≤ 0xFEBF →
      exec (.rd8UnmappedA a) s = .next (s.readOk 0 []) ∧ exec (.wr8UnmappedA a v) s = .next (s.writeOk b [])) ∧
    (0xFEC0 ≤ a.toNat → a.toNat ≤ 0xFEFF →
      exec (.rd8UnmappedB a) s = .next (s.readOk 0 []) ∧ exec (.wr8UnmappedB a v) s = .next (s.writeOk b []))

/-- R268, R269: an unimplemented address of 0xFF00 to 0xFF7F reads 0 and a write has no effect; each emits one event. -/
def Obligations.UnimplementedRegisters : Prop :=
  ∀ (s : State) (b : Bus) (a : Addr) (v : Byte), s.live b → a.isUnimplemented = true →
    exec (.rd8IoUnimpl a) s = .next (s.readOk 0 [.unimplRead a]) ∧
    exec (.wr8IoUnimpl a v) s = .next (s.writeOk b [.unimplWrite a v]) ∧
    exec (.rd8IoUnimpl a) (s.writeOk b [.unimplWrite a v]) =
      .next ((s.writeOk b [.unimplWrite a v]).readOk 0 [.unimplRead a])

/-- R232, R234, R236, R238, R240, R242, R266 (decision D17 for R240; D29 for the refusals): a read of a keyboard, timer
or interrupt register returns the owner's cell as it stands, or is refused `Unwired`. -/
def Obligations.KeyboardTimerInterruptReads : Prop :=
  ∀ (s : State) (b : Bus), s.live b →
    (b.wired.kbd = true → exec .rd8IoFF00 s = .next (s.readOk (b.own.kbd.joypad.setWidth 16) [])) ∧
    (b.wired.kbd = false → exec .rd8IoFF00 s = .next (s.refusedIn b .unwired [])) ∧
    (b.wired.timer = true →
      exec .rd8IoFF04 s = .next (s.readOk (b.own.tmr.divider.setWidth 16) []) ∧
      exec .rd8IoFF05 s = .next (s.readOk (b.own.tmr.counter.setWidth 16) []) ∧
      exec .rd8IoFF06 s = .next (s.readOk (b.own.tmr.modulo.setWidth 16) []) ∧
      exec .rd8IoFF07 s = .next (s.readOk (b.own.tmr.control.setWidth 16) [])) ∧
    (b.wired.timer = false →
      exec .rd8IoFF04 s = .next (s.refusedIn b .unwired []) ∧ exec .rd8IoFF05 s = .next (s.refusedIn b .unwired []) ∧
      exec .rd8IoFF06 s = .next (s.refusedIn b .unwired []) ∧ exec .rd8IoFF07 s = .next (s.refusedIn b .unwired [])) ∧
    (b.wired.irq = true →
      exec .rd8IoFF0F s = .next (s.readOk (b.own.irq.flags.setWidth 16) []) ∧
      exec .rd8IoFFFF s = .next (s.readOk (b.own.irq.enable.setWidth 16) [])) ∧
    (b.wired.irq = false →
      exec .rd8IoFF0F s = .next (s.refusedIn b .unwired []) ∧ exec .rd8IoFFFF s = .next (s.refusedIn b .unwired []))

/-- R244, R246, R248, R250, R252, R254, R258, R260, R262 (decision D29 for the refusals): a read of a display register
returns the display's cell, or is refused `Unwired`. -/
def Obligations.DisplayRegisterReads : Prop :=
  ∀ (s : State) (b : Bus), s.live b →
    (b.wired.display = true →
      exec .rd8IoFF40 s = .next (s.readOk (b.own.lcd.control.setWidth 16) []) ∧
      exec .rd8IoFF41 s = .next (s.readOk (b.own.lcd.status.setWidth 16) []) ∧
      exec .rd8IoFF42 s = .next (s.readOk (b.own.lcd.scrollY.setWidth 16) []) ∧
      exec .rd8IoFF43 s = .next (s.readOk (b.own.lcd.scrollX.setWidth 16) []) ∧
      exec .rd8IoFF44 s = .next (s.readOk (b.own.lcd.scanline.setWidth 16) []) ∧
      exec .rd8IoFF45 s = .next (s.readOk (b.own.lcd.scanlineCompare.setWidth 16) []) ∧
      exec .rd8IoFF47 s = .next (s.readOk (b.own.lcd.palette0.setWidth 16) []) ∧
      exec .rd8IoFF48 s = .next (s.readOk (b.own.lcd.palette1.setWidth 16) []) ∧
      exec .rd8IoFF49 s = .next (s.readOk (b.own.lcd.palette2.setWidth 16) [])) ∧
    (b.wired.display = false →
      ∀ i ∈ [Instr.rd8IoFF40, .rd8IoFF41, .rd8IoFF42, .rd8IoFF43, .rd8IoFF44, .rd8IoFF45, .rd8IoFF47, .rd8IoFF48, .rd8IoFF49],
        exec i s = .next (s.refusedIn b .unwired []))

/-- R256, R264 (decisions D13, D15): the DMA trigger reads 0 with one event; the overlay latch reads as 1 or 0. -/
def Obligations.TriggerAndLatchReads : Prop :=
  ∀ (s : State) (b : Bus), s.live b →
    exec .rd8IoFF46 s = .next (s.readOk 0 [.unimplRead 0xFF46]) ∧
    exec .rd8IoFF50 s = .next (s.readOk (if b.inBios = true then 1 else 0) [])

/-! ## Writes (spec/40_bus_access.md section 3, spec/42_io_router.md) -/

/-- R179, R180: a write of working RAM through either window makes its byte `v`, leaves every other byte and all other
state, and the byte is then seen through both windows. -/
def Obligations.WorkingRamWrites : Prop :=
  ∀ (s : State) (b : Bus) (a : Addr) (v : Byte), s.live b → b.wram.wf = true →
    (0xC000 ≤ a.toNat → a.toNat ≤ 0xDFFF →
      ∃ t m, exec (.wr8Wram a v) s = .next t ∧ t = s.writeOk { b with wram := m } [] ∧ m.read (a.toNat - 0xC000) = v ∧
        (∀ j, j ≠ a.toNat - 0xC000 → m.read j = b.wram.read j) ∧
        exec (.rd8Wram a) t = .next (t.readOk (v.setWidth 16) []) ∧
        (a.toNat ≤ 0xDDFF → exec (.rd8Echo (a + 0x2000)) t = .next (t.readOk (v.setWidth 16) []))) ∧
    (0xE000 ≤ a.toNat → a.toNat ≤ 0xFDFF →
      ∃ t m, exec (.wr8Echo a v) s = .next t ∧ t = s.writeOk { b with wram := m } [] ∧ m.read (a.toNat - 0xE000) = v ∧
        (∀ j, j ≠ a.toNat - 0xE000 → m.read j = b.wram.read j) ∧
        exec (.rd8Echo a) t = .next (t.readOk (v.setWidth 16) []) ∧
        exec (.rd8Wram (a - 0x2000)) t = .next (t.readOk (v.setWidth 16) []))

/-- R183: a write of the zero page makes its byte `v` and leaves every other byte and all other state. -/
def Obligations.ZeroPageWrites : Prop :=
  ∀ (s : State) (b : Bus) (a : Addr) (v : Byte), s.live b → b.zp.wf = true → 0xFF80 ≤ a.toNat → a.toNat ≤ 0xFFFE →
    ∃ m, exec (.wr8Zp a v) s = .next (s.writeOk { b with zp := m } []) ∧ m.read (a.toNat - 0xFF80) = v ∧
      ∀ j, j ≠ a.toNat - 0xFF80 → m.read j = b.zp.read j

/-- R177, R181 (decision D29 for the refusal): a write of video RAM or OAM makes the display's byte `v` and leaves every
other byte the owners hold and all other state, or is refused `Unwired`. -/
def Obligations.DisplayBufferWrites : Prop :=
  ∀ (s : State) (b : Bus) (a : Addr) (v : Byte), s.live b → ownersLegal b.own = true →
    (0x8000 ≤ a.toNat → a.toNat ≤ 0x9FFF →
      (b.wired.display = true → ∃ o i, exec (.wr8Vram a v) s = .next (s.writeOk { b with own := o } []) ∧
        i.val = a.toNat - 0x8000 ∧ changedAt b.own o (.vram i) v) ∧
      (b.wired.display = false → exec (.wr8Vram a v) s = .next (s.refusedIn b .unwired []))) ∧
    (0xFE00 ≤ a.toNat → a.toNat ≤ 0xFE9F →
      (b.wired.display = true → ∃ o i, exec (.wr8Oam a v) s = .next (s.writeOk { b with own := o } []) ∧
        i.val = a.toNat - 0xFE00 ∧ changedAt b.own o (.oam i) v) ∧
      (b.wired.display = false → exec (.wr8Oam a v) s = .next (s.refusedIn b .unwired [])))

/-- R178, R209, R321, R330 (decisions D8, D9, D10, D22): an external-RAM write in a banked mode with RAM disabled is
dropped before any check. Otherwise, in RomOnly mode or enabled, it stores one byte or enters the fatal state. -/
def Obligations.ExternalRamWrites : Prop :=
  ∀ (s : State) (b : Bus) (a : Addr) (v : Byte), s.live b → b.eram.wf = true → 0xA000 ≤ a.toNat → a.toNat ≤ 0xBFFF →
    (b.bc.mode ≠ .romOnly → b.bc.ramEnabled = false → exec (.wr8Eram a v) s = .next (s.writeOk b [])) ∧
    (b.bc.mode = .romOnly ∨ b.bc.ramEnabled = true →
      (b.ramSize.bytes = 0 → exec (.wr8Eram a v) s = .next (s.fatalIn b .eramNotConfigured [])) ∧
      (b.ramSize.bytes ≠ 0 → b.ramSize.bytes ≤ b.bc.ramBankOffset.toNat + (a.toNat - 0xA000) →
        exec (.wr8Eram a v) s = .next (s.fatalIn b .eramOutOfRange [])) ∧
      (b.bc.ramBankOffset.toNat + (a.toNat - 0xA000) < b.ramSize.bytes →
        ∃ m, exec (.wr8Eram a v) s = .next (s.writeOk { b with eram := m } []) ∧
          m.read (b.bc.ramBankOffset.toNat + (a.toNat - 0xA000)) = v ∧
          ∀ j, j ≠ b.bc.ramBankOffset.toNat + (a.toNat - 0xA000) → m.read j = b.eram.read j))

/-- R233, R237, R239, R243, R267 (decision D18 for R233; D29 for the refusals): a write of a plain keyboard, timer or
interrupt register makes the owner's cell `v` and leaves every other byte the owners hold and all other state, or is
refused `Unwired`. -/
def Obligations.KeyboardTimerInterruptWrites : Prop :=
  ∀ (s : State) (b : Bus) (v : Byte), s.live b →
    (b.wired.kbd = true →
      ∃ o, exec (.wr8IoFF00 v) s = .next (s.writeOk { b with own := o } []) ∧ changedAt b.own o (.cell .joypad) v) ∧
    (b.wired.kbd = false → exec (.wr8IoFF00 v) s = .next (s.refusedIn b .unwired [])) ∧
    (b.wired.timer = true →
      (∃ o, exec (.wr8IoFF05 v) s = .next (s.writeOk { b with own := o } []) ∧ changedAt b.own o (.cell .counter) v) ∧
      (∃ o, exec (.wr8IoFF06 v) s = .next (s.writeOk { b with own := o } []) ∧ changedAt b.own o (.cell .modulo) v)) ∧
    (b.wired.timer = false → exec (.wr8IoFF05 v) s = .next (s.refusedIn b .unwired []) ∧
      exec (.wr8IoFF06 v) s = .next (s.refusedIn b .unwired [])) ∧
    (b.wired.irq = true →
      (∃ o, exec (.wr8IoFF0F v) s = .next (s.writeOk { b with own := o } []) ∧ changedAt b.own o (.cell .irqFlags) v) ∧
      (∃ o, exec (.wr8IoFFFF v) s = .next (s.writeOk { b with own := o } []) ∧ changedAt b.own o (.cell .irqEnable) v)) ∧
    (b.wired.irq = false → exec (.wr8IoFF0F v) s = .next (s.refusedIn b .unwired []) ∧
      exec (.wr8IoFFFF v) s = .next (s.refusedIn b .unwired []))

/-- R235, R241, R253 (decisions D17, D14; D29 for the refusals): a write of the divider stores 0, of the timer control
its low three bits, of the scanline nothing, with the display wired or not. -/
def Obligations.DividerControlScanlineWrites : Prop :=
  ∀ (s : State) (b : Bus) (v : Byte), s.live b →
    (b.wired.timer = true →
      (∃ o, exec (.wr8IoFF04 v) s = .next (s.writeOk { b with own := o } []) ∧ changedAt b.own o (.cell .divider) 0) ∧
      (∃ o x, exec (.wr8IoFF07 v) s = .next (s.writeOk { b with own := o } []) ∧ x.toNat = v.toNat % 8 ∧
        changedAt b.own o (.cell .timerControl) x)) ∧
    (b.wired.timer = false → exec (.wr8IoFF04 v) s = .next (s.refusedIn b .unwired []) ∧
      exec (.wr8IoFF07 v) s = .next (s.refusedIn b .unwired [])) ∧
    exec (.wr8IoFF44 v) s = .next (s.writeOk b [])

/-- R245, R247, R249, R251, R255, R259, R261, R263 (decision D29 for the refusals): a write of a display register makes
its cell `v` and leaves every other byte the owners hold and all other state, or is refused `Unwired`. -/
def Obligations.DisplayRegisterWrites : Prop :=
  ∀ (s : State) (b : Bus) (v : Byte), s.live b →
    ∀ p ∈ [(Instr.wr8IoFF40 v, RegCell.lcdControl), (.wr8IoFF41 v, .lcdStatus), (.wr8IoFF42 v, .scrollY),
        (.wr8IoFF43 v, .scrollX), (.wr8IoFF45 v, .scanlineCompare), (.wr8IoFF47 v, .palette0), (.wr8IoFF48 v, .palette1),
        (.wr8IoFF49 v, .palette2)],
      (b.wired.display = true →
        ∃ o, exec p.1 s = .next (s.writeOk { b with own := o } []) ∧ changedAt b.own o (.cell p.2) v) ∧
      (b.wired.display = false → exec p.1 s = .next (s.refusedIn b .unwired []))

/-- R265, R376 (decision D16 for values other than 1): a write of 0xFF50 clears the overlay latch if `v` is 1 or a value
the open parameter clears on, never sets it, changes nothing else; after a write of 1, 0x0000 to 0x00FF read the image. -/
def Obligations.OverlayLatchWrite : Prop :=
  ∀ (s : State) (b : Bus) (v : Byte), s.live b →
    exec (.wr8IoFF50 v) s = .next (s.writeOk
      { b with inBios := b.inBios && !(v == 1 || !s.cfg.biosKeepOn.contains v) } []) ∧
    exec (.wr8IoFF50 1) s = .next (s.writeOk { b with inBios := false } []) ∧
    ∀ a : Addr, a.toNat ≤ 0x00FF → a.toNat < b.rom.len →
      exec (.rd8Rom0 a) (s.writeOk { b with inBios := false } []) =
        .next ((s.writeOk { b with inBios := false } []).readOk ((b.rom.bytes.read a.toNat).setWidth 16) [])

/-! ## Bank Controller (spec/41_bank_controller.md) -/

/-- R203: BC.RAMEN in a banked mode sets the enable from the low nibble, whatever the RAM size, and nothing else. -/
def Obligations.RamEnableCommand : Prop :=
  ∀ (s : State) (b : Bus) (a : Addr) (v : Byte), s.live b → 0x1000 ≤ a.toNat → a.toNat ≤ 0x1FFF → b.bc.mode ≠ .romOnly →
    exec (.bcRamen a v) s =
      .next (s.writeOk { b with bc := { b.bc with ramEnabled := decide (v.toNat % 16 = 0xA) } } [])

/-- R204 (decision D5): BC.ROMSEL in a banked mode makes the bank number the low five bits, zero coerced to one, the
bits above cleared, and nothing else. -/
def Obligations.RomBankSelectCommand : Prop :=
  ∀ (s : State) (b : Bus) (a : Addr) (v : Byte), s.live b → 0x2000 ≤ a.toNat → a.toNat ≤ 0x3FFF → b.bc.mode ≠ .romOnly →
    ∃ off : Offset, exec (.bcRomsel a v) s = .next (s.writeOk { b with bc := { b.bc with romBankOffset := off } } []) ∧
      off.toNat = (if v.toNat % 32 = 0 then 1 else v.toNat % 32) * 0x4000

/-- R206: BC.HISEL in RomBanking keeps the low five bits of the bank number and replaces the two above by bits 5:4 of
the value; the RAM offset and everything else stay. -/
def Obligations.UpperRomBitsCommand : Prop :=
  ∀ (s : State) (b : Bus) (a : Addr) (v : Byte), s.live b → 0x4000 ≤ a.toNat → a.toNat ≤ 0x5FFF → b.bc.mode ≠ .romOnly →
    b.bc.bankingMode = .romBanking →
    ∃ off : Offset, exec (.bcHisel a v) s = .next (s.writeOk { b with bc := { b.bc with romBankOffset := off } } []) ∧
      off.toNat = (b.bc.romBankOffset.toNat / 0x4000 % 32 + 32 * (v.toNat / 16 % 4)) * 0x4000

/-- R207: BC.HISEL in RamBanking makes the RAM offset the low two bits times 0x2000; the ROM offset and everything else
stay. With a nonzero bank selected every external-RAM read, and every enabled store, is then fatal: an ungated read, the
checks and their order are decisions D8, D9, D10 (notes/assumptions/21.md), the latch is D22 (notes/assumptions/32.md). -/
def Obligations.RamBankCommand : Prop :=
  ∀ (s : State) (b : Bus) (a : Addr) (v : Byte), s.live b → 0x4000 ≤ a.toNat → a.toNat ≤ 0x5FFF → b.bc.mode ≠ .romOnly →
    b.bc.bankingMode = .ramBanking →
    ∃ off : Offset, exec (.bcHisel a v) s = .next (s.writeOk { b with bc := { b.bc with ramBankOffset := off } } []) ∧
      off.toNat = v.toNat % 4 * 0x2000 ∧
      ∀ x : Addr, 0xA000 ≤ x.toNat → x.toNat ≤ 0xBFFF → v.toNat % 4 ≠ 0 →
        ∃ c, (c = .eramNotConfigured ∨ c = .eramOutOfRange) ∧
          exec (.rd8Eram x) (s.writeOk { b with bc := { b.bc with ramBankOffset := off } } []) =
            .next (s.fatalIn { b with bc := { b.bc with ramBankOffset := off } } c []) ∧
          (b.bc.ramEnabled = true → ∀ u, exec (.wr8Eram x u) (s.writeOk { b with bc := { b.bc with ramBankOffset := off } } []) =
            .next (s.fatalIn { b with bc := { b.bc with ramBankOffset := off } } c []))

/-- R208 (decision D6): BC.MODESEL in a banked mode sets the banking mode from bit 0, 1 for RamBanking, and nothing
else: neither offset is recomputed. -/
def Obligations.BankingModeCommand : Prop :=
  ∀ (s : State) (b : Bus) (a : Addr) (v : Byte), s.live b → 0x6000 ≤ a.toNat → a.toNat ≤ 0x7FFF → b.bc.mode ≠ .romOnly →
    exec (.bcModesel a v) s = .next (s.writeOk
      { b with bc := { b.bc with bankingMode := if v.toNat % 2 = 1 then .ramBanking else .romBanking } } [])

/-- R200, R202, R176 (decision D4 for BC.NONE): in RomOnly mode none of the five commands changes anything, and BC.NONE
changes nothing in any mode. -/
def Obligations.CommandsWithoutEffect : Prop :=
  ∀ (s : State) (b : Bus) (a : Addr) (v : Byte), s.live b →
    (a.toNat ≤ 0x0FFF → exec (.bcNone a v) s = .next (s.writeOk b [])) ∧
    (b.bc.mode = .romOnly →
      (0x1000 ≤ a.toNat → a.toNat ≤ 0x1FFF → exec (.bcRamen a v) s = .next (s.writeOk b [])) ∧
      (0x2000 ≤ a.toNat → a.toNat ≤ 0x3FFF → exec (.bcRomsel a v) s = .next (s.writeOk b [])) ∧
      (0x4000 ≤ a.toNat → a.toNat ≤ 0x5FFF → exec (.bcHisel a v) s = .next (s.writeOk b [])) ∧
      (0x6000 ≤ a.toNat → a.toNat ≤ 0x7FFF → exec (.bcModesel a v) s = .next (s.writeOk b [])))

/-! ## Rows and byte accesses, words (spec/40_bus_access.md) -/

/-- R161, R175, R138 (decision D1): whatever row the decoder selects for an RD8 or a WR8 at `a`, its meaning is the
decode list's byte access at `a`. -/
def Obligations.ByteRowsAreTheDecodeList : Prop :=
  ∀ (s : State) (a : Addr) (v : Byte) (i : Instr),
    (decode s.overlay (rd8Word a) = .ok i → exec i s = .next (s.readTxn fun b => read8 b a)) ∧
    (decode s.overlay (wr8Word a v) = .ok i → exec i s = .next (s.writeTxn fun b => write8 s.cfg b a v))

/-- R77: for `a` in 0xC000 to 0xDDFF, `a` and `a + 0x2000` name the same byte: they read alike and writing at either
leaves the same state. Above 0xDDFF the address 0x2000 higher names no byte of working RAM. -/
def Obligations.EchoNamesTheSameByte : Prop :=
  ∀ (s : State) (b : Bus) (a : Addr) (v : Byte), s.live b → 0xC000 ≤ a.toNat →
    (a.toNat ≤ 0xDDFF → placeOf b a = some (.wram (a.toNat - 0xC000)) ∧
      placeOf b (a + 0x2000) = some (.wram (a.toNat - 0xC000)) ∧
      exec (.rd8Wram a) s = exec (.rd8Echo (a + 0x2000)) s ∧
      exec (.wr8Wram a v) s = exec (.wr8Echo (a + 0x2000) v) s) ∧
    (0xDE00 ≤ a.toNat → a.toNat ≤ 0xDFFF → ∀ j, placeOf b (a + 0x2000) ≠ some (.wram j))

/-- R90, R93 (decision D18 for the display's buffers): after a byte is written to plain storage, an address reads `v`
exactly if it names that byte, and otherwise what it read before: the frame of every storing WR8, through reads. -/
def Obligations.StoreIsSeenExactlyAtItsPlace : Prop :=
  ∀ (s : State) (b : Bus) (a : Addr) (v : Byte) (i : Instr), s.live b → busLegal s.cfg b = true → plainStorage b a = true →
    i.wf = true → encode i = wr8Word a v →
    ∃ b', exec i s = .next (s.writeOk b' []) ∧
      ∀ x, read8 b' x = if placeOf b x = placeOf b a then .ok (v, []) else read8 b x

/-- R185, R188, R189 (decisions D21, D22): RD16 is two byte reads, low address first; the first that is not made ends
it; at 0xFFFF it is refused `WordAtTop`. -/
def Obligations.WordReads : Prop :=
  ∀ (s : State) (b : Bus) (a : Addr), s.live b →
    (a = 0xFFFF → exec (.rd16 a) s = .next (s.refusedIn b .wordAtTop [])) ∧
    (a ≠ 0xFFFF →
      (∀ x, read8 b a = .error x → exec (.rd16 a) s = .next (s.stoppedIn b x [])) ∧
      (∀ lo e x, read8 b a = .ok (lo, e) → read8 b (a + 1) = .error x →
        exec (.rd16 a) s = .next (s.stoppedIn b x e)) ∧
      (∀ lo e hi e', read8 b a = .ok (lo, e) → read8 b (a + 1) = .ok (hi, e') →
        ∃ w : Word, exec (.rd16 a) s = .next (s.readOk w (e ++ e')) ∧ w.toNat = hi.toNat * 256 + lo.toNat))

/-- R187, R188, R189 (decisions D21, D22): WR16 is two byte writes, low byte first, the second in the state the first
left; a write that is not made ends it and the effects before it stay; at 0xFFFF it is refused `WordAtTop`. -/
def Obligations.WordWrites : Prop :=
  ∀ (s : State) (b : Bus) (a : Addr) (w : Word) (lo hi : Byte), s.live b → w.toNat = hi.toNat * 256 + lo.toNat →
    (a = 0xFFFF → exec (.wr16 a w) s = .next (s.refusedIn b .wordAtTop [])) ∧
    (a ≠ 0xFFFF →
      (∀ x, (write8 s.cfg b a lo).ending = x.ending →
        exec (.wr16 a w) s = .next (s.stoppedIn (write8 s.cfg b a lo).bus x (write8 s.cfg b a lo).events)) ∧
      ((write8 s.cfg b a lo).ending = .ok →
        (∀ x, (write8 s.cfg (write8 s.cfg b a lo).bus (a + 1) hi).ending = x.ending →
          exec (.wr16 a w) s = .next (s.stoppedIn (write8 s.cfg (write8 s.cfg b a lo).bus (a + 1) hi).bus x
            ((write8 s.cfg b a lo).events ++ (write8 s.cfg (write8 s.cfg b a lo).bus (a + 1) hi).events))) ∧
        ((write8 s.cfg (write8 s.cfg b a lo).bus (a + 1) hi).ending = .ok →
          exec (.wr16 a w) s = .next (s.writeOk (write8 s.cfg (write8 s.cfg b a lo).bus (a + 1) hi).bus
            ((write8 s.cfg b a lo).events ++ (write8 s.cfg (write8 s.cfg b a lo).bus (a + 1) hi).events)))))

/-- R87: after a WR16 of two bytes of plain storage, byte reads give the low byte at `a` and the high byte at `a + 1`,
and an RD16 gives the word back. That external RAM is plain storage in RomOnly mode or enabled, and the display's buffers
when wired, rests on decisions D8 (notes/assumptions/21.md), D18 and D29 (notes/assumptions/28.md). -/
def Obligations.WordRoundTripIsLittleEndian : Prop :=
  ∀ (s : State) (b : Bus) (a : Addr) (w : Word), s.live b → busLegal s.cfg b = true → a ≠ 0xFFFF →
    plainStorage b a = true → plainStorage b (a + 1) = true →
    ∃ b', exec (.wr16 a w) s = .next (s.writeOk b' []) ∧
      (∃ lo, read8 b' a = .ok (lo, []) ∧ lo.toNat = w.toNat % 256) ∧
      (∃ hi, read8 b' (a + 1) = .ok (hi, []) ∧ hi.toNat = w.toNat / 256) ∧
      exec (.rd16 a) (s.writeOk b' []) = .next ((s.writeOk b' []).readOk w [])

/-! ## The DMA Engine (spec/43_dma.md) -/

/-- R257, R281, R283, R285 (decisions D19, D20): with the display wired and all 160 source bytes readable, a write of
0xFF46 leaves in OAM, and only there, the bytes read from `value << 8` on, and the events of those reads in order. -/
def Obligations.DmaCopiesThePage : Prop :=
  ∀ (s : State) (b : Bus) (page : Byte) (f : Nat → Byte) (e : Nat → List Event), s.live b → b.wired.display = true →
    b.own.lcd.oam.fits 160 = true →
    (∀ i, i < 160 → read8 b (BitVec.ofNat 16 (page.toNat * 256 + i)) = .ok (f i, e i)) →
    ∃ m, exec (.wr8IoFF46 page) s = .next (s.writeOk { b with own := { b.own with lcd := { b.own.lcd with oam := m } } }
        ((List.range 160).map e).flatten) ∧
      m.fits 160 = true ∧ ∀ i, i < 160 → m.read i = f i

/-- R286, R324 (decision D22, notes/assumptions/32.md; D19 for which bytes are done by then, notes/assumptions/29.md): the
first source byte that is not readable ends the copy with its cause or reason; the bytes before it stay copied, the OAM
bytes from it on keep their values. -/
def Obligations.DmaStopsAtTheFirstUnreadableByte : Prop :=
  ∀ (s : State) (b : Bus) (page : Byte) (f : Nat → Byte) (e : Nat → List Event) (k : Nat) (x : Stop), s.live b →
    b.wired.display = true → b.own.lcd.oam.fits 160 = true → k < 160 →
    (∀ i, i < k → read8 b (BitVec.ofNat 16 (page.toNat * 256 + i)) = .ok (f i, e i)) →
    read8 b (BitVec.ofNat 16 (page.toNat * 256 + k)) = .error x →
    ∃ m, exec (.wr8IoFF46 page) s = .next (s.stoppedIn { b with own := { b.own with lcd := { b.own.lcd with oam := m } } } x
        ((List.range k).map e).flatten) ∧
      ∀ i, m.read i = if i < k then f i else b.own.lcd.oam.read i

/-- R287: a write of 0xFF46 leaves the same state and the same event list as the script of explicit accesses
`RD8 (v << 8) + i -> b; WR8 0xFE00 + i, b`. That the script ends at its first request that does not end `ok`, and that its
last outcome is the copy's, rests on R286 with decisions D19 (notes/assumptions/29.md) and D22 (notes/assumptions/32.md). -/
def Obligations.DmaEqualsExplicitAccesses : Prop :=
  ∀ (s : State) (b : Bus) (page : Byte), s.live b →
    ∀ t r u log, s.request (wr8Word 0xFF46 page) = t → t.rsp = some r → copyScript page 160 0 s [] = (u, log) →
      t.cfg = u.cfg ∧ t.session = u.session ∧ t.fatal = u.fatal ∧ t.pending = u.pending ∧ r.events = log ∧
      u.rsp.map Response.outcome = some r.outcome

/-- R284: a copy from page 0xFE, OAM itself, leaves OAM and all other state as they were. -/
def Obligations.DmaSelfCopyChangesNothing : Prop :=
  ∀ (s : State) (b : Bus), s.live b → b.wired.display = true → b.own.lcd.oam.fits 160 = true →
    exec (.wr8IoFF46 0xFE) s = .next (s.writeOk b [])

/-- R288 (decisions D13, D15; D19 for the order, notes/assumptions/29.md): with all four owners wired a copy from page
0xFF ends `ok` with exactly 112 events, one for each unimplemented address and one for 0xFF46, in ascending order. The
bytes from those 112 addresses are 0, the fifteen owners' cells and the latch at 0xFF50 are copied to their place, and
0xFF80 to 0xFF9F copy the zero page. -/
def Obligations.DmaFromTheIoPage : Prop :=
  ∀ (s : State) (b : Bus), s.live b → fullyWired b = true → b.own.lcd.oam.fits 160 = true →
    ∃ m log, exec (.wr8IoFF46 0xFF) s =
        .next (s.writeOk { b with own := { b.own with lcd := { b.own.lcd with oam := m } } } log) ∧
      log = (((List.range 128).map fun i => (BitVec.ofNat 16 (0xFF00 + i) : Addr)).filter
        fun a => Addr.isUnimplemented a || a == 0xFF46).map Event.unimplRead ∧
      log.length = 112 ∧
      (∀ i, i < 128 → Addr.isUnimplemented (BitVec.ofNat 16 (0xFF00 + i)) = true ∨ i = 0x46 → m.read i = 0) ∧
      m.read 0x00 = b.own.kbd.joypad ∧ m.read 0x04 = b.own.tmr.divider ∧ m.read 0x05 = b.own.tmr.counter ∧
      m.read 0x06 = b.own.tmr.modulo ∧ m.read 0x07 = b.own.tmr.control ∧ m.read 0x0F = b.own.irq.flags ∧
      m.read 0x40 = b.own.lcd.control ∧ m.read 0x41 = b.own.lcd.status ∧ m.read 0x42 = b.own.lcd.scrollY ∧
      m.read 0x43 = b.own.lcd.scrollX ∧ m.read 0x44 = b.own.lcd.scanline ∧
      m.read 0x45 = b.own.lcd.scanlineCompare ∧ m.read 0x47 = b.own.lcd.palette0 ∧
      m.read 0x48 = b.own.lcd.palette1 ∧ m.read 0x49 = b.own.lcd.palette2 ∧
      m.read 0x50 = (if b.inBios = true then 1 else 0) ∧ ∀ i, i < 32 → m.read (0x80 + i) = b.zp.read i

/-! ## Host operations and reset (spec/44_host_ops.md, spec/10_state.md R52) -/

/-- R308 (decision D28): SETBIOS makes the overlay latch its flag, either value, and nothing else. -/
def Obligations.SetbiosSetsTheLatch : Prop :=
  ∀ (s : State) (b : Bus) (flag : Bool), s.live b →
    exec (.setbios flag) s = .next (s.writeOk { b with inBios := flag } [])

/-- R304, R305 (decisions D29, D36): an ATTACH sets its own flag and nothing else; a second one is refused
`AlreadyWired`. -/
def Obligations.AttachWiresOnce : Prop :=
  ∀ (s : State) (b : Bus), s.live b →
    exec .attachDisplay s = .next (if b.wired.display = true then s.refusedIn b .alreadyWired []
      else s.writeOk { b with wired := { b.wired with display := true } } []) ∧
    exec .attachTimer s = .next (if b.wired.timer = true then s.refusedIn b .alreadyWired []
      else s.writeOk { b with wired := { b.wired with timer := true } } []) ∧
    exec .attachIrq s = .next (if b.wired.irq = true then s.refusedIn b .alreadyWired []
      else s.writeOk { b with wired := { b.wired with irq := true } } []) ∧
    exec .attachKbd s = .next (if b.wired.kbd = true then s.refusedIn b .alreadyWired []
      else s.writeOk { b with wired := { b.wired with kbd := true } } [])

/-- R300, R301, R302, R52 (decisions D3, D22, D25, D26, D29, D34; that every CONSTRUCT takes the same open contents is
the model's, notes/assumptions/9.md): from every state, with both codes known, CONSTRUCT leaves the reset state of R52 and
clears the fatal latch. -/
def Obligations.ConstructLeavesTheResetState : Prop :=
  ∀ (s : State) (rom : Image) (mbcCode ramCode : Byte) (mode : Mode) (size : RamSize),
    s.cfg.mbcCodeMap.lookup mbcCode = some mode →
    (ramCode = 0 ∧ size = .none ∨ ramCode = 1 ∧ size = .kb2 ∨ ramCode = 2 ∧ size = .kb8) →
    ∃ b, exec (.construct rom mbcCode ramCode) s = .next { s with
          session := some b, fatal := none, rsp := some { outcome := .ok, rdata := none, events := [] } } ∧
      b.bios = s.cfg.biosImage ∧ b.rom = rom ∧ b.bc.mode = mode ∧ b.ramSize = size ∧ b.inBios = true ∧
      b.bc.romBankOffset = 0x4000 ∧ b.bc.ramBankOffset = 0 ∧ b.bc.ramEnabled = false ∧ b.bc.bankingMode = .romBanking ∧
      b.wram = s.cfg.initWram ∧ b.zp = s.cfg.initZp ∧ (∀ i, i < size.bytes → b.eram.read i = s.cfg.initEram.read i) ∧
      b.wired = { display := false, timer := false, irq := false, kbd := false } ∧ b.own = s.cfg.initOwners

/-- R300, R303, R320 (decisions D22, D25, D35): with an unknown bank-controller code, whatever the RAM code, or a known
one and a RAM code not 0, 1 or 2, CONSTRUCT latches the cause and no instance exists. -/
def Obligations.ConstructFatalConditions : Prop :=
  ∀ (s : State) (rom : Image) (mbcCode ramCode : Byte),
    (s.cfg.mbcCodeMap.lookup mbcCode = none →
      exec (.construct rom mbcCode ramCode) s = .next { s with
        session := none, fatal := some .unsupportedBankController,
        rsp := some { outcome := .fatal .unsupportedBankController, rdata := none, events := [] } }) ∧
    (s.cfg.mbcCodeMap.lookup mbcCode ≠ none → 3 ≤ ramCode.toNat →
      exec (.construct rom mbcCode ramCode) s = .next { s with
        session := none, fatal := some .unsupportedRamSize,
        rsp := some { outcome := .fatal .unsupportedRamSize, rdata := none, events := [] } })

/-- The invariant holds after reset (R52, R49; the ROM bank offset 0x4000 is decision D3, notes/assumptions/16.md). The
session parameters, the open contents and the header codes in it are the model's (notes/assumptions/3.md, 5.md, 7.md). -/
def Obligations.ResetStateIsLegal : Prop := State.reset.legal = true

/-! ## The whole machine -/

/-- R48, R49, R37, R26, R303: every step from a legal state leaves a legal state: bank numbers 1 to 127 with low bits
not zero, RAM offsets of the four values, RomOnly registers frozen, the overlay constant, every buffer the canonical form
of an array of its size. A CONSTRUCT keeps it by decision D3 (notes/assumptions/16.md). The last part, that a construction
cause is latched only without an instance and an access's only with one, is the model's (notes/assumptions/10.md). -/
def Obligations.EveryStepKeepsTheStateLegal : Prop :=
  ∀ s t : State, s.legal = true → step s = .next t → t.legal = true

/-- R83, R96: in a legal state no index or address assembly leaves its range. The ROM index of a W3 address is at most
0x1FFFFF; the external-RAM offset of a W5 address at most 0x7FFF, and a checked one below the size of the RAM; the indexes
of W4, W6, W7, W8 and W9 are the address less the window's base and below its size; the bank numbers' offsets are at most
0x1FC000 and 0x6000; the address of a word's high byte is exact but at 0xFFFF, and so are the source and the destination of
each byte of a copy. -/
def Obligations.IndexesStayInRange : Prop :=
  ∀ (s : State) (b : Bus) (a : Addr) (page : Byte) (i : Nat), s.legal = true → s.session = some b →
    (0x4000 ≤ a.toNat → a.toNat ≤ 0x7FFF → 0x4000 ≤ romxIndex b a ∧ romxIndex b a ≤ 0x1FFFFF) ∧
    (0xA000 ≤ a.toNat → a.toNat ≤ 0xBFFF → eramOffset b a ≤ 0x7FFF ∧
      ∀ j, eramIndex b a = .ok j → j = eramOffset b a ∧ j < b.ramSize.bytes) ∧
    (0x8000 ≤ a.toNat → a.toNat ≤ 0x9FFF → 0x8000 + vramIndex a = a.toNat ∧ vramIndex a < 8192) ∧
    (0xC000 ≤ a.toNat → a.toNat ≤ 0xDFFF → 0xC000 + wramIndex a = a.toNat ∧ wramIndex a < 8192) ∧
    (0xE000 ≤ a.toNat → a.toNat ≤ 0xFDFF → 0xE000 + echoIndex a = a.toNat ∧ echoIndex a < 7680) ∧
    (0xFE00 ≤ a.toNat → a.toNat ≤ 0xFE9F → 0xFE00 + oamIndex a = a.toNat ∧ oamIndex a < 160) ∧
    (0xFF80 ≤ a.toNat → a.toNat ≤ 0xFFFE → 0xFF80 + zpIndex a = a.toNat ∧ zpIndex a < 127) ∧
    b.bc.romBankOffset.toNat ≤ 0x1FC000 ∧ b.bc.ramBankOffset.toNat ≤ 0x6000 ∧
    (a ≠ 0xFFFF → (nextAddr a).toNat = a.toNat + 1) ∧
    (i < 160 → (dmaSource page i).toNat = page.toNat * 256 + i ∧ (dmaDest i).toNat = 0xFE00 + i)

/-- R13, R122: every instruction in every state ends in one of the three outcomes and is answered. That each outcome is a
next state with the answer in `rsp`, which leaves the parameters and what is still pending, is the model's
(notes/assumptions/1.md, 2.md, 9.md, 11.md). -/
def Obligations.EveryInstructionAnswers : Prop :=
  ∀ (i : Instr) (s : State),
    ∃ t r, exec i s = .next t ∧ t.rsp = some r ∧ t.cfg = s.cfg ∧ t.pending = s.pending

/-- R122, R288 (decisions D1, D23): the response carries data exactly when it is `ok` and the request was RD8 or RD16,
a byte zero-extended for RD8, and at most 112 events. -/
def Obligations.ResponsesHaveTheirShape : Prop :=
  ∀ (i : Instr) (s t : State) (r : Response), i.wf = true → exec i s = .next t → t.rsp = some r →
    (r.rdata.isSome = true ↔ r.outcome = .ok ∧ i.isRead = true) ∧
    (i.readAt.isSome = true → ∀ d, r.rdata = some d → d.toNat < 256) ∧ r.events.length ≤ 112

/-- R92, R210: a read changes no state: the session stays, and the fatal latch changes only to cause 3 or 4. -/
def Obligations.ReadsChangeNoState : Prop :=
  ∀ (i : Instr) (s t : State), i.wf = true → i.isRead = true → exec i s = .next t →
    t.session = s.session ∧ t.cfg = s.cfg ∧ t.pending = s.pending ∧
    (t.fatal = s.fatal ∨ t.fatal = some .eramNotConfigured ∨ t.fatal = some .eramOutOfRange)

/-- R53, with R22, R24, R36, R48 (c) and (f) (decisions D28 for SETBIOS, notes/assumptions/34.md, and D29 for the wiring,
notes/assumptions/28.md): what an instruction other than CONSTRUCT can change of the instance.
Constant state never; the bank registers only by a byte write to 0x1000 to 0x7FFF in a banked mode; `eram`, `wram`, `zp`
only by one into their window; the latch only by one to 0xFF50 or SETBIOS, and from false to true by SETBIOS alone; the
wiring only by an ATTACH. Where a byte lands on 0xFF46, the copy changes only OAM, and the other byte of a WR16 only the
register it lands on, 0xFF45 or 0xFF47. -/
def Obligations.OwnedStateChangesOnlyByItsWrites : Prop :=
  ∀ (i : Instr) (s t : State) (b b' : Bus), i.wf = true → i.isConstruct = false → exec i s = .next t →
    s.session = some b → t.session = some b' →
    b'.bios = b.bios ∧ b'.rom = b.rom ∧ b'.bc.mode = b.bc.mode ∧ b'.ramSize = b.ramSize ∧
    (b'.bc ≠ b.bc → b.bc.mode ≠ .romOnly ∧ ∃ a ∈ i.writesAt, 0x1000 ≤ a.toNat ∧ a.toNat ≤ 0x7FFF) ∧
    (b'.eram ≠ b.eram → ∃ a ∈ i.writesAt, 0xA000 ≤ a.toNat ∧ a.toNat ≤ 0xBFFF) ∧
    (b'.wram ≠ b.wram → ∃ a ∈ i.writesAt, 0xC000 ≤ a.toNat ∧ a.toNat ≤ 0xFDFF) ∧
    (b'.zp ≠ b.zp → ∃ a ∈ i.writesAt, 0xFF80 ≤ a.toNat ∧ a.toNat ≤ 0xFFFE) ∧
    (b'.inBios ≠ b.inBios → 0xFF50 ∈ i.writesAt ∨ ∃ f, i = .setbios f) ∧
    (b.inBios = false → b'.inBios = true → i = .setbios true) ∧
    (b'.wired ≠ b.wired → i = .attachDisplay ∨ i = .attachTimer ∨ i = .attachIrq ∨ i = .attachKbd) ∧
    (0xFF46 ∈ i.writesAt → ∃ m x y, b' = { b with own := { b.own with lcd := { b.own.lcd with
        oam := m, scanlineCompare := x, palette0 := y } } } ∧
      (x ≠ b.own.lcd.scanlineCompare → 0xFF45 ∈ i.writesAt) ∧ (y ≠ b.own.lcd.palette0 → 0xFF47 ∈ i.writesAt))

/-- R392: the byte accesses of a transaction that completes, as the byte reads and writes it is made of count them: 1 for an
RD8 and a WR8, 321 for a WR8 of 0xFF46, 2 for an RD16 and a WR16, 322 for a WR16 one byte of which lands on 0xFF46, 0 for
SETBIOS. The number of each is what `byteAccesses` gives for its word. -/
def Obligations.ByteAccessCounts : Prop :=
  ∀ (i : Instr) (s : State) (b : Bus), i.wf = true → s.live b →
    (∀ a, i.readAt = some a → exec i s = .next (s.finishRead (.one (read8 b a))) ∧
      ((Reads.one (read8 b a)).ending = .ok → (Reads.one (read8 b a)).accesses = 1 ∧ byteAccesses (encode i) = 1)) ∧
    (∀ a v, encode i = wr8Word a v → exec i s = .next (s.finish (write8 s.cfg b a v)) ∧
      ((write8 s.cfg b a v).ending = .ok →
        (write8 s.cfg b a v).accesses = (if a = 0xFF46 then 321 else 1) ∧
        byteAccesses (encode i) = (write8 s.cfg b a v).accesses)) ∧
    (∀ a, i = .rd16 a → a ≠ 0xFFFF → exec i s = .next (s.finishRead (readWord b a)) ∧
      ((readWord b a).ending = .ok → (readWord b a).accesses = 2 ∧ byteAccesses (encode i) = 2)) ∧
    (∀ a w, i = .wr16 a w → a ≠ 0xFFFF → exec i s = .next (s.finish (writeWord s.cfg b a w)) ∧
      ((writeWord s.cfg b a w).ending = .ok →
        (writeWord s.cfg b a w).accesses = (if a = 0xFF46 ∨ a = 0xFF45 then 322 else 2) ∧
        byteAccesses (encode i) = (writeWord s.cfg b a w).accesses)) ∧
    (∀ flag, i = .setbios flag → exec i s = .next (s.finish (.idle { b with inBios := flag })) ∧
      (Run.idle { b with inBios := flag }).accesses = 0 ∧ byteAccesses (encode i) = 0)

end Statements
end

