-- ==== Sys2Proof/Laws/State.lean ====
section
/-! SUPPORT. One lemma per field per update of the instance and of the machine's state, each true by unfolding. -/

namespace Sys2Proof.Machine

/-! ## The instance -/

@[simp] theorem Bus.withInBios_bios (b : Bus) (f : Bool) : (b.withInBios f).bios = b.bios := rfl
@[simp] theorem Bus.withInBios_rom (b : Bus) (f : Bool) : (b.withInBios f).rom = b.rom := rfl
@[simp] theorem Bus.withInBios_ramSize (b : Bus) (f : Bool) : (b.withInBios f).ramSize = b.ramSize := rfl
@[simp] theorem Bus.withInBios_inBios (b : Bus) (f : Bool) : (b.withInBios f).inBios = f := rfl
@[simp] theorem Bus.withInBios_bc (b : Bus) (f : Bool) : (b.withInBios f).bc = b.bc := rfl
@[simp] theorem Bus.withInBios_wram (b : Bus) (f : Bool) : (b.withInBios f).wram = b.wram := rfl
@[simp] theorem Bus.withInBios_eram (b : Bus) (f : Bool) : (b.withInBios f).eram = b.eram := rfl
@[simp] theorem Bus.withInBios_zp (b : Bus) (f : Bool) : (b.withInBios f).zp = b.zp := rfl
@[simp] theorem Bus.withInBios_wired (b : Bus) (f : Bool) : (b.withInBios f).wired = b.wired := rfl
@[simp] theorem Bus.withInBios_own (b : Bus) (f : Bool) : (b.withInBios f).own = b.own := rfl

@[simp] theorem Bus.withBc_bios (b : Bus) (c : Bank) : (b.withBc c).bios = b.bios := rfl
@[simp] theorem Bus.withBc_rom (b : Bus) (c : Bank) : (b.withBc c).rom = b.rom := rfl
@[simp] theorem Bus.withBc_ramSize (b : Bus) (c : Bank) : (b.withBc c).ramSize = b.ramSize := rfl
@[simp] theorem Bus.withBc_inBios (b : Bus) (c : Bank) : (b.withBc c).inBios = b.inBios := rfl
@[simp] theorem Bus.withBc_bc (b : Bus) (c : Bank) : (b.withBc c).bc = c := rfl
@[simp] theorem Bus.withBc_wram (b : Bus) (c : Bank) : (b.withBc c).wram = b.wram := rfl
@[simp] theorem Bus.withBc_eram (b : Bus) (c : Bank) : (b.withBc c).eram = b.eram := rfl
@[simp] theorem Bus.withBc_zp (b : Bus) (c : Bank) : (b.withBc c).zp = b.zp := rfl
@[simp] theorem Bus.withBc_wired (b : Bus) (c : Bank) : (b.withBc c).wired = b.wired := rfl
@[simp] theorem Bus.withBc_own (b : Bus) (c : Bank) : (b.withBc c).own = b.own := rfl

@[simp] theorem Bus.withWram_bios (b : Bus) (m : Memory) : (b.withWram m).bios = b.bios := rfl
@[simp] theorem Bus.withWram_rom (b : Bus) (m : Memory) : (b.withWram m).rom = b.rom := rfl
@[simp] theorem Bus.withWram_ramSize (b : Bus) (m : Memory) : (b.withWram m).ramSize = b.ramSize := rfl
@[simp] theorem Bus.withWram_inBios (b : Bus) (m : Memory) : (b.withWram m).inBios = b.inBios := rfl
@[simp] theorem Bus.withWram_bc (b : Bus) (m : Memory) : (b.withWram m).bc = b.bc := rfl
@[simp] theorem Bus.withWram_wram (b : Bus) (m : Memory) : (b.withWram m).wram = m := rfl
@[simp] theorem Bus.withWram_eram (b : Bus) (m : Memory) : (b.withWram m).eram = b.eram := rfl
@[simp] theorem Bus.withWram_zp (b : Bus) (m : Memory) : (b.withWram m).zp = b.zp := rfl
@[simp] theorem Bus.withWram_wired (b : Bus) (m : Memory) : (b.withWram m).wired = b.wired := rfl
@[simp] theorem Bus.withWram_own (b : Bus) (m : Memory) : (b.withWram m).own = b.own := rfl

@[simp] theorem Bus.withEram_bios (b : Bus) (m : Memory) : (b.withEram m).bios = b.bios := rfl
@[simp] theorem Bus.withEram_rom (b : Bus) (m : Memory) : (b.withEram m).rom = b.rom := rfl
@[simp] theorem Bus.withEram_ramSize (b : Bus) (m : Memory) : (b.withEram m).ramSize = b.ramSize := rfl
@[simp] theorem Bus.withEram_inBios (b : Bus) (m : Memory) : (b.withEram m).inBios = b.inBios := rfl
@[simp] theorem Bus.withEram_bc (b : Bus) (m : Memory) : (b.withEram m).bc = b.bc := rfl
@[simp] theorem Bus.withEram_wram (b : Bus) (m : Memory) : (b.withEram m).wram = b.wram := rfl
@[simp] theorem Bus.withEram_eram (b : Bus) (m : Memory) : (b.withEram m).eram = m := rfl
@[simp] theorem Bus.withEram_zp (b : Bus) (m : Memory) : (b.withEram m).zp = b.zp := rfl
@[simp] theorem Bus.withEram_wired (b : Bus) (m : Memory) : (b.withEram m).wired = b.wired := rfl
@[simp] theorem Bus.withEram_own (b : Bus) (m : Memory) : (b.withEram m).own = b.own := rfl

@[simp] theorem Bus.withZp_bios (b : Bus) (m : Memory) : (b.withZp m).bios = b.bios := rfl
@[simp] theorem Bus.withZp_rom (b : Bus) (m : Memory) : (b.withZp m).rom = b.rom := rfl
@[simp] theorem Bus.withZp_ramSize (b : Bus) (m : Memory) : (b.withZp m).ramSize = b.ramSize := rfl
@[simp] theorem Bus.withZp_inBios (b : Bus) (m : Memory) : (b.withZp m).inBios = b.inBios := rfl
@[simp] theorem Bus.withZp_bc (b : Bus) (m : Memory) : (b.withZp m).bc = b.bc := rfl
@[simp] theorem Bus.withZp_wram (b : Bus) (m : Memory) : (b.withZp m).wram = b.wram := rfl
@[simp] theorem Bus.withZp_eram (b : Bus) (m : Memory) : (b.withZp m).eram = b.eram := rfl
@[simp] theorem Bus.withZp_zp (b : Bus) (m : Memory) : (b.withZp m).zp = m := rfl
@[simp] theorem Bus.withZp_wired (b : Bus) (m : Memory) : (b.withZp m).wired = b.wired := rfl
@[simp] theorem Bus.withZp_own (b : Bus) (m : Memory) : (b.withZp m).own = b.own := rfl

@[simp] theorem Bus.withWired_bios (b : Bus) (w : Wiring) : (b.withWired w).bios = b.bios := rfl
@[simp] theorem Bus.withWired_rom (b : Bus) (w : Wiring) : (b.withWired w).rom = b.rom := rfl
@[simp] theorem Bus.withWired_ramSize (b : Bus) (w : Wiring) : (b.withWired w).ramSize = b.ramSize := rfl
@[simp] theorem Bus.withWired_inBios (b : Bus) (w : Wiring) : (b.withWired w).inBios = b.inBios := rfl
@[simp] theorem Bus.withWired_bc (b : Bus) (w : Wiring) : (b.withWired w).bc = b.bc := rfl
@[simp] theorem Bus.withWired_wram (b : Bus) (w : Wiring) : (b.withWired w).wram = b.wram := rfl
@[simp] theorem Bus.withWired_eram (b : Bus) (w : Wiring) : (b.withWired w).eram = b.eram := rfl
@[simp] theorem Bus.withWired_zp (b : Bus) (w : Wiring) : (b.withWired w).zp = b.zp := rfl
@[simp] theorem Bus.withWired_wired (b : Bus) (w : Wiring) : (b.withWired w).wired = w := rfl
@[simp] theorem Bus.withWired_own (b : Bus) (w : Wiring) : (b.withWired w).own = b.own := rfl

@[simp] theorem Bus.withOwn_bios (b : Bus) (o : Owners) : (b.withOwn o).bios = b.bios := rfl
@[simp] theorem Bus.withOwn_rom (b : Bus) (o : Owners) : (b.withOwn o).rom = b.rom := rfl
@[simp] theorem Bus.withOwn_ramSize (b : Bus) (o : Owners) : (b.withOwn o).ramSize = b.ramSize := rfl
@[simp] theorem Bus.withOwn_inBios (b : Bus) (o : Owners) : (b.withOwn o).inBios = b.inBios := rfl
@[simp] theorem Bus.withOwn_bc (b : Bus) (o : Owners) : (b.withOwn o).bc = b.bc := rfl
@[simp] theorem Bus.withOwn_wram (b : Bus) (o : Owners) : (b.withOwn o).wram = b.wram := rfl
@[simp] theorem Bus.withOwn_eram (b : Bus) (o : Owners) : (b.withOwn o).eram = b.eram := rfl
@[simp] theorem Bus.withOwn_zp (b : Bus) (o : Owners) : (b.withOwn o).zp = b.zp := rfl
@[simp] theorem Bus.withOwn_wired (b : Bus) (o : Owners) : (b.withOwn o).wired = b.wired := rfl
@[simp] theorem Bus.withOwn_own (b : Bus) (o : Owners) : (b.withOwn o).own = o := rfl

/-! ## The machine -/

@[simp] theorem State.respond_cfg (s : State) (r : Response) : (s.respond r).cfg = s.cfg := rfl
@[simp] theorem State.respond_session (s : State) (r : Response) : (s.respond r).session = s.session := rfl
@[simp] theorem State.respond_fatal (s : State) (r : Response) : (s.respond r).fatal = s.fatal := rfl
@[simp] theorem State.respond_pending (s : State) (r : Response) : (s.respond r).pending = s.pending := rfl
@[simp] theorem State.respond_rsp (s : State) (r : Response) : (s.respond r).rsp = some r := rfl

@[simp] theorem State.withBus_cfg (s : State) (b : Bus) : (s.withBus b).cfg = s.cfg := rfl
@[simp] theorem State.withBus_session (s : State) (b : Bus) : (s.withBus b).session = some b := rfl
@[simp] theorem State.withBus_fatal (s : State) (b : Bus) : (s.withBus b).fatal = s.fatal := rfl
@[simp] theorem State.withBus_pending (s : State) (b : Bus) : (s.withBus b).pending = s.pending := rfl
@[simp] theorem State.withBus_rsp (s : State) (b : Bus) : (s.withBus b).rsp = s.rsp := rfl

@[simp] theorem State.taken_cfg (s : State) (rest : List Input) : (s.taken rest).cfg = s.cfg := rfl
@[simp] theorem State.taken_session (s : State) (rest : List Input) : (s.taken rest).session = s.session := rfl
@[simp] theorem State.taken_fatal (s : State) (rest : List Input) : (s.taken rest).fatal = s.fatal := rfl
@[simp] theorem State.taken_pending (s : State) (rest : List Input) : (s.taken rest).pending = rest := rfl
@[simp] theorem State.taken_rsp (s : State) (rest : List Input) : (s.taken rest).rsp = s.rsp := rfl

@[simp] theorem State.requestFirst_cfg (s : State) (w : PortWord) : (s.requestFirst w).cfg = s.cfg := rfl
@[simp] theorem State.requestFirst_session (s : State) (w : PortWord) : (s.requestFirst w).session = s.session := rfl
@[simp] theorem State.requestFirst_fatal (s : State) (w : PortWord) : (s.requestFirst w).fatal = s.fatal := rfl
@[simp] theorem State.requestFirst_pending (s : State) (w : PortWord) : (s.requestFirst w).pending = .port w :: s.pending := rfl
@[simp] theorem State.requestFirst_rsp (s : State) (w : PortWord) : (s.requestFirst w).rsp = s.rsp := rfl

@[simp] theorem State.takeFatal_cfg (s : State) (c : Cause) (e : List Event) : (s.takeFatal c e).cfg = s.cfg := rfl
@[simp] theorem State.takeFatal_session (s : State) (c : Cause) (e : List Event) : (s.takeFatal c e).session = s.session := rfl
@[simp] theorem State.takeFatal_fatal (s : State) (c : Cause) (e : List Event) : (s.takeFatal c e).fatal = some c := rfl
@[simp] theorem State.takeFatal_pending (s : State) (c : Cause) (e : List Event) : (s.takeFatal c e).pending = s.pending := rfl
@[simp] theorem State.takeFatal_rsp (s : State) (c : Cause) (e : List Event) : (s.takeFatal c e).rsp = some { outcome := .fatal c, rdata := none, events := e } := rfl

end Sys2Proof.Machine
end

