-- ==== Sys2Proof/Laws/Ops.lean ====
section
/-! SUPPORT. What each shared operation can do: admission, the end of a transaction, the wiring check, the checked
external-RAM index, the owners' cells, and a sequence of byte accesses. -/

namespace Sys2Proof.Machine

/-! ## Transactions -/

/-- On a live block the transaction is made. -/
theorem State.admit_live {s : State} {b : Bus} (h : s.live b) (k : Bus → State) : s.onInstance k = k b := by
  simp [State.onInstance, h.1, h.2]

theorem State.admit_fatal {s : State} {c : Cause} (h : s.fatal = some c) (k : Bus → State) :
    s.onInstance k = s.refuse .afterFatal := by
  simp [State.onInstance, h]

theorem State.admit_unconstructed {s : State} (h : s.fatal = none) (h' : s.session = none) (k : Bus → State) :
    s.onInstance k = s.refuse .notConstructed := by
  simp [State.onInstance, h, h']

/-- Every admission is one of the three. -/
theorem State.admit_cases (s : State) (k : Bus → State) :
    (∃ c, s.fatal = some c ∧ s.onInstance k = s.refuse .afterFatal) ∨
    (s.fatal = none ∧ s.session = none ∧ s.onInstance k = s.refuse .notConstructed) ∨
    ∃ b, s.live b ∧ s.onInstance k = k b := by
  cases hf : s.fatal with
  | some c => exact .inl ⟨c, rfl, admit_fatal hf k⟩
  | none =>
    cases hb : s.session with
    | none => exact .inr (.inl ⟨rfl, rfl, admit_unconstructed hf hb k⟩)
    | some b => exact .inr (.inr ⟨b, ⟨hf, hb⟩, admit_live ⟨hf, hb⟩ k⟩)

/-- An access that was not made, on a live block: the latch or the refusal, and nothing else. -/
theorem State.stop_live {s : State} {b : Bus} (h : s.live b) (x : Stop) (e : List Event) :
    s.stop x e = s.stoppedIn b x e := by
  have hs := h.2
  cases x <;> simp [State.stop, State.stoppedIn, State.takeFatal, State.respond, State.fatalIn, State.refusedIn, hs]

theorem State.finishRead_ok (s : State) {r : Reads} (h : r.ending = .ok) : s.finishRead r = s.readOk r.data r.events := by
  simp [State.finishRead, h, State.respond, State.readOk]

theorem State.finishRead_stopped {s : State} {r : Reads} {x : Stop} (h : r.ending = x.ending) :
    s.finishRead r = s.stop x r.events := by
  cases x <;> simp [State.finishRead, h, Stop.ending]

theorem State.finishRead_stop {s : State} {b : Bus} (hb : s.live b) {r : Reads} {x : Stop} (h : r.ending = x.ending) :
    s.finishRead r = s.stoppedIn b x r.events := by
  rw [finishRead_stopped h, stop_live hb]

/-- What two reads in order can come to. -/
theorem Reads.two_error {r r' : ByteRead} {x : Stop} (h : r = .error x) :
    (Reads.one r).andThen (.one r') = { bytes := [], events := [], ending := x.ending } := by
  subst h; cases x <;> rfl

theorem Reads.two_ok_error {r r' : ByteRead} {v : Byte} {e : List Event} {x : Stop} (h : r = .ok (v, e))
    (h' : r' = .error x) : (Reads.one r).andThen (.one r') = { bytes := [v], events := e, ending := x.ending } := by
  subst h h'; simp [Reads.one, Reads.andThen]

theorem Reads.two_ok {r r' : ByteRead} {v v' : Byte} {e e' : List Event} (h : r = .ok (v, e)) (h' : r' = .ok (v', e')) :
    (Reads.one r).andThen (.one r') = { bytes := [v, v'], events := e ++ e', ending := .ok } := by
  subst h h'; rfl

theorem State.readTxn_ok {s : State} {b : Bus} (h : s.live b) {k : Bus → ByteRead} {v : Byte} {e : List Event}
    (hk : k b = .ok (v, e)) : s.readTxn k = s.readOk (v.setWidth 16) e := by
  simp [State.readTxn, admit_live h, hk, Reads.one, finishRead_ok, Reads.data]

theorem State.readTxn_error {s : State} {b : Bus} (h : s.live b) {k : Bus → ByteRead} {x : Stop}
    (hk : k b = .error x) : s.readTxn k = s.stoppedIn b x [] := by
  rw [State.readTxn, admit_live h, hk, finishRead_stop h rfl]; rfl

theorem State.finish_ok (s : State) {r : Run} (h : r.ending = .ok) : s.finish r = s.writeOk r.bus r.events := by
  simp [State.finish, h, State.withBus, State.respond, State.writeOk]

theorem State.finish_stop (s : State) {r : Run} {x : Stop} (h : r.ending = x.ending) :
    s.finish r = s.stoppedIn r.bus x r.events := by
  cases x <;> simp [State.finish, h, Stop.ending, State.withBus, State.stop, State.takeFatal, State.respond,
    State.stoppedIn, State.fatalIn, State.refusedIn]

/-- Every run ended `ok` or at an access that was not made. -/
theorem Run.ending_cases (r : Run) : r.ending = .ok ∨ ∃ x : Stop, r.ending = x.ending := by
  cases h : r.ending with
  | ok => exact .inl rfl
  | fatal c => exact .inr ⟨.fatal c, rfl⟩
  | refuse x => exact .inr ⟨.refuse x, rfl⟩

theorem Stop.ending_ne_ok (x : Stop) : x.ending ≠ .ok := by cases x <;> simp [Stop.ending]

theorem State.finish_done (s : State) (b : Bus) : s.finish (.done b) = s.writeOk b [] := finish_ok s rfl

theorem State.finish_idle (s : State) (b : Bus) : s.finish (.idle b) = s.writeOk b [] := finish_ok s rfl

theorem State.finish_stopped (s : State) (b : Bus) (x : Stop) : s.finish (.stop b x) = s.stoppedIn b x [] :=
  finish_stop s rfl

theorem State.writeTxn_live {s : State} {b : Bus} (h : s.live b) (k : Bus → Run) : s.writeTxn k = s.finish (k b) := by
  simp [State.writeTxn, admit_live h]

/-- A run keeps everything of the state but the instance, the latch and the response. -/
theorem State.finish_frame (s : State) (r : Run) :
    (s.finish r).cfg = s.cfg ∧ (s.finish r).pending = s.pending ∧ (s.finish r).session = some r.bus := by
  rcases r.ending_cases with h | ⟨x, h⟩
  · rw [finish_ok s h]; exact ⟨rfl, rfl, rfl⟩
  · rw [finish_stop s h]; cases x <;> exact ⟨rfl, rfl, rfl⟩

/-! ## Byte accesses -/

theorem Bus.needsForRead_wired {b : Bus} {o : Owner} (h : b.wired.has o = true) (k : ByteRead) : b.needsForRead o k = k :=
  if_pos h

theorem Bus.needsForRead_unwired {b : Bus} {o : Owner} (h : b.wired.has o = false) (k : ByteRead) :
    b.needsForRead o k = .error (.refuse .unwired) := by
  simp [Bus.needsForRead, h]

theorem Bus.needsForWrite_wired {b : Bus} {o : Owner} (h : b.wired.has o = true) (k : Run) : b.needsForWrite o k = k :=
  if_pos h

theorem Bus.needsForWrite_unwired {b : Bus} {o : Owner} (h : b.wired.has o = false) (k : Run) :
    b.needsForWrite o k = .stop b (.refuse .unwired) := by
  simp [Bus.needsForWrite, h]

/-- The checked index is the offset, and only when it is below the size. -/
theorem eramIndex_ok_iff {b : Bus} {a : Addr} {i : Nat} :
    eramIndex b a = .ok i ↔ eramOffset b a < b.ramSize.bytes ∧ i = eramOffset b a := by
  unfold eramIndex
  split
  · rename_i h; rw [h]; simp
  · split
    · rename_i h; simp [Nat.not_lt.2 h]
    · rename_i h; simp [Nat.lt_of_not_le h, eq_comm]

theorem eramIndex_ok {b : Bus} {a : Addr} (h : eramOffset b a < b.ramSize.bytes) :
    eramIndex b a = .ok (eramOffset b a) := eramIndex_ok_iff.2 ⟨h, rfl⟩

theorem eramIndex_unconfigured {b : Bus} {a : Addr} (h : b.ramSize.bytes = 0) :
    eramIndex b a = .error .eramNotConfigured := if_pos h

theorem eramIndex_beyond {b : Bus} {a : Addr} (h : b.ramSize.bytes ≠ 0) (h' : b.ramSize.bytes ≤ eramOffset b a) :
    eramIndex b a = .error .eramOutOfRange := by rw [eramIndex, if_neg h, if_pos h']

theorem eramIndex_error {b : Bus} {a : Addr} {c : Cause} (h : eramIndex b a = .error c) :
    c = .eramNotConfigured ∨ c = .eramOutOfRange := by
  unfold eramIndex at h
  split at h
  · simp_all
  · split at h <;> simp_all

theorem Run.andThen_ok {r : Run} (h : r.ending = .ok) (k : Bus → Run) :
    r.andThen k = { bus := (k r.bus).bus, events := r.events ++ (k r.bus).events, ending := (k r.bus).ending
                    accesses := r.accesses + (k r.bus).accesses } := by
  simp [Run.andThen, h]

theorem Run.andThen_stop {r : Run} (h : r.ending ≠ .ok) (k : Bus → Run) : r.andThen k = r := by
  unfold Run.andThen
  split <;> simp_all
  all_goals (rename_i hx; cases r; simp_all)

theorem Run.idle_andThen (b : Bus) (k : Bus → Run) : (Run.idle b).andThen k = k b := by
  simp [Run.andThen, Run.idle]

/-- An access with no event before a run: one access more, and nothing else. -/
theorem Run.done_andThen (b : Bus) (k : Bus → Run) :
    (Run.done b).andThen k = { k b with accesses := 1 + (k b).accesses } := by
  simp [Run.andThen, Run.done]

/-! ## The owners' bytes -/

theorem ownerGet_ownerSet (o : Owners) (c d : RegCell) (v : Byte) :
    ownerGet (ownerSet o c v) d = if d = c then v else ownerGet o d := by
  cases c <;> cases d <;> rfl

theorem ownerSet_vram (o : Owners) (c : RegCell) (v : Byte) : (ownerSet o c v).lcd.vram = o.lcd.vram := by
  cases c <;> rfl

theorem ownerSet_oam (o : Owners) (c : RegCell) (v : Byte) : (ownerSet o c v).lcd.oam = o.lcd.oam := by
  cases c <;> rfl

theorem ownerGet_setVram (o : Owners) (i : Nat) (v : Byte) (c : RegCell) :
    ownerGet (ownerSetVram o i v) c = ownerGet o c := by
  cases c <;> rfl

theorem ownerGet_setOam (o : Owners) (i : Nat) (v : Byte) (c : RegCell) :
    ownerGet (ownerSetOam o i v) c = ownerGet o c := by
  cases c <;> rfl

end Sys2Proof.Machine
end

