-- ==== Sys2Proof/Laws/Bank.lean ====
section
/-! SUPPORT. The bank numbers as arithmetic, and that every Bank Controller command keeps them legal
(spec/10_state.md R49). -/

namespace Sys2Proof.Machine

theorem mask5 (n : Nat) : n &&& 31 = n % 32 := Nat.and_two_pow_sub_one_eq_mod n 5

theorem mask2 (n : Nat) : n &&& 3 = n % 4 := Nat.and_two_pow_sub_one_eq_mod n 2

/-- The offset ROMSEL leaves (R204). -/
theorem romOffsetOf_romSelBank (v : Byte) :
    (romOffsetOf (romSelBank v)).toNat = (if v.toNat % 32 = 0 then 1 else v.toNat % 32) * 0x4000 := by
  have hv : (v &&& 0x1F).toNat = v.toNat % 32 := by simp [mask5]
  have hz : (v &&& 0x1F = 0) ↔ v.toNat % 32 = 0 := by rw [← hv, ← BitVec.toNat_inj]; rfl
  have hlt : v.toNat % 32 < 32 := Nat.mod_lt _ (by decide)
  unfold romOffsetOf romSelBank
  by_cases h : v.toNat % 32 = 0
  · rw [if_pos (hz.2 h), if_pos h]; rfl
  · rw [if_neg (fun hc => h (hz.1 hc)), if_neg h, BitVec.toNat_mul, BitVec.toNat_setWidth, hv]
    simp
    omega

/-- The offset HISEL leaves in RomBanking (R206). -/
theorem romOffsetOf_hiSelRomBank (off : Offset) (v : Byte) :
    (romOffsetOf (hiSelRomBank off v)).toNat = (off.toNat / 0x4000 % 32 + 32 * (v.toNat / 16 % 4)) * 0x4000 := by
  have h1 : ((off / 0x4000) &&& 0x1F).toNat = off.toNat / 0x4000 % 32 := by simp [mask5]
  have h2 : ((((v >>> 4) &&& 0x3).setWidth 32 : Offset) <<< (5 : Nat)).toNat = (v.toNat / 16 % 4) <<< 5 := by
    have : v.toNat / 16 % 4 < 4 := Nat.mod_lt _ (by decide)
    simp [mask2, Nat.shiftRight_eq_div_pow, Nat.shiftLeft_eq]
    omega
  have h3 : (hiSelRomBank off v).toNat = off.toNat / 0x4000 % 32 + 32 * (v.toNat / 16 % 4) := by
    simp only [hiSelRomBank]
    rw [BitVec.toNat_or, h1, h2, Nat.or_comm, ← Nat.shiftLeft_add_eq_or_of_lt (Nat.mod_lt _ (by decide)),
      Nat.shiftLeft_eq]
    omega
  have : v.toNat / 16 % 4 < 4 := Nat.mod_lt _ (by decide)
  have : off.toNat / 0x4000 % 32 < 32 := Nat.mod_lt _ (by decide)
  rw [romOffsetOf, BitVec.toNat_mul, h3]
  simp
  omega

/-- The offset HISEL leaves in RamBanking (R207). -/
theorem ramOffsetOf_hiSelRamBank (v : Byte) : (ramOffsetOf (hiSelRamBank v)).toNat = (v.toNat % 4) * 0x2000 := by
  have : v.toNat % 4 < 4 := Nat.mod_lt _ (by decide)
  simp [ramOffsetOf, hiSelRamBank, mask2]
  omega

theorem romBankLegal_iff (c : Bank) : romBankLegal c = true ↔
    c.romBankOffset.toNat % 0x4000 = 0 ∧ 1 ≤ c.romBankOffset.toNat / 0x4000 ∧ c.romBankOffset.toNat / 0x4000 ≤ 127 ∧
    c.romBankOffset.toNat / 0x4000 % 32 ≠ 0 := by
  simp only [romBankLegal, Bool.and_eq_true, decide_eq_true_eq]
  simp only [romBank, and_assoc]

theorem ramBankLegal_iff (c : Bank) : ramBankLegal c = true ↔
    c.ramBankOffset.toNat = 0 ∨ c.ramBankOffset.toNat = 0x2000 ∨ c.ramBankOffset.toNat = 0x4000 ∨
    c.ramBankOffset.toNat = 0x6000 := by
  simp [ramBankLegal]

theorem bankRomSelect_legal (b : Bus) (v : Byte) : romBankLegal (bankRomSelect b v).bc = true := by
  have h : (bankRomSelect b v).bc.romBankOffset = romOffsetOf (romSelBank v) := rfl
  rw [romBankLegal_iff, h, romOffsetOf_romSelBank]
  split <;> omega

theorem bankHighSelect_romLegal (b : Bus) (v : Byte) (h : romBankLegal b.bc = true) :
    romBankLegal (bankHighSelect b v).bc = true := by
  unfold bankHighSelect
  split
  · rw [romBankLegal_iff] at h ⊢
    simp only [Bus.withBc_bc, romOffsetOf_hiSelRomBank]
    omega
  · exact h

theorem bankHighSelect_ramLegal (b : Bus) (v : Byte) (h : ramBankLegal b.bc = true) :
    ramBankLegal (bankHighSelect b v).bc = true := by
  unfold bankHighSelect
  split
  · exact h
  · rw [ramBankLegal_iff]
    simp only [Bus.withBc_bc, ramOffsetOf_hiSelRamBank]
    omega

/-- In a banked mode the command is made, in RomOnly nothing happens (R200). -/
theorem bankCommand_banked {b : Bus} (h : b.bc.mode ≠ .romOnly) (k : Run) : bankCommand b k = k := by
  unfold bankCommand; split <;> simp_all

theorem bankCommand_romOnly {b : Bus} (h : b.bc.mode = .romOnly) (k : Run) : bankCommand b k = .done b := by
  simp [bankCommand, h]

/-- What a command of 0x0000 to 0x7FFF can do: nothing, or replace the bank registers in a banked mode by legal ones. -/
theorem bankCommand_cases {b : Bus} {v : Byte} {b' : Bus} (k : b' = bankRamEnable b v ∨ b' = bankRomSelect b v ∨
      b' = bankHighSelect b v ∨ b' = bankModeSelect b v) :
    bankCommand b (.done b') = .done b ∨
    ∃ c, bankCommand b (.done b') = .done (b.withBc c) ∧ b.bc.mode ≠ .romOnly ∧ c.mode = b.bc.mode ∧
      (romBankLegal b.bc = true → romBankLegal c = true) ∧ (ramBankLegal b.bc = true → ramBankLegal c = true) := by
  by_cases h : b.bc.mode = .romOnly
  · exact .inl (bankCommand_romOnly h _)
  · refine .inr ⟨b'.bc, ?_⟩
    rw [bankCommand_banked h]
    rcases k with rfl | rfl | rfl | rfl
    · exact ⟨rfl, h, rfl, fun h => h, fun h => h⟩
    · exact ⟨rfl, h, rfl, fun _ => bankRomSelect_legal b v, fun h => h⟩
    · refine ⟨?_, h, ?_, bankHighSelect_romLegal b v, bankHighSelect_ramLegal b v⟩ <;>
        (unfold bankHighSelect; split <;> rfl)
    · exact ⟨rfl, h, rfl, fun h => h, fun h => h⟩

end Sys2Proof.Machine
end

