-- ==== Sys2Proof/Laws/Decode.lean ====
section
/-! SUPPORT. The fields of a REQ word read back, and how the decoder's row is found. -/

namespace Sys2Proof.Laws

/-- The three fields of a REQ word, as one number. -/
theorem reqWord_toNat (op : BitVec 3) (a : Addr) (d : Word) :
    (reqWord op a d).toNat = op.toNat * 4294967296 + a.toNat * 65536 + d.toNat := by
  have h2 : a.toNat < 2 ^ 16 := a.isLt
  have h3 : d.toNat < 2 ^ 16 := d.isLt
  simp only [reqWord, BitVec.toNat_append]
  rw [← Nat.shiftLeft_add_eq_or_of_lt h3, ← Nat.shiftLeft_add_eq_or_of_lt h2, Nat.shiftLeft_eq, Nat.shiftLeft_eq]
  omega

/-- The key is op above addr. -/
theorem reqKey_toNat (op : BitVec 3) (a : Addr) (d : Word) :
    (reqKey (reqWord op a d)).toNat = op.toNat * 65536 + a.toNat := by
  have h1 := op.isLt
  have h2 := a.isLt
  have h3 := d.isLt
  rw [reqKey, BitVec.extractLsb'_toNat, reqWord_toNat, Nat.shiftRight_eq_div_pow]
  omega

theorem reqAddr_reqWord (op : BitVec 3) (a : Addr) (d : Word) : reqAddr (reqWord op a d) = a := by
  have h2 := a.isLt
  have h3 := d.isLt
  apply BitVec.eq_of_toNat_eq
  rw [reqAddr, BitVec.extractLsb'_toNat, reqWord_toNat, Nat.shiftRight_eq_div_pow]
  omega

theorem reqData_reqWord (op : BitVec 3) (a : Addr) (d : Word) : reqData (reqWord op a d) = d := by
  have h2 := a.isLt
  have h3 := d.isLt
  apply BitVec.eq_of_toNat_eq
  rw [reqData, BitVec.extractLsb'_toNat, reqWord_toNat, Nat.shiftRight_eq_div_pow]
  omega

theorem dataByte_setWidth (v : Byte) : dataByte (v.setWidth 16) = v := by
  apply BitVec.eq_of_toNat_eq
  have := v.isLt
  simp [dataByte]
  omega

theorem beq_false_of {m n : Nat} (h : m ≠ n) : (m == n) = false := by simpa using h

theorem beq_true_of {m n : Nat} (h : m = n) : (m == n) = true := by simpa using h

/-- A REQ word's instruction is the first row whose bits its op and address have. -/
theorem decodeReq_reqWord {b : Bool} {op : BitVec 3} {a : Addr} {d : Word} {r : Row}
    (h : reqTable.find? (fun r => ((op.toNat * 65536 + a.toNat) / 2 ^ r.lo == r.value) && (!r.overlayOnly || b)) = some r) :
    decodeReq b (reqWord op a d) = .ok (r.build a d) := by
  have : reqTable.find? (fun r => r.selects b (reqKey (reqWord op a d))) = some r := by
    rw [← h]; simp only [Row.selects, reqKey_toNat, Nat.shiftRight_eq_div_pow]
  simp [decodeReq, this, reqAddr_reqWord, reqData_reqWord]

/-- `decode` of a WR8 word, its data byte read back. -/
theorem decode_wr8Word {b : Bool} {a : Addr} {v : Byte} {f : Byte → Instr} {lo value : Nat}
    (h : reqTable.find? (fun r => ((1 * 65536 + a.toNat) / 2 ^ r.lo == r.value) && (!r.overlayOnly || b)) =
      some ⟨lo, value, false, fun _ d => f (dataByte d)⟩) :
    decode b (wr8Word a v) = .ok (f v) := by
  have hd := decodeReq_reqWord (op := 1) (d := v.setWidth 16) h
  simp only [dataByte_setWidth] at hd
  exact hd

end Sys2Proof.Laws
end

