-- ==== Sys2Proof/Laws/Dispatch.lean ====
section
/-! SUPPORT. The rows of the opcode table and the two byte dispatchers: a well-formed RD8 row is `read8` at its
address, a well-formed WR8 row `write8`; and the shape of every instruction. -/

namespace Sys2Proof.Machine

open Sys2Proof.Laws

/-! ## Windows -/

theorem within_iff {a : Addr} {lo hi : Nat} : a.within lo hi = true ↔ lo ≤ a.toNat ∧ a.toNat ≤ hi := by
  simp [Addr.within]

/-- The addresses of a window (R70). -/
@[reducible] def Window.holds (k : Window) (a : Addr) : Prop :=
  match k with
  | .rom0 => a.toNat ≤ 0x3FFF
  | .romx => 0x4000 ≤ a.toNat ∧ a.toNat ≤ 0x7FFF
  | .vram => 0x8000 ≤ a.toNat ∧ a.toNat ≤ 0x9FFF
  | .eram => 0xA000 ≤ a.toNat ∧ a.toNat ≤ 0xBFFF
  | .wram => 0xC000 ≤ a.toNat ∧ a.toNat ≤ 0xDFFF
  | .echo => 0xE000 ≤ a.toNat ∧ a.toNat ≤ 0xFDFF
  | .oam => 0xFE00 ≤ a.toNat ∧ a.toNat ≤ 0xFE9F
  | .unmapped => 0xFEA0 ≤ a.toNat ∧ a.toNat ≤ 0xFEFF
  | .io => 0xFF00 ≤ a.toNat ∧ a.toNat ≤ 0xFF7F
  | .zp => 0xFF80 ≤ a.toNat ∧ a.toNat ≤ 0xFFFE
  | .ie => a.toNat = 0xFFFF

/-- Every address is in the range of its window (R70, R71). -/
theorem windowOf_holds (a : Addr) : (windowOf a).holds a := by
  have := a.isLt
  unfold windowOf
  repeat' split
  all_goals simp only [Window.holds]; omega

/-- The windows are disjoint: an address in a window's range is in that window (R70). -/
theorem windowOf_eq {a : Addr} {k : Window} (h : k.holds a) : windowOf a = k := by
  have g := windowOf_holds a
  generalize windowOf a = j at g
  cases j <;> cases k <;> first | rfl | (simp only [Window.holds] at g h; omega)

/-- The case split over an address: its window and the range that goes with it. -/
theorem windowOf_cases (a : Addr) : ∃ k : Window, windowOf a = k ∧ k.holds a := ⟨_, rfl, windowOf_holds a⟩

theorem windowOf_rom0 {a : Addr} (h : a.toNat ≤ 0x3FFF) : windowOf a = .rom0 := windowOf_eq h

theorem windowOf_romx {a : Addr} (h : 0x4000 ≤ a.toNat) (h' : a.toNat ≤ 0x7FFF) : windowOf a = .romx :=
  windowOf_eq ⟨h, h'⟩

theorem windowOf_vram {a : Addr} (h : 0x8000 ≤ a.toNat) (h' : a.toNat ≤ 0x9FFF) : windowOf a = .vram :=
  windowOf_eq ⟨h, h'⟩

theorem windowOf_eram {a : Addr} (h : 0xA000 ≤ a.toNat) (h' : a.toNat ≤ 0xBFFF) : windowOf a = .eram :=
  windowOf_eq ⟨h, h'⟩

theorem windowOf_wram {a : Addr} (h : 0xC000 ≤ a.toNat) (h' : a.toNat ≤ 0xDFFF) : windowOf a = .wram :=
  windowOf_eq ⟨h, h'⟩

theorem windowOf_echo {a : Addr} (h : 0xE000 ≤ a.toNat) (h' : a.toNat ≤ 0xFDFF) : windowOf a = .echo :=
  windowOf_eq ⟨h, h'⟩

theorem windowOf_oam {a : Addr} (h : 0xFE00 ≤ a.toNat) (h' : a.toNat ≤ 0xFE9F) : windowOf a = .oam :=
  windowOf_eq ⟨h, h'⟩

theorem windowOf_unmapped {a : Addr} (h : 0xFEA0 ≤ a.toNat) (h' : a.toNat ≤ 0xFEFF) : windowOf a = .unmapped :=
  windowOf_eq ⟨h, h'⟩

theorem windowOf_zp {a : Addr} (h : 0xFF80 ≤ a.toNat) (h' : a.toNat ≤ 0xFFFE) : windowOf a = .zp := windowOf_eq ⟨h, h'⟩

theorem windowOf_io {a : Addr} (h : 0xFF00 ≤ a.toNat) (h' : a.toNat ≤ 0xFF7F) : windowOf a = .io := windowOf_eq ⟨h, h'⟩

theorem windowOf_ie {a : Addr} (h : a.toNat = 0xFFFF) : windowOf a = .ie := windowOf_eq h

/-- An unimplemented address is in the I/O window and in no row of the router's table (R131, R268). -/
theorem ioRegOf_unimplemented {a : Addr} (h : a.isUnimplemented = true) : windowOf a = .io ∧ ioRegOf a = none := by
  simp only [Addr.isUnimplemented, Bool.and_eq_true, within_iff, Bool.not_eq_true'] at h
  refine ⟨windowOf_io h.1.1 h.1.2, ?_⟩
  simp [listedIo] at h
  simp [ioRegOf, ioTable, List.lookup_cons, beq_false_of, h]

/-! ## Words -/

theorem reqOp_reqWord (op : BitVec 3) (a : Addr) (d : Word) : reqOp (reqWord op a d) = op := by
  have h1 := op.isLt
  have h2 := a.isLt
  have h3 := d.isLt
  apply BitVec.eq_of_toNat_eq
  rw [reqOp, BitVec.extractLsb'_toNat, reqWord_toNat, Nat.shiftRight_eq_div_pow]
  omega

theorem rd8Word_inj {a a' : Addr} (h : rd8Word a = rd8Word a') : a = a' := by
  have := congrArg reqAddr (PortWord.req.inj h)
  simpa only [reqAddr_reqWord] using this

theorem wr8Word_inj {a a' : Addr} {v v' : Byte} (h : wr8Word a v = wr8Word a' v') : a = a' ∧ v = v' := by
  have h1 := congrArg reqAddr (PortWord.req.inj h)
  have h2 := congrArg (fun w => dataByte (reqData w)) (PortWord.req.inj h)
  simp only [reqAddr_reqWord, reqData_reqWord, dataByte_setWidth] at h1 h2
  exact ⟨h1, h2⟩

theorem reqWord_op_ne {op op' : BitVec 3} {a a' : Addr} {d d' : Word} (h : op ≠ op') : reqWord op a d ≠ reqWord op' a' d' :=
  fun hw => h (by have := congrArg reqOp hw; simpa only [reqOp_reqWord] using this)

/-! ## The shape of every instruction -/

/-- An RD8, a WR8, or one of the other twelve. -/
theorem Instr.shape (i : Instr) :
    (∃ a, encode i = rd8Word a) ∨ (∃ a v, encode i = wr8Word a v) ∨ (∃ a, i = .rd16 a) ∨ (∃ a w, i = .wr16 a w) ∨
    (∃ f, i = .setbios f) ∨ i = .reserved5 ∨ i = .reserved6 ∨ i = .reserved7 ∨
    i = .attachDisplay ∨ i = .attachTimer ∨ i = .attachIrq ∨ i = .attachKbd ∨
    ∃ rom m r, i = .construct rom m r := by
  cases i
  case rd8IoFF00 => exact .inl ⟨_, rfl⟩
  case rd8IoFF04 => exact .inl ⟨_, rfl⟩
  case rd8IoFF05 => exact .inl ⟨_, rfl⟩
  case rd8IoFF06 => exact .inl ⟨_, rfl⟩
  case rd8IoFF07 => exact .inl ⟨_, rfl⟩
  case rd8IoFF0F => exact .inl ⟨_, rfl⟩
  case rd8IoFF40 => exact .inl ⟨_, rfl⟩
  case rd8IoFF41 => exact .inl ⟨_, rfl⟩
  case rd8IoFF42 => exact .inl ⟨_, rfl⟩
  case rd8IoFF43 => exact .inl ⟨_, rfl⟩
  case rd8IoFF44 => exact .inl ⟨_, rfl⟩
  case rd8IoFF45 => exact .inl ⟨_, rfl⟩
  case rd8IoFF46 => exact .inl ⟨_, rfl⟩
  case rd8IoFF47 => exact .inl ⟨_, rfl⟩
  case rd8IoFF48 => exact .inl ⟨_, rfl⟩
  case rd8IoFF49 => exact .inl ⟨_, rfl⟩
  case rd8IoFF50 => exact .inl ⟨_, rfl⟩
  case rd8IoFFFF => exact .inl ⟨_, rfl⟩
  case wr8IoFF00 v => exact .inr (.inl ⟨_, _, rfl⟩)
  case wr8IoFF04 v => exact .inr (.inl ⟨_, _, rfl⟩)
  case wr8IoFF05 v => exact .inr (.inl ⟨_, _, rfl⟩)
  case wr8IoFF06 v => exact .inr (.inl ⟨_, _, rfl⟩)
  case wr8IoFF07 v => exact .inr (.inl ⟨_, _, rfl⟩)
  case wr8IoFF0F v => exact .inr (.inl ⟨_, _, rfl⟩)
  case wr8IoFF40 v => exact .inr (.inl ⟨_, _, rfl⟩)
  case wr8IoFF41 v => exact .inr (.inl ⟨_, _, rfl⟩)
  case wr8IoFF42 v => exact .inr (.inl ⟨_, _, rfl⟩)
  case wr8IoFF43 v => exact .inr (.inl ⟨_, _, rfl⟩)
  case wr8IoFF44 v => exact .inr (.inl ⟨_, _, rfl⟩)
  case wr8IoFF45 v => exact .inr (.inl ⟨_, _, rfl⟩)
  case wr8IoFF46 v => exact .inr (.inl ⟨_, _, rfl⟩)
  case wr8IoFF47 v => exact .inr (.inl ⟨_, _, rfl⟩)
  case wr8IoFF48 v => exact .inr (.inl ⟨_, _, rfl⟩)
  case wr8IoFF49 v => exact .inr (.inl ⟨_, _, rfl⟩)
  case wr8IoFF50 v => exact .inr (.inl ⟨_, _, rfl⟩)
  case wr8IoFFFF v => exact .inr (.inl ⟨_, _, rfl⟩)
  case rd8Zp a => exact .inl ⟨_, rfl⟩
  case rd8IoUnimpl a => exact .inl ⟨_, rfl⟩
  case rd8UnmappedA a => exact .inl ⟨_, rfl⟩
  case rd8UnmappedB a => exact .inl ⟨_, rfl⟩
  case rd8Oam a => exact .inl ⟨_, rfl⟩
  case rd8Echo a => exact .inl ⟨_, rfl⟩
  case rd8Wram a => exact .inl ⟨_, rfl⟩
  case rd8Eram a => exact .inl ⟨_, rfl⟩
  case rd8Vram a => exact .inl ⟨_, rfl⟩
  case rd8Bios a => exact .inl ⟨_, rfl⟩
  case rd8Rom0 a => exact .inl ⟨_, rfl⟩
  case rd8Romx a => exact .inl ⟨_, rfl⟩
  case wr8Zp a v => exact .inr (.inl ⟨_, _, rfl⟩)
  case wr8IoUnimpl a v => exact .inr (.inl ⟨_, _, rfl⟩)
  case wr8UnmappedA a v => exact .inr (.inl ⟨_, _, rfl⟩)
  case wr8UnmappedB a v => exact .inr (.inl ⟨_, _, rfl⟩)
  case wr8Oam a v => exact .inr (.inl ⟨_, _, rfl⟩)
  case wr8Echo a v => exact .inr (.inl ⟨_, _, rfl⟩)
  case wr8Wram a v => exact .inr (.inl ⟨_, _, rfl⟩)
  case wr8Eram a v => exact .inr (.inl ⟨_, _, rfl⟩)
  case wr8Vram a v => exact .inr (.inl ⟨_, _, rfl⟩)
  case bcNone a v => exact .inr (.inl ⟨_, _, rfl⟩)
  case bcRamen a v => exact .inr (.inl ⟨_, _, rfl⟩)
  case bcRomsel a v => exact .inr (.inl ⟨_, _, rfl⟩)
  case bcHisel a v => exact .inr (.inl ⟨_, _, rfl⟩)
  case bcModesel a v => exact .inr (.inl ⟨_, _, rfl⟩)
  case rd16 a => exact .inr (.inr (.inl ⟨_, rfl⟩))
  case wr16 a w => exact .inr (.inr (.inr (.inl ⟨_, _, rfl⟩)))
  case setbios flag => exact .inr (.inr (.inr (.inr (.inl ⟨_, rfl⟩))))
  case reserved5 => exact .inr (.inr (.inr (.inr (.inr (.inl rfl)))))
  case reserved6 => exact .inr (.inr (.inr (.inr (.inr (.inr (.inl rfl))))))
  case reserved7 => exact .inr (.inr (.inr (.inr (.inr (.inr (.inr (.inl rfl)))))))
  case attachDisplay => exact .inr (.inr (.inr (.inr (.inr (.inr (.inr (.inr (.inl rfl))))))))
  case attachTimer => exact .inr (.inr (.inr (.inr (.inr (.inr (.inr (.inr (.inr (.inl rfl)))))))))
  case attachIrq => exact .inr (.inr (.inr (.inr (.inr (.inr (.inr (.inr (.inr (.inr (.inl rfl))))))))))
  case attachKbd => exact .inr (.inr (.inr (.inr (.inr (.inr (.inr (.inr (.inr (.inr (.inr (.inl rfl)))))))))))
  case construct rom mbcCode ramCode => exact .inr (.inr (.inr (.inr (.inr (.inr (.inr (.inr (.inr (.inr (.inr (.inr (⟨_, _, _, rfl⟩))))))))))))

/-! ## Rows and dispatchers -/

/-- A well-formed RD8 row is the byte read at its address (R161). -/
theorem exec_rd8 {i : Instr} {a : Addr} (h : encode i = rd8Word a) (hw : i.wf = true) (s : State) :
    exec i s = .next (s.readTxn fun b => read8 b a) := by
  cases i
  case rd8IoFF00 =>
    obtain rfl := rd8Word_inj h; rfl
  case rd8IoFF04 =>
    obtain rfl := rd8Word_inj h; rfl
  case rd8IoFF05 =>
    obtain rfl := rd8Word_inj h; rfl
  case rd8IoFF06 =>
    obtain rfl := rd8Word_inj h; rfl
  case rd8IoFF07 =>
    obtain rfl := rd8Word_inj h; rfl
  case rd8IoFF0F =>
    obtain rfl := rd8Word_inj h; rfl
  case rd8IoFF40 =>
    obtain rfl := rd8Word_inj h; rfl
  case rd8IoFF41 =>
    obtain rfl := rd8Word_inj h; rfl
  case rd8IoFF42 =>
    obtain rfl := rd8Word_inj h; rfl
  case rd8IoFF43 =>
    obtain rfl := rd8Word_inj h; rfl
  case rd8IoFF44 =>
    obtain rfl := rd8Word_inj h; rfl
  case rd8IoFF45 =>
    obtain rfl := rd8Word_inj h; rfl
  case rd8IoFF46 =>
    obtain rfl := rd8Word_inj h; rfl
  case rd8IoFF47 =>
    obtain rfl := rd8Word_inj h; rfl
  case rd8IoFF48 =>
    obtain rfl := rd8Word_inj h; rfl
  case rd8IoFF49 =>
    obtain rfl := rd8Word_inj h; rfl
  case rd8IoFF50 =>
    obtain rfl := rd8Word_inj h; rfl
  case rd8IoFFFF =>
    obtain rfl := rd8Word_inj h; rfl
  case wr8IoFF00 v => exact absurd (PortWord.req.inj h) (reqWord_op_ne (by decide))
  case wr8IoFF04 v => exact absurd (PortWord.req.inj h) (reqWord_op_ne (by decide))
  case wr8IoFF05 v => exact absurd (PortWord.req.inj h) (reqWord_op_ne (by decide))
  case wr8IoFF06 v => exact absurd (PortWord.req.inj h) (reqWord_op_ne (by decide))
  case wr8IoFF07 v => exact absurd (PortWord.req.inj h) (reqWord_op_ne (by decide))
  case wr8IoFF0F v => exact absurd (PortWord.req.inj h) (reqWord_op_ne (by decide))
  case wr8IoFF40 v => exact absurd (PortWord.req.inj h) (reqWord_op_ne (by decide))
  case wr8IoFF41 v => exact absurd (PortWord.req.inj h) (reqWord_op_ne (by decide))
  case wr8IoFF42 v => exact absurd (PortWord.req.inj h) (reqWord_op_ne (by decide))
  case wr8IoFF43 v => exact absurd (PortWord.req.inj h) (reqWord_op_ne (by decide))
  case wr8IoFF44 v => exact absurd (PortWord.req.inj h) (reqWord_op_ne (by decide))
  case wr8IoFF45 v => exact absurd (PortWord.req.inj h) (reqWord_op_ne (by decide))
  case wr8IoFF46 v => exact absurd (PortWord.req.inj h) (reqWord_op_ne (by decide))
  case wr8IoFF47 v => exact absurd (PortWord.req.inj h) (reqWord_op_ne (by decide))
  case wr8IoFF48 v => exact absurd (PortWord.req.inj h) (reqWord_op_ne (by decide))
  case wr8IoFF49 v => exact absurd (PortWord.req.inj h) (reqWord_op_ne (by decide))
  case wr8IoFF50 v => exact absurd (PortWord.req.inj h) (reqWord_op_ne (by decide))
  case wr8IoFFFF v => exact absurd (PortWord.req.inj h) (reqWord_op_ne (by decide))
  case rd8Zp a =>
    obtain rfl := rd8Word_inj h
    have hw := within_iff.1 hw
    simp [exec, execRd8Zp, read8, windowOf_zp (a := a) (by omega) (by omega)]
  case rd8IoUnimpl a =>
    obtain rfl := rd8Word_inj h
    have h := ioRegOf_unimplemented hw
    simp [exec, execRd8IoUnimpl, read8, ioRead, h.1, h.2]
  case rd8UnmappedA a =>
    obtain rfl := rd8Word_inj h
    have hw := within_iff.1 hw
    simp [exec, execRd8UnmappedA, read8, windowOf_unmapped (a := a) (by omega) (by omega)]
  case rd8UnmappedB a =>
    obtain rfl := rd8Word_inj h
    have hw := within_iff.1 hw
    simp [exec, execRd8UnmappedB, read8, windowOf_unmapped (a := a) (by omega) (by omega)]
  case rd8Oam a =>
    obtain rfl := rd8Word_inj h
    have hw := within_iff.1 hw
    simp [exec, execRd8Oam, read8, windowOf_oam (a := a) (by omega) (by omega)]
  case rd8Echo a =>
    obtain rfl := rd8Word_inj h
    have hw := within_iff.1 hw
    simp [exec, execRd8Echo, read8, windowOf_echo (a := a) (by omega) (by omega)]
  case rd8Wram a =>
    obtain rfl := rd8Word_inj h
    have hw := within_iff.1 hw
    simp [exec, execRd8Wram, read8, windowOf_wram (a := a) (by omega) (by omega)]
  case rd8Eram a =>
    obtain rfl := rd8Word_inj h
    have hw := within_iff.1 hw
    simp [exec, execRd8Eram, read8, windowOf_eram (a := a) (by omega) (by omega)]
  case rd8Vram a =>
    obtain rfl := rd8Word_inj h
    have hw := within_iff.1 hw
    simp [exec, execRd8Vram, read8, windowOf_vram (a := a) (by omega) (by omega)]
  case rd8Bios a =>
    obtain rfl := rd8Word_inj h
    have hw := within_iff.1 hw
    simp [exec, execRd8Bios, read8, windowOf_rom0 (a := a) (by omega)]
  case rd8Rom0 a =>
    obtain rfl := rd8Word_inj h
    have hw := within_iff.1 hw
    simp [exec, execRd8Rom0, read8, windowOf_rom0 (a := a) (by omega)]
  case rd8Romx a =>
    obtain rfl := rd8Word_inj h
    have hw := within_iff.1 hw
    simp [exec, execRd8Romx, read8, windowOf_romx (a := a) (by omega) (by omega)]
  case wr8Zp a v => exact absurd (PortWord.req.inj h) (reqWord_op_ne (by decide))
  case wr8IoUnimpl a v => exact absurd (PortWord.req.inj h) (reqWord_op_ne (by decide))
  case wr8UnmappedA a v => exact absurd (PortWord.req.inj h) (reqWord_op_ne (by decide))
  case wr8UnmappedB a v => exact absurd (PortWord.req.inj h) (reqWord_op_ne (by decide))
  case wr8Oam a v => exact absurd (PortWord.req.inj h) (reqWord_op_ne (by decide))
  case wr8Echo a v => exact absurd (PortWord.req.inj h) (reqWord_op_ne (by decide))
  case wr8Wram a v => exact absurd (PortWord.req.inj h) (reqWord_op_ne (by decide))
  case wr8Eram a v => exact absurd (PortWord.req.inj h) (reqWord_op_ne (by decide))
  case wr8Vram a v => exact absurd (PortWord.req.inj h) (reqWord_op_ne (by decide))
  case bcNone a v => exact absurd (PortWord.req.inj h) (reqWord_op_ne (by decide))
  case bcRamen a v => exact absurd (PortWord.req.inj h) (reqWord_op_ne (by decide))
  case bcRomsel a v => exact absurd (PortWord.req.inj h) (reqWord_op_ne (by decide))
  case bcHisel a v => exact absurd (PortWord.req.inj h) (reqWord_op_ne (by decide))
  case bcModesel a v => exact absurd (PortWord.req.inj h) (reqWord_op_ne (by decide))
  case rd16 a => exact absurd (PortWord.req.inj h) (reqWord_op_ne (by decide))
  case wr16 a w => exact absurd (PortWord.req.inj h) (reqWord_op_ne (by decide))
  case setbios flag => exact absurd (PortWord.req.inj h) (reqWord_op_ne (by decide))
  case reserved5 => exact absurd (PortWord.req.inj h) (reqWord_op_ne (by decide))
  case reserved6 => exact absurd (PortWord.req.inj h) (reqWord_op_ne (by decide))
  case reserved7 => exact absurd (PortWord.req.inj h) (reqWord_op_ne (by decide))
  case attachDisplay => exact nomatch h
  case attachTimer => exact nomatch h
  case attachIrq => exact nomatch h
  case attachKbd => exact nomatch h
  case construct rom mbcCode ramCode => exact nomatch h

/-- `bankCtlWrite` by its ranges (R200). -/
theorem bankCtlWrite_none {b : Bus} {a : Addr} {v : Byte} (h : a.toNat ≤ 0x0FFF) : bankCtlWrite b a v = .done b := by
  have : nibble a = 0 := by unfold nibble; omega
  simp only [bankCtlWrite, this, bankCommand]; split <;> rfl

theorem bankCtlWrite_ramen {b : Bus} {a : Addr} {v : Byte} (h : 0x1000 ≤ a.toNat) (h' : a.toNat ≤ 0x1FFF) :
    bankCtlWrite b a v = bankCommand b (.done (bankRamEnable b v)) := by
  have : nibble a = 1 := by unfold nibble; omega
  simp only [bankCtlWrite, this]

theorem bankCtlWrite_romsel {b : Bus} {a : Addr} {v : Byte} (h : 0x2000 ≤ a.toNat) (h' : a.toNat ≤ 0x3FFF) :
    bankCtlWrite b a v = bankCommand b (.done (bankRomSelect b v)) := by
  have : nibble a = 2 ∨ nibble a = 3 := by unfold nibble; omega
  rcases this with h | h <;> simp only [bankCtlWrite, h]

theorem bankCtlWrite_hisel {b : Bus} {a : Addr} {v : Byte} (h : 0x4000 ≤ a.toNat) (h' : a.toNat ≤ 0x5FFF) :
    bankCtlWrite b a v = bankCommand b (.done (bankHighSelect b v)) := by
  have : nibble a = 4 ∨ nibble a = 5 := by unfold nibble; omega
  rcases this with h | h <;> simp only [bankCtlWrite, h]

theorem bankCtlWrite_modesel {b : Bus} {a : Addr} {v : Byte} (h : 0x6000 ≤ a.toNat) (h' : a.toNat ≤ 0x7FFF) :
    bankCtlWrite b a v = bankCommand b (.done (bankModeSelect b v)) := by
  have : nibble a = 6 ∨ nibble a = 7 := by unfold nibble; omega
  rcases this with h | h <;> simp only [bankCtlWrite, h]

theorem bankCtlWrite_store {b : Bus} {a : Addr} {v : Byte} (h : 0xA000 ≤ a.toNat) (h' : a.toNat ≤ 0xBFFF) :
    bankCtlWrite b a v = bankCommand b (bankStore b a v) := by
  have : nibble a = 10 ∨ nibble a = 11 := by unfold nibble; omega
  rcases this with h | h <;> simp only [bankCtlWrite, h]

/-- A well-formed WR8 row is the byte write at its address (R175). -/
theorem exec_wr8 {i : Instr} {a : Addr} {v : Byte} (h : encode i = wr8Word a v) (hw : i.wf = true) (s : State) :
    exec i s = .next (s.writeTxn fun b => write8 s.cfg b a v) := by
  cases i
  case rd8IoFF00 => exact absurd (PortWord.req.inj h) (reqWord_op_ne (by decide))
  case rd8IoFF04 => exact absurd (PortWord.req.inj h) (reqWord_op_ne (by decide))
  case rd8IoFF05 => exact absurd (PortWord.req.inj h) (reqWord_op_ne (by decide))
  case rd8IoFF06 => exact absurd (PortWord.req.inj h) (reqWord_op_ne (by decide))
  case rd8IoFF07 => exact absurd (PortWord.req.inj h) (reqWord_op_ne (by decide))
  case rd8IoFF0F => exact absurd (PortWord.req.inj h) (reqWord_op_ne (by decide))
  case rd8IoFF40 => exact absurd (PortWord.req.inj h) (reqWord_op_ne (by decide))
  case rd8IoFF41 => exact absurd (PortWord.req.inj h) (reqWord_op_ne (by decide))
  case rd8IoFF42 => exact absurd (PortWord.req.inj h) (reqWord_op_ne (by decide))
  case rd8IoFF43 => exact absurd (PortWord.req.inj h) (reqWord_op_ne (by decide))
  case rd8IoFF44 => exact absurd (PortWord.req.inj h) (reqWord_op_ne (by decide))
  case rd8IoFF45 => exact absurd (PortWord.req.inj h) (reqWord_op_ne (by decide))
  case rd8IoFF46 => exact absurd (PortWord.req.inj h) (reqWord_op_ne (by decide))
  case rd8IoFF47 => exact absurd (PortWord.req.inj h) (reqWord_op_ne (by decide))
  case rd8IoFF48 => exact absurd (PortWord.req.inj h) (reqWord_op_ne (by decide))
  case rd8IoFF49 => exact absurd (PortWord.req.inj h) (reqWord_op_ne (by decide))
  case rd8IoFF50 => exact absurd (PortWord.req.inj h) (reqWord_op_ne (by decide))
  case rd8IoFFFF => exact absurd (PortWord.req.inj h) (reqWord_op_ne (by decide))
  case wr8IoFF00 v =>
    obtain ⟨rfl, rfl⟩ := wr8Word_inj h; rfl
  case wr8IoFF04 v =>
    obtain ⟨rfl, rfl⟩ := wr8Word_inj h; rfl
  case wr8IoFF05 v =>
    obtain ⟨rfl, rfl⟩ := wr8Word_inj h; rfl
  case wr8IoFF06 v =>
    obtain ⟨rfl, rfl⟩ := wr8Word_inj h; rfl
  case wr8IoFF07 v =>
    obtain ⟨rfl, rfl⟩ := wr8Word_inj h; rfl
  case wr8IoFF0F v =>
    obtain ⟨rfl, rfl⟩ := wr8Word_inj h; rfl
  case wr8IoFF40 v =>
    obtain ⟨rfl, rfl⟩ := wr8Word_inj h; rfl
  case wr8IoFF41 v =>
    obtain ⟨rfl, rfl⟩ := wr8Word_inj h; rfl
  case wr8IoFF42 v =>
    obtain ⟨rfl, rfl⟩ := wr8Word_inj h; rfl
  case wr8IoFF43 v =>
    obtain ⟨rfl, rfl⟩ := wr8Word_inj h; rfl
  case wr8IoFF44 v =>
    obtain ⟨rfl, rfl⟩ := wr8Word_inj h; rfl
  case wr8IoFF45 v =>
    obtain ⟨rfl, rfl⟩ := wr8Word_inj h; rfl
  case wr8IoFF46 v =>
    obtain ⟨rfl, rfl⟩ := wr8Word_inj h; rfl
  case wr8IoFF47 v =>
    obtain ⟨rfl, rfl⟩ := wr8Word_inj h; rfl
  case wr8IoFF48 v =>
    obtain ⟨rfl, rfl⟩ := wr8Word_inj h; rfl
  case wr8IoFF49 v =>
    obtain ⟨rfl, rfl⟩ := wr8Word_inj h; rfl
  case wr8IoFF50 v =>
    obtain ⟨rfl, rfl⟩ := wr8Word_inj h; rfl
  case wr8IoFFFF v =>
    obtain ⟨rfl, rfl⟩ := wr8Word_inj h; rfl
  case rd8Zp a => exact absurd (PortWord.req.inj h) (reqWord_op_ne (by decide))
  case rd8IoUnimpl a => exact absurd (PortWord.req.inj h) (reqWord_op_ne (by decide))
  case rd8UnmappedA a => exact absurd (PortWord.req.inj h) (reqWord_op_ne (by decide))
  case rd8UnmappedB a => exact absurd (PortWord.req.inj h) (reqWord_op_ne (by decide))
  case rd8Oam a => exact absurd (PortWord.req.inj h) (reqWord_op_ne (by decide))
  case rd8Echo a => exact absurd (PortWord.req.inj h) (reqWord_op_ne (by decide))
  case rd8Wram a => exact absurd (PortWord.req.inj h) (reqWord_op_ne (by decide))
  case rd8Eram a => exact absurd (PortWord.req.inj h) (reqWord_op_ne (by decide))
  case rd8Vram a => exact absurd (PortWord.req.inj h) (reqWord_op_ne (by decide))
  case rd8Bios a => exact absurd (PortWord.req.inj h) (reqWord_op_ne (by decide))
  case rd8Rom0 a => exact absurd (PortWord.req.inj h) (reqWord_op_ne (by decide))
  case rd8Romx a => exact absurd (PortWord.req.inj h) (reqWord_op_ne (by decide))
  case wr8Zp a v =>
    obtain ⟨rfl, rfl⟩ := wr8Word_inj h
    have hw := within_iff.1 hw
    simp [exec, execWr8Zp, write8, write8With, windowOf_zp (a := a) (by omega) (by omega)]
  case wr8IoUnimpl a v =>
    obtain ⟨rfl, rfl⟩ := wr8Word_inj h
    have h := ioRegOf_unimplemented hw
    simp [exec, execWr8IoUnimpl, write8, write8With, ioWrite, h.1, h.2]
  case wr8UnmappedA a v =>
    obtain ⟨rfl, rfl⟩ := wr8Word_inj h
    have hw := within_iff.1 hw
    simp [exec, execWr8UnmappedA, write8, write8With, windowOf_unmapped (a := a) (by omega) (by omega)]
  case wr8UnmappedB a v =>
    obtain ⟨rfl, rfl⟩ := wr8Word_inj h
    have hw := within_iff.1 hw
    simp [exec, execWr8UnmappedB, write8, write8With, windowOf_unmapped (a := a) (by omega) (by omega)]
  case wr8Oam a v =>
    obtain ⟨rfl, rfl⟩ := wr8Word_inj h
    have hw := within_iff.1 hw
    simp [exec, execWr8Oam, write8, write8With, windowOf_oam (a := a) (by omega) (by omega)]
  case wr8Echo a v =>
    obtain ⟨rfl, rfl⟩ := wr8Word_inj h
    have hw := within_iff.1 hw
    simp [exec, execWr8Echo, write8, write8With, windowOf_echo (a := a) (by omega) (by omega)]
  case wr8Wram a v =>
    obtain ⟨rfl, rfl⟩ := wr8Word_inj h
    have hw := within_iff.1 hw
    simp [exec, execWr8Wram, write8, write8With, windowOf_wram (a := a) (by omega) (by omega)]
  case wr8Eram a v =>
    obtain ⟨rfl, rfl⟩ := wr8Word_inj h
    have hw := within_iff.1 hw
    simp [exec, execWr8Eram, write8, write8With, windowOf_eram (a := a) (by omega) (by omega)]
  case wr8Vram a v =>
    obtain ⟨rfl, rfl⟩ := wr8Word_inj h
    have hw := within_iff.1 hw
    simp [exec, execWr8Vram, write8, write8With, windowOf_vram (a := a) (by omega) (by omega)]
  case bcNone a v =>
    obtain ⟨rfl, rfl⟩ := wr8Word_inj h
    have hw := within_iff.1 hw
    simp [exec, execBcNone, write8, write8With, windowOf_rom0 (a := a) (by omega),
      bankCtlWrite_none (a := a) (by omega)]
  case bcRamen a v =>
    obtain ⟨rfl, rfl⟩ := wr8Word_inj h
    have hw := within_iff.1 hw
    simp [exec, execBcRamen, write8, write8With, windowOf_rom0 (a := a) (by omega),
      bankCtlWrite_ramen (a := a) (by omega) (by omega)]
  case bcRomsel a v =>
    obtain ⟨rfl, rfl⟩ := wr8Word_inj h
    have hw := within_iff.1 hw
    simp [exec, execBcRomsel, write8, write8With, windowOf_rom0 (a := a) (by omega),
      bankCtlWrite_romsel (a := a) (by omega) (by omega)]
  case bcHisel a v =>
    obtain ⟨rfl, rfl⟩ := wr8Word_inj h
    have hw := within_iff.1 hw
    simp [exec, execBcHisel, write8, write8With, windowOf_romx (a := a) (by omega) (by omega),
      bankCtlWrite_hisel (a := a) (by omega) (by omega)]
  case bcModesel a v =>
    obtain ⟨rfl, rfl⟩ := wr8Word_inj h
    have hw := within_iff.1 hw
    simp [exec, execBcModesel, write8, write8With, windowOf_romx (a := a) (by omega) (by omega),
      bankCtlWrite_modesel (a := a) (by omega) (by omega)]
  case rd16 a => exact absurd (PortWord.req.inj h) (reqWord_op_ne (by decide))
  case wr16 a w => exact absurd (PortWord.req.inj h) (reqWord_op_ne (by decide))
  case setbios flag => exact absurd (PortWord.req.inj h) (reqWord_op_ne (by decide))
  case reserved5 => exact absurd (PortWord.req.inj h) (reqWord_op_ne (by decide))
  case reserved6 => exact absurd (PortWord.req.inj h) (reqWord_op_ne (by decide))
  case reserved7 => exact absurd (PortWord.req.inj h) (reqWord_op_ne (by decide))
  case attachDisplay => exact nomatch h
  case attachTimer => exact nomatch h
  case attachIrq => exact nomatch h
  case attachKbd => exact nomatch h
  case construct rom mbcCode ramCode => exact nomatch h

/-- Every instruction but CONSTRUCT passes admission first (R160, R304). -/
theorem exec_admits (i : Instr) (h : i.isConstruct = false) (s : State) : ∃ k, exec i s = .next (s.onInstance k) := by
  cases i <;> first | exact ⟨_, rfl⟩ | exact nomatch h

end Sys2Proof.Machine
end

