-- ==== Sys2Proof/Laws/Memory.lean ====
section
/-! SUPPORT. The laws of a byte buffer: a read after a write, and that every operation keeps the canonical form. -/

namespace Sys2Proof

theorem Memory.read_nil (i : Nat) : Memory.read [] i = 0 := rfl

theorem Memory.read_cons (j : Nat) (w : Byte) (m : Memory) (i : Nat) :
    Memory.read ((j, w) :: m) i = if i = j then w else Memory.read m i := rfl

theorem Memory.wfFrom_cons (lo i : Nat) (v : Byte) (m : Memory) :
    Memory.wfFrom lo ((i, v) :: m) = true ↔ lo ≤ i ∧ v ≠ 0 ∧ Memory.wfFrom (i + 1) m = true := by
  simp [Memory.wfFrom, and_assoc]

theorem Memory.wfFrom_mono {lo lo' : Nat} {m : Memory} (h : lo' ≤ lo) (hm : Memory.wfFrom lo m = true) :
    Memory.wfFrom lo' m = true := by
  cases m with
  | nil => rfl
  | cons c m => obtain ⟨i, v⟩ := c; rw [wfFrom_cons] at hm ⊢; exact ⟨by omega, hm.2⟩

/-- An index below every listed one reads as zero. -/
theorem Memory.read_below_first {m : Memory} {lo i : Nat} (h : Memory.wfFrom lo m = true) (hi : i < lo) :
    m.read i = 0 := by
  induction m generalizing lo with
  | nil => rfl
  | cons c m ih =>
    obtain ⟨j, w⟩ := c
    rw [wfFrom_cons] at h
    rw [read_cons, if_neg (by omega)]
    exact ih h.2.2 (by omega)

/-- A write leaves every other index alone. -/
theorem Memory.read_write_other (m : Memory) (i : Nat) (v : Byte) {j : Nat} (h : j ≠ i) :
    (m.write i v).read j = m.read j := by
  induction m with
  | nil => simp only [write]; split <;> simp [read, h]
  | cons c m ih =>
    obtain ⟨k, w⟩ := c
    simp only [write]
    split
    · split <;> simp [read, h]
    · split
      · subst i; split <;> simp [read, h]
      · simp [read, ih]

/-- A read after a write to the same index gives the value written. -/
theorem Memory.read_write_same {m : Memory} (h : m.wf = true) (i : Nat) (v : Byte) : (m.write i v).read i = v := by
  have key : ∀ (m : Memory) (lo : Nat), Memory.wfFrom lo m = true → (m.write i v).read i = v := by
    intro m
    induction m with
    | nil => intro lo _; simp only [write]; split <;> simp_all [read]
    | cons c m ih =>
      obtain ⟨k, w⟩ := c
      intro lo h
      rw [wfFrom_cons] at h
      simp only [write]
      split
      · split
        · rw [read_cons, if_neg (by omega), read_below_first h.2.2 (by omega)]; simp_all
        · simp [read]
      · split
        · subst i
          split
          · rw [read_below_first h.2.2 (by omega)]; simp_all
          · simp [read]
        · rw [read_cons, if_neg (by omega)]; exact ih _ h.2.2
  exact key m 0 h

/-- A read after a write. -/
theorem Memory.read_write {m : Memory} (h : m.wf = true) (i j : Nat) (v : Byte) :
    (m.write i v).read j = if j = i then v else m.read j := by
  split
  · subst j; exact read_write_same h i v
  · exact read_write_other m i v ‹_›

theorem Memory.wfFrom_write {m : Memory} {lo i : Nat} (v : Byte) (h : Memory.wfFrom lo m = true) (hi : lo ≤ i) :
    Memory.wfFrom lo (m.write i v) = true := by
  induction m generalizing lo with
  | nil => simp only [write]; split <;> simp_all [wfFrom]
  | cons c m ih =>
    obtain ⟨k, w⟩ := c
    rw [wfFrom_cons] at h
    simp only [write]
    split
    · split
      · rw [wfFrom_cons]; exact h
      · rw [wfFrom_cons, wfFrom_cons]; exact ⟨hi, ‹_›, by omega, h.2⟩
    · split
      · subst i
        split
        · exact wfFrom_mono (by omega) h.2.2
        · rw [wfFrom_cons]; exact ⟨hi, ‹_›, h.2.2⟩
      · rw [wfFrom_cons]; exact ⟨h.1, h.2.1, ih h.2.2 (by omega)⟩

/-- A write keeps the canonical form. -/
theorem Memory.wf_write {m : Memory} (i : Nat) (v : Byte) (h : m.wf = true) : (m.write i v).wf = true :=
  wfFrom_write v h (Nat.zero_le i)

theorem Memory.mem_write {m : Memory} {i : Nat} {v : Byte} {c : Host.Cell} (h : c ∈ m.write i v) :
    c.1 = i ∨ c ∈ m := by
  induction m with
  | nil => simp only [write] at h; split at h <;> simp_all
  | cons d m ih =>
    obtain ⟨k, w⟩ := d
    simp only [write] at h
    split at h
    · split at h
      · exact .inr h
      · rcases List.mem_cons.1 h with rfl | h
        · exact .inl rfl
        · exact .inr h
    · split at h
      · split at h
        · exact .inr (List.mem_cons_of_mem _ h)
        · rcases List.mem_cons.1 h with rfl | h
          · exact .inl rfl
          · exact .inr (List.mem_cons_of_mem _ h)
      · rcases List.mem_cons.1 h with rfl | h
        · exact .inr (List.mem_cons_self ..)
        · exact (ih h).imp_right (List.mem_cons_of_mem _)

theorem Memory.fits_iff {size : Nat} {m : Memory} :
    m.fits size = true ↔ m.wf = true ∧ ∀ c ∈ m, c.1 < size := by
  simp [fits, List.all_eq_true]

theorem Memory.wf_of_fits {size : Nat} {m : Memory} (h : m.fits size = true) : m.wf = true := (fits_iff.1 h).1

/-- A write inside an array keeps the canonical form of the array. -/
theorem Memory.fits_write {size : Nat} {m : Memory} {i : Nat} (v : Byte) (h : m.fits size = true) (hi : i < size) :
    (m.write i v).fits size = true := by
  rw [fits_iff] at h ⊢
  refine ⟨wf_write i v h.1, fun c hc => ?_⟩
  rcases mem_write hc with rfl | hc
  · exact hi
  · exact h.2 c hc

theorem Memory.wfFrom_filter {m : Memory} {lo : Nat} (p : Host.Cell → Bool) (h : Memory.wfFrom lo m = true) :
    Memory.wfFrom lo (m.filter p) = true := by
  induction m generalizing lo with
  | nil => rfl
  | cons c m ih =>
    obtain ⟨i, v⟩ := c
    rw [wfFrom_cons] at h
    by_cases hp : p (i, v) = true
    · rw [List.filter_cons_of_pos hp, wfFrom_cons]; exact ⟨h.1, h.2.1, ih h.2.2⟩
    · rw [List.filter_cons_of_neg hp]; exact wfFrom_mono (by omega) (ih h.2.2)

/-- The first `n` bytes of an array are an array of `n` bytes. -/
theorem Memory.fits_below {m : Memory} (n : Nat) (h : m.wf = true) : (m.below n).fits n = true := by
  rw [fits_iff]
  refine ⟨wfFrom_filter _ h, fun c hc => ?_⟩
  simpa using (List.mem_filter.1 hc).2

/-- The first `n` bytes of an array read as the array does. -/
theorem Memory.read_below (m : Memory) {n i : Nat} (h : i < n) : (m.below n).read i = m.read i := by
  induction m with
  | nil => rfl
  | cons c m ih =>
    obtain ⟨j, w⟩ := c
    simp only [below, List.filter_cons] at ih ⊢
    split
    · simp only [read_cons, ih]
    · rw [ih, read_cons, if_neg (by simp_all; omega)]

/-- Two canonical buffers that read alike are equal. -/
theorem Memory.ext_of_read {m n : Memory} (hm : m.wf = true) (hn : n.wf = true) (h : ∀ i, m.read i = n.read i) :
    m = n := by
  have key : ∀ (m n : Memory) (lo : Nat), Memory.wfFrom lo m = true → Memory.wfFrom lo n = true →
      (∀ i, m.read i = n.read i) → m = n := by
    intro m
    induction m with
    | nil =>
      intro n lo _ hn h
      cases n with
      | nil => rfl
      | cons c n =>
        obtain ⟨i, v⟩ := c
        have := h i
        rw [wfFrom_cons] at hn
        simp [read] at this
        exact absurd this.symm hn.2.1
    | cons c m ih =>
      obtain ⟨i, v⟩ := c
      intro n lo hm hn h
      rw [wfFrom_cons] at hm
      cases n with
      | nil => have := h i; simp [read] at this; exact absurd this hm.2.1
      | cons d n =>
        obtain ⟨j, w⟩ := d
        rw [wfFrom_cons] at hn
        have hij : i = j := by
          rcases Nat.lt_trichotomy i j with hlt | heq | hgt
          · have := h i
            rw [read_cons, if_pos rfl, read_cons, if_neg (by omega), read_below_first hn.2.2 (by omega)] at this
            exact absurd this hm.2.1
          · exact heq
          · have := h j
            rw [read_cons, if_neg (by omega), read_below_first hm.2.2 (by omega), read_cons, if_pos rfl] at this
            exact absurd this.symm hn.2.1
        subst hij
        have hvw : v = w := by simpa [read] using h i
        subst hvw
        have := ih n (i + 1) hm.2.2 hn.2.2 fun k => by
          have hk := h k
          rw [read_cons, read_cons] at hk
          by_cases hki : k = i
          · subst hki; rw [read_below_first hm.2.2 (by omega), read_below_first hn.2.2 (by omega)]
          · simpa [hki] using hk
        rw [this]
  exact key m n 0 hm hn h

/-- Storing what an index already reads as changes nothing. -/
theorem Memory.write_read_self {m : Memory} (h : m.wf = true) (i : Nat) : m.write i (m.read i) = m := by
  refine ext_of_read (wf_write _ _ h) h fun j => ?_
  rw [read_write h]
  split <;> simp_all

end Sys2Proof
end

