-- ==== Sys2Proof/Laws/Bus.lean ====
section
/-! SUPPORT. Everything a byte access can do, said once: a read by its window, a write as one of ten effects. -/

namespace Sys2Proof.Machine

open Sys2Proof.Laws

/-! ## The router's table -/

theorem mem_of_lookup {α : Type} {k : Nat} {x : α} {l : List (Nat × α)} (h : l.lookup k = some x) : (k, x) ∈ l := by
  induction l with
  | nil => simp at h
  | cons p l ih =>
    obtain ⟨j, y⟩ := p
    rw [List.lookup_cons] at h
    split at h
    · simp_all
    · exact List.mem_cons_of_mem _ (ih h)

theorem ioRegOf_biosLatch {a : Addr} (h : ioRegOf a = some .biosLatch) : a.toNat = 0xFF50 := by
  have := mem_of_lookup h
  simpa [ioTable] using this

theorem ioRegOf_dmaTrigger {a : Addr} (h : ioRegOf a = some .dmaTrigger) : a.toNat = 0xFF46 := by
  have := mem_of_lookup h
  simpa [ioTable] using this

/-! ## Reads -/

/-- A read emits at most one event. -/
theorem read8_events {b : Bus} {a : Addr} {v : Byte} {e : List Event} (h : read8 b a = .ok (v, e)) : e.length ≤ 1 := by
  have word : ∀ {k : ByteRead} {o : Owner}, b.needsForRead o k = .ok (v, e) → k = .ok (v, e) := by
    intro k o hk
    unfold Bus.needsForRead at hk
    split at hk
    · exact hk
    · cases hk
  have rom : ∀ {i : Nat}, romByte b i = .ok (v, e) → e = [] := by
    intro i hi
    unfold romByte at hi
    split at hi <;> simp_all
  have io : ioRead b a = .ok (v, e) → e.length ≤ 1 := by
    intro hi
    unfold ioRead at hi
    split at hi
    · rename_i r _
      cases r with
      | cell c => have := word hi; simp_all
      | dmaTrigger => cases hi; simp
      | biosLatch => cases hi; simp
    · cases hi; simp
  unfold read8 at h
  split at h
  · unfold readLow at h
    split at h
    · simp_all
    · simp [rom h]
  · simp [rom h]
  · have := word h; simp_all
  · unfold readEram at h
    split at h <;> simp_all
  · cases h; simp
  · cases h; simp
  · have := word h; simp_all
  · cases h; simp
  · cases h; simp
  · exact io h
  · exact io h

/-- A read that is not made stops at external RAM, at the end of the image or at an unwired owner (R321, R323). -/
theorem read8_error {b : Bus} {a : Addr} {x : Stop} (h : read8 b a = .error x) :
    (x = .fatal .eramNotConfigured ∨ x = .fatal .eramOutOfRange) ∨ x = .refuse .romIndexOutOfRange ∨ x = .refuse .unwired := by
  have word : ∀ {v : Byte × List Event} {o : Owner}, b.needsForRead o (.ok v) = .error x → x = .refuse .unwired := by
    intro v o hk
    unfold Bus.needsForRead at hk
    split at hk
    · cases hk
    · exact (Except.error.inj hk).symm
  have rom : ∀ {i : Nat}, romByte b i = .error x → x = .refuse .romIndexOutOfRange := by
    intro i hi
    unfold romByte at hi
    split at hi
    · cases hi
    · exact (Except.error.inj hi).symm
  have io : ioRead b a = .error x → x = .refuse .unwired := by
    intro hi
    unfold ioRead at hi
    split at hi
    · rename_i r _
      cases r with
      | cell c => exact word hi
      | dmaTrigger => cases hi
      | biosLatch => cases hi
    · cases hi
  unfold read8 at h
  split at h
  · unfold readLow at h
    split at h
    · cases h
    · exact .inr (.inl (rom h))
  · exact .inr (.inl (rom h))
  · exact .inr (.inr (word h))
  · unfold readEram at h
    split at h
    · cases h
    · rename_i c hc
      obtain rfl := Except.error.inj h
      rcases eramIndex_error hc with rfl | rfl <;> simp
  · cases h
  · cases h
  · exact .inr (.inr (word h))
  · cases h
  · cases h
  · exact .inr (.inr (io h))
  · exact .inr (.inr (io h))

/-! ## Writes -/

/-- What a store to external RAM can do (R163). -/
theorem eramStore_cases (b : Bus) (a : Addr) (v : Byte) :
    (eramOffset b a < b.ramSize.bytes ∧ eramStore b a v = .done (b.withEram (b.eram.write (eramOffset b a) v))) ∨
    ∃ c, (c = .eramNotConfigured ∨ c = .eramOutOfRange) ∧ eramIndex b a = .error c ∧
      eramStore b a v = .stop b (.fatal c) := by
  unfold eramStore
  cases h : eramIndex b a with
  | ok i => have hi := eramIndex_ok_iff.1 h; exact .inl ⟨hi.1, by simp only [hi.2]⟩
  | error c => exact .inr ⟨c, eramIndex_error h, rfl, rfl⟩

/-- What a write to external RAM can do: store, stop, or be dropped (R178, R209). -/
theorem writeEram_cases (b : Bus) (a : Addr) (v : Byte) (h : 0xA000 ≤ a.toNat) (h' : a.toNat ≤ 0xBFFF) :
    writeEram b a v = if b.bc.mode = .romOnly ∨ b.bc.ramEnabled = true then eramStore b a v else .done b := by
  have hs : b.bc.mode ≠ .romOnly → bankCtlWrite b a v = bankStore b a v := fun hm => by
    rw [bankCtlWrite_store h h', bankCommand_banked hm]
  unfold writeEram
  split
  · rename_i hm; rw [if_pos (.inl hm)]
  all_goals
    rename_i hm
    rw [hs (by simp [hm]), bankStore]
    simp [hm]

/-- How the owners' bytes change under a bus write. -/
inductive OwnStore (b : Bus) (a : Addr) (v : Byte) : Owners → Prop where
  | vram : 0x8000 ≤ a.toNat → a.toNat ≤ 0x9FFF → OwnStore b a v (ownerSetVram b.own (vramIndex a) v)
  | oam : 0xFE00 ≤ a.toNat → a.toNat ≤ 0xFE9F → OwnStore b a v (ownerSetOam b.own (oamIndex a) v)
  | cell (c : RegCell) (x : Byte) : ioRegOf a = some (.cell c) → storedInCell c v = some x → 0xFF00 ≤ a.toNat →
      OwnStore b a v (ownerSet b.own c x)

/-- The effects a byte write can have. -/
inductive WriteEffect (trigger : Bus → Byte → Run) (cfg : Config) (b : Bus) (a : Addr) (v : Byte) : Run → Prop where
  | nothing : WriteEffect trigger cfg b a v (.done b)
  | stop (x : Stop) : x ≠ .fatal .unsupportedBankController → x ≠ .fatal .unsupportedRamSize →
      WriteEffect trigger cfg b a v (.stop b x)
  | unimplemented : 0xFF00 ≤ a.toNat → a.toNat ≤ 0xFF7F → WriteEffect trigger cfg b a v (writeUnimplemented b a v)
  | bank (c : Bank) : b.bc.mode ≠ .romOnly → 0x1000 ≤ a.toNat → a.toNat ≤ 0x7FFF → c.mode = b.bc.mode →
      (romBankLegal b.bc = true → romBankLegal c = true) → (ramBankLegal b.bc = true → ramBankLegal c = true) →
      WriteEffect trigger cfg b a v (.done (b.withBc c))
  | eram : 0xA000 ≤ a.toNat → a.toNat ≤ 0xBFFF → eramOffset b a < b.ramSize.bytes →
      WriteEffect trigger cfg b a v (.done (b.withEram (b.eram.write (eramOffset b a) v)))
  | wram (i : Nat) : 0xC000 ≤ a.toNat → a.toNat ≤ 0xFDFF → i < 8192 →
      WriteEffect trigger cfg b a v (.done (b.withWram (b.wram.write i v)))
  | zp : 0xFF80 ≤ a.toNat → a.toNat ≤ 0xFFFE → zpIndex a < 128 →
      WriteEffect trigger cfg b a v (.done (b.withZp (b.zp.write (zpIndex a) v)))
  | own (o : Owners) : OwnStore b a v o → WriteEffect trigger cfg b a v (.done (b.withOwn o))
  | latch : a.toNat = 0xFF50 →
      WriteEffect trigger cfg b a v (.done (b.withInBios (latchAfterWrite cfg b.inBios v)))
  | copy : a.toNat = 0xFF46 → WriteEffect trigger cfg b a v (trigger b v)

/-- Every byte write has one of those effects. -/
theorem write8With_effect (trigger : Bus → Byte → Run) (cfg : Config) (b : Bus) (a : Addr) (v : Byte) :
    WriteEffect trigger cfg b a v (write8With trigger cfg b a v) := by
  have needs : ∀ {o : Owner} {k : Run}, WriteEffect trigger cfg b a v k →
      WriteEffect trigger cfg b a v (b.needsForWrite o k) := by
    intro o k hk
    unfold Bus.needsForWrite
    split
    · exact hk
    · exact .stop _ (by simp) (by simp)
  have io : 0xFF00 ≤ a.toNat → (a.toNat ≤ 0xFF7F ∨ a.toNat = 0xFFFF) →
      WriteEffect trigger cfg b a v (ioWrite trigger cfg b a v) := by
    intro h h'
    unfold ioWrite
    split
    · rename_i r hr
      cases r with
      | cell c =>
        cases hx : storedInCell c v with
        | none => simpa [writeIoReg, hx] using .nothing
        | some x => simpa [writeIoReg, hx] using needs (.own _ (.cell c x hr hx h))
      | dmaTrigger => exact .copy (ioRegOf_dmaTrigger hr)
      | biosLatch => exact .latch (ioRegOf_biosLatch hr)
    · rename_i hr
      rcases h' with h' | h'
      · exact .unimplemented h h'
      · exfalso; simp [ioRegOf, ioTable, h'] at hr
  have bank : ∀ {b'}, 0x1000 ≤ a.toNat → a.toNat ≤ 0x7FFF → (b' = bankRamEnable b v ∨ b' = bankRomSelect b v ∨
      b' = bankHighSelect b v ∨ b' = bankModeSelect b v) →
      WriteEffect trigger cfg b a v (bankCommand b (.done b')) := by
    intro b' h h' hk
    rcases bankCommand_cases hk with he | ⟨c, he, hm, hc, h1, h2⟩
    · rw [he]; exact .nothing
    · rw [he]; exact .bank c hm h h' hc h1 h2
  have rom : a.toNat ≤ 0x7FFF → WriteEffect trigger cfg b a v (bankCtlWrite b a v) := by
    intro h
    by_cases h1 : a.toNat ≤ 0x0FFF
    · rw [bankCtlWrite_none h1]; exact .nothing
    by_cases h2 : a.toNat ≤ 0x1FFF
    · rw [bankCtlWrite_ramen (by omega) h2]; exact bank (by omega) h (.inl rfl)
    by_cases h3 : a.toNat ≤ 0x3FFF
    · rw [bankCtlWrite_romsel (by omega) h3]; exact bank (by omega) h (.inr (.inl rfl))
    by_cases h4 : a.toNat ≤ 0x5FFF
    · rw [bankCtlWrite_hisel (by omega) h4]; exact bank (by omega) h (.inr (.inr (.inl rfl)))
    · rw [bankCtlWrite_modesel (by omega) h]; exact bank (by omega) h (.inr (.inr (.inr rfl)))
  obtain ⟨k, w, h⟩ := windowOf_cases a
  cases k <;> simp only [write8With, w]
  · exact rom (by omega)
  · exact rom (by omega)
  · exact needs (.own _ (.vram h.1 h.2))
  · rw [writeEram_cases b a v h.1 h.2]
    split
    · rcases eramStore_cases b a v with ⟨hi, he⟩ | ⟨c, hc, -, he⟩
      · rw [he]; exact .eram h.1 h.2 hi
      · rw [he]; exact .stop _ (by rcases hc with rfl | rfl <;> simp) (by rcases hc with rfl | rfl <;> simp)
    · exact .nothing
  · exact .wram _ h.1 (by omega) (by unfold wramIndex; omega)
  · exact .wram _ (by omega) h.2 (by unfold echoIndex; omega)
  · exact needs (.own _ (.oam h.1 h.2))
  · exact .nothing
  · exact io h.1 (.inl h.2)
  · exact .zp h.1 h.2 (by unfold zpIndex; omega)
  · exact io (by omega) (.inr h)

end Sys2Proof.Machine
end

