-- ==== Sys2Proof/Laws/Dma.lean ====
section
/-! SUPPORT. What a DMA copy can do (spec/43_dma.md): its addresses, one byte, a run of bytes that are all readable, the
first byte that is not, what it leaves alone in every case, and its byte accesses. -/

namespace Sys2Proof.Machine

/-- The instance with the display's OAM replaced. -/
def Bus.withOam (b : Bus) (m : Memory) : Bus := b.withOwn { b.own with lcd := { b.own.lcd with oam := m } }

theorem Bus.withOam_self (b : Bus) : b.withOam b.own.lcd.oam = b := rfl

theorem Bus.withOam_withOam (b : Bus) (m n : Memory) : (b.withOam m).withOam n = b.withOam n := rfl

@[simp] theorem Bus.withOam_oam (b : Bus) (m : Memory) : (b.withOam m).own.lcd.oam = m := rfl

@[simp] theorem Bus.withOam_wired (b : Bus) (m : Memory) : (b.withOam m).wired = b.wired := rfl

theorem dmaSource_toNat (page : Byte) {i : Nat} (h : i < 160) : (dmaSource page i).toNat = page.toNat * 256 + i := by
  have := page.isLt
  simp [dmaSource, Nat.shiftLeft_eq]
  omega

theorem dmaDest_toNat {i : Nat} (h : i < 160) : (dmaDest i).toNat = 0xFE00 + i := by
  simp [dmaDest]
  omega

/-- A read whose place is not the OAM byte `k` does not see what that byte holds. -/
theorem read8_withOam (b : Bus) (m : Memory) (a : Addr)
    (h : windowOf a = .oam → m.read (oamIndex a) = b.own.lcd.oam.read (oamIndex a)) :
    read8 (b.withOam m) a = read8 b a := by
  unfold read8
  split
  · rfl
  · rfl
  · rfl
  · rfl
  · rfl
  · rfl
  · rename_i hw; simp only [readOam, Bus.withOam_oam, h hw]; rfl
  · rfl
  · rfl
  · rfl
  · rfl

/-- The write of a copy: a store to OAM, never anything else (R285). -/
theorem write8With_dmaDest (t : Bus → Byte → Run) (cfg : Config) (b : Bus) {i : Nat} (h : i < 160) (v : Byte) :
    write8With t cfg b (dmaDest i) v = b.needsForWrite .display (.done (b.withOam (b.own.lcd.oam.write i v))) := by
  have hd := dmaDest_toNat h
  have : oamIndex (dmaDest i) = i := by unfold oamIndex; omega
  simp only [write8With, windowOf_oam (a := dmaDest i) (by omega) (by omega), writeOam, this]
  rfl

/-- The source of byte `j` is not the destination of an earlier byte. -/
theorem dmaSource_ne_dest (page : Byte) {i j : Nat} (hj : j < 160) (h : i < j) (m : Memory) (v : Byte)
    (hw : windowOf (dmaSource page j) = .oam) :
    (m.write i v).read (oamIndex (dmaSource page j)) = m.read (oamIndex (dmaSource page j)) := by
  have hs := dmaSource_toNat page hj
  have hp := page.isLt
  have hr : 0xFE00 ≤ (dmaSource page j).toNat ∧ (dmaSource page j).toNat ≤ 0xFE9F := by
    simpa only [hw] using windowOf_holds (dmaSource page j)
  apply Memory.read_write_other
  unfold oamIndex
  omega

theorem dmaByte_ok {cfg : Config} {page : Byte} {i : Nat} {b : Bus} {v : Byte} {e : List Event} (h : i < 160)
    (hw : b.wired.display = true) (hr : read8 b (dmaSource page i) = .ok (v, e)) :
    dmaByte cfg page i b = { bus := b.withOam (b.own.lcd.oam.write i v), events := e, ending := .ok, accesses := 2 } := by
  have hn : b.wired.has .display = true := hw
  simp [dmaByte, hr, Run.andThen, write8With_dmaDest _ _ _ h, Bus.needsForWrite_wired hn, Run.done]

theorem dmaByte_error {cfg : Config} {page : Byte} {i : Nat} {b : Bus} {x : Stop}
    (hr : read8 b (dmaSource page i) = .error x) : dmaByte cfg page i b = .stop b x := by
  simp [dmaByte, hr]

theorem dmaByte_unwired {cfg : Config} {page : Byte} {i : Nat} {b : Bus} {v : Byte} {e : List Event} (h : i < 160)
    (hw : b.wired.display = false) (hr : read8 b (dmaSource page i) = .ok (v, e)) :
    dmaByte cfg page i b = { bus := b, events := e, ending := .refuse .unwired, accesses := 1 } := by
  have hn : b.wired.has .display = false := hw
  simp [dmaByte, hr, Run.andThen, write8With_dmaDest _ _ _ h, Bus.needsForWrite_unwired hn, Run.stop, Stop.ending]

/-- `n` readable bytes of a copy from byte `i` on: each of them is copied, and the events are those of the reads. -/
theorem dmaFrom_ok (cfg : Config) (page : Byte) (f : Nat → Byte) (e : Nat → List Event) :
    ∀ (n i : Nat) (b : Bus), i + n ≤ 160 → b.wired.display = true → b.own.lcd.oam.wf = true →
      (∀ j, i ≤ j → j < i + n → read8 b (dmaSource page j) = .ok (f j, e j)) →
      ∃ m, dmaFrom cfg page n i b =
          { bus := b.withOam m, events := ((List.range' i n).map e).flatten, ending := .ok, accesses := 2 * n } ∧
        m.wf = true ∧ (b.own.lcd.oam.fits 160 = true → m.fits 160 = true) ∧
        ∀ j, m.read j = if i ≤ j ∧ j < i + n then f j else b.own.lcd.oam.read j := by
  intro n
  induction n with
  | zero =>
    intro i b _ _ hm _
    exact ⟨b.own.lcd.oam, rfl, hm, fun h => h, fun j => by rw [if_neg (by omega)]⟩
  | succ n ih =>
    intro i b hi hw hm hr
    have h0 := dmaByte_ok (cfg := cfg) (by omega) hw (hr i (Nat.le_refl i) (by omega))
    obtain ⟨m, hd, hm', hf, hread⟩ := ih (i + 1) (b.withOam (b.own.lcd.oam.write i (f i))) (by omega) hw
      (Memory.wf_write _ _ hm) (fun j h1 h2 => by
        rw [read8_withOam _ _ _ (dmaSource_ne_dest page (by omega) (by omega) _ _)]
        exact hr j (by omega) (by omega))
    refine ⟨m, ?_, hm', fun h => hf (Memory.fits_write _ h (by omega)), fun j => ?_⟩
    · rw [dmaFrom, h0, Run.andThen_ok rfl]
      simp only [hd, Bus.withOam_withOam, List.range'_succ, List.map_cons, List.flatten_cons, Nat.mul_succ, Nat.add_comm]
    · rw [hread j]
      simp only [Bus.withOam_oam, Memory.read_write hm]
      by_cases h1 : j = i
      · subst h1; rw [if_neg (by omega), if_pos rfl, if_pos (by omega)]
      · rw [if_neg h1]; split <;> split <;> first | rfl | omega

theorem Run.andThen_assoc (r : Run) (k l : Bus → Run) :
    (r.andThen k).andThen l = r.andThen fun b => (k b).andThen l := by
  obtain ⟨bus, events, ending, accesses⟩ := r
  cases ending with
  | ok =>
    simp only [andThen]
    cases (k bus).ending <;> simp [List.append_assoc, Nat.add_assoc]
  | fatal c => rfl
  | refuse x => rfl

/-- A copy in two parts. -/
theorem dmaFrom_append (cfg : Config) (page : Byte) (m n i : Nat) (b : Bus) :
    dmaFrom cfg page (m + n) i b = (dmaFrom cfg page m i b).andThen fun b' => dmaFrom cfg page n (i + m) b' := by
  induction m generalizing i b with
  | zero => rw [Nat.zero_add, dmaFrom, Run.idle_andThen]; rfl
  | succ m ih =>
    rw [show m + 1 + n = (m + n) + 1 by omega, dmaFrom, dmaFrom, Run.andThen_assoc]
    congr 1
    funext b'
    rw [ih, show i + 1 + m = i + (m + 1) by omega]

/-- The first byte of a copy that is not readable ends it there; the bytes before it stay copied (R286). -/
theorem dmaFrom_stop (cfg : Config) (page : Byte) (f : Nat → Byte) (e : Nat → List Event) {n k : Nat} {b : Bus} {x : Stop}
    (hk : k < n) (hn : n ≤ 160) (hw : b.wired.display = true) (hm : b.own.lcd.oam.wf = true)
    (hr : ∀ j, j < k → read8 b (dmaSource page j) = .ok (f j, e j)) (hx : read8 b (dmaSource page k) = .error x) :
    ∃ m, dmaFrom cfg page n 0 b =
        { bus := b.withOam m, events := ((List.range k).map e).flatten, ending := x.ending, accesses := 2 * k } ∧
      m.wf = true ∧ (b.own.lcd.oam.fits 160 = true → m.fits 160 = true) ∧
      ∀ j, m.read j = if j < k then f j else b.own.lcd.oam.read j := by
  obtain ⟨m, hd, hm', hf, hread⟩ := dmaFrom_ok cfg page f e k 0 b (by omega) hw hm (fun j _ h => hr j (by omega))
  refine ⟨m, ?_, hm', hf, fun j => ?_⟩
  · have hx' : read8 (b.withOam m) (dmaSource page k) = .error x := by
      rw [read8_withOam _ _ _ (fun hwin => ?_), hx]
      rw [hread, if_neg]
      intro hlt
      have hs := dmaSource_toNat page (i := k) (by omega)
      have hp := page.isLt
      have h : Window.oam.holds (dmaSource page k) := hwin ▸ windowOf_holds (dmaSource page k)
      unfold oamIndex at hlt
      omega
    obtain ⟨n', rfl⟩ : ∃ n', n = k + (n' + 1) := ⟨n - k - 1, by omega⟩
    rw [dmaFrom_append, hd, Run.andThen_ok rfl, Nat.zero_add]
    simp only [dmaFrom, dmaByte_error hx']
    rw [Run.andThen_stop (by cases x <;> simp [Run.stop, Stop.ending])]
    simp [Run.stop, List.range_eq_range']
  · rw [hread]; simp

/-- Whatever it comes to, a copy changes only OAM (R285). -/
theorem dmaFrom_frame (cfg : Config) (page : Byte) : ∀ (n i : Nat) (b : Bus), i + n ≤ 160 →
    ∃ m, (dmaFrom cfg page n i b).bus = b.withOam m ∧ (b.own.lcd.oam.fits 160 = true → m.fits 160 = true) ∧
      (dmaFrom cfg page n i b).ending ≠ .fatal .unsupportedBankController ∧
      (dmaFrom cfg page n i b).ending ≠ .fatal .unsupportedRamSize := by
  intro n
  induction n with
  | zero => intro i b _; exact ⟨b.own.lcd.oam, rfl, fun h => h, by simp [dmaFrom, Run.idle], by simp [dmaFrom, Run.idle]⟩
  | succ n ih =>
    intro i b hi
    cases hr : read8 b (dmaSource page i) with
    | error x =>
      have hx : x.ending ≠ .ok := by cases x <;> simp [Stop.ending]
      rw [dmaFrom, dmaByte_error hr, Run.andThen_stop hx]
      refine ⟨b.own.lcd.oam, rfl, fun h => h, ?_, ?_⟩ <;>
        rcases read8_error hr with (rfl | rfl) | rfl | rfl <;> simp [Run.stop, Stop.ending]
    | ok p =>
      obtain ⟨v, e⟩ := p
      cases hw : b.wired.display with
      | false =>
        rw [dmaFrom, dmaByte_unwired (by omega) hw hr, Run.andThen_stop (by simp)]
        exact ⟨b.own.lcd.oam, rfl, fun h => h, by simp, by simp⟩
      | true =>
        rw [dmaFrom, dmaByte_ok (by omega) hw hr, Run.andThen_ok rfl]
        obtain ⟨m, h1, h2, h3, h4⟩ := ih (i + 1) (b.withOam (b.own.lcd.oam.write i v)) (by omega)
        exact ⟨m, h1, fun h => h2 (Memory.fits_write _ h (by omega)), h3, h4⟩

/-- The trigger write and the copy: one access more than the copy, and nothing else (R257, R392). -/
theorem dmaCopy_eq (cfg : Config) (b : Bus) (page : Byte) :
    dmaCopy cfg b page = { dmaFrom cfg page 160 0 b with accesses := 1 + (dmaFrom cfg page 160 0 b).accesses } :=
  Run.done_andThen b _

/-- A copy that ends `ok` has made 160 reads and 160 writes (R281, R392). -/
theorem dmaFrom_accesses (cfg : Config) (page : Byte) : ∀ (n i : Nat) (b : Bus), i + n ≤ 160 →
    (dmaFrom cfg page n i b).ending = .ok → (dmaFrom cfg page n i b).accesses = 2 * n := by
  intro n
  induction n with
  | zero => intros; rfl
  | succ n ih =>
    intro i b hi h
    rw [dmaFrom] at h ⊢
    cases hr : read8 b (dmaSource page i) with
    | error x =>
      rw [dmaByte_error hr, Run.andThen_stop (x.ending_ne_ok)] at h
      exact absurd h x.ending_ne_ok
    | ok p =>
      cases hw : b.wired.display with
      | false => rw [dmaByte_unwired (by omega) hw hr, Run.andThen_stop (by simp)] at h; cases h
      | true =>
        rw [dmaByte_ok (by omega) hw hr, Run.andThen_ok rfl] at h ⊢
        have := ih (i + 1) _ (by omega) h
        simp only [this]
        omega

/-- The whole copy changes only OAM. -/
theorem dmaCopy_frame (cfg : Config) (b : Bus) (page : Byte) :
    ∃ m, (dmaCopy cfg b page).bus = b.withOam m ∧ (b.own.lcd.oam.fits 160 = true → m.fits 160 = true) ∧
      (dmaCopy cfg b page).ending ≠ .fatal .unsupportedBankController ∧
      (dmaCopy cfg b page).ending ≠ .fatal .unsupportedRamSize := by
  rw [dmaCopy_eq]; exact dmaFrom_frame cfg page 160 0 b (by decide)

theorem write8With_trigger (t : Bus → Byte → Run) (cfg : Config) (b : Bus) (page : Byte) :
    write8With t cfg b 0xFF46 page = t b page := rfl

/-- The byte accesses of a byte write that completes: itself, and a copy's where it lands on the trigger (R392). -/
theorem write8_accesses {cfg : Config} {b : Bus} {a : Addr} {v : Byte} (h : (write8 cfg b a v).ending = .ok) :
    (write8 cfg b a v).accesses = if a = 0xFF46 then 321 else 1 := by
  split
  · rename_i ha
    subst ha
    rw [write8, write8With_trigger, dmaCopy_eq] at h ⊢
    simp only [dmaFrom_accesses cfg v 160 0 b (by decide) h]
  · rename_i ha
    have he := write8With_effect (dmaCopy cfg) cfg b a v
    unfold write8 at h ⊢
    generalize write8With (dmaCopy cfg) cfg b a v = r at h he
    cases he with
    | copy h' => exact absurd (BitVec.eq_of_toNat_eq h') ha
    | stop x _ _ => exact absurd h x.ending_ne_ok
    | nothing => rfl
    | unimplemented _ _ => rfl
    | bank _ _ _ _ _ _ _ => rfl
    | eram _ _ _ => rfl
    | wram _ _ _ _ => rfl
    | zp _ _ _ => rfl
    | own _ _ => rfl
    | latch _ => rfl

end Sys2Proof.Machine
end

