-- ==== Sys2Proof/Laws/Place.lean ====
section
/-! SUPPORT. Plain storage (spec/40_bus_access.md R187): the place each window's addresses name, and that a byte stored
to plain storage is read back at exactly the addresses that name its place. -/

namespace Sys2Proof.Machine

open Sys2Proof.Laws

/-- The place an I/O address names. -/
def ioPlace (a : Addr) : Option Place :=
    match ioRegOf a with
    | some (.cell c) => some (.cell c)
    | some .biosLatch => some .latch
    | some .dmaTrigger => none
    | none => none

theorem ioPlace_cases (a : Addr) : ioPlace a = none ∨ ioPlace a = some .latch ∨ ∃ c, ioPlace a = some (.cell c) := by
  unfold ioPlace; split <;> simp

theorem place_io (b : Bus) (x : Addr) (h : windowOf x = .io ∨ windowOf x = .ie) : placeOf b x = ioPlace x := by
  rcases h with h | h <;> simp only [placeOf, h] <;> rfl

theorem placeOf_vram (b : Bus) {x : Addr} (w : windowOf x = .vram) : placeOf b x = some (.vram (vramIndex x)) := by
  unfold placeOf vramIndex; rw [w]
theorem placeOf_eram (b : Bus) {x : Addr} (w : windowOf x = .eram) : placeOf b x = some (.eram (eramOffset b x)) := by
  unfold placeOf eramOffset; rw [w]
theorem placeOf_wram (b : Bus) {x : Addr} (w : windowOf x = .wram) : placeOf b x = some (.wram (wramIndex x)) := by
  unfold placeOf wramIndex; rw [w]
theorem placeOf_echo (b : Bus) {x : Addr} (w : windowOf x = .echo) : placeOf b x = some (.wram (echoIndex x)) := by
  unfold placeOf echoIndex; rw [w]
theorem placeOf_oam (b : Bus) {x : Addr} (w : windowOf x = .oam) : placeOf b x = some (.oam (oamIndex x)) := by
  unfold placeOf oamIndex; rw [w]
theorem placeOf_zp (b : Bus) {x : Addr} (w : windowOf x = .zp) : placeOf b x = some (.zp (zpIndex x)) := by
  unfold placeOf zpIndex; rw [w]
theorem placeOf_romx (b : Bus) {x : Addr} (w : windowOf x = .romx) : placeOf b x = some (.rom (romxIndex b x)) := by
  unfold placeOf romxIndex; rw [w]
theorem placeOf_rom0 (b : Bus) {x : Addr} (w : windowOf x = .rom0) : ∃ i, placeOf b x = some (.bios i) ∨ placeOf b x = some (.rom i) := by
  simp only [placeOf, w]; split <;> simp
theorem placeOf_unmapped (b : Bus) {x : Addr} (w : windowOf x = .unmapped) : placeOf b x = none := by
  unfold placeOf; rw [w]

theorem busLegal_bufs {cfg : Config} {b : Bus} (h : busLegal cfg b = true) :
    b.wram.wf = true ∧ b.eram.wf = true ∧ b.zp.wf = true ∧ b.own.lcd.vram.wf = true ∧ b.own.lcd.oam.wf = true := by
  simp only [busLegal, ownersLegal, Bool.and_eq_true] at h
  exact ⟨Memory.wf_of_fits h.1.1.1.2, Memory.wf_of_fits h.1.1.2, Memory.wf_of_fits h.1.2, Memory.wf_of_fits h.2.1, Memory.wf_of_fits h.2.2⟩

theorem ioRead_congr {b b' : Bus} (x : Addr) (h1 : b'.wired = b.wired) (h2 : b'.inBios = b.inBios) (h3 : ∀ c, ownerGet b'.own c = ownerGet b.own c) :
    ioRead b' x = ioRead b x := by
  unfold ioRead
  split
  · rename_i r _
    cases r with
    | cell c => simp only [readIoReg, Bus.needsForRead, h1, h3]
    | dmaTrigger => rfl
    | biosLatch => simp only [readIoReg, h2]
  · rfl

theorem seen_wram (b : Bus) (i : Nat) (v : Byte) (hm : b.wram.wf = true) (x : Addr) :
    read8 (b.withWram (b.wram.write i v)) x = if placeOf b x = some (.wram i) then .ok (v, []) else read8 b x := by
  have io : ioRead (b.withWram (b.wram.write i v)) x = ioRead b x := ioRead_congr x rfl rfl fun _ => rfl
  have pl : ¬ ioPlace x = some (.wram i) := by rcases ioPlace_cases x with h | h | ⟨c, h⟩ <;> simp [h]
  obtain ⟨k, w, h⟩ := windowOf_cases x
  cases k
  · rw [if_neg (by obtain ⟨j, h | h⟩ := placeOf_rom0 b w <;> rw [h] <;> exact fun hc => nomatch hc)]; simp only [read8, w]; rfl
  · rw [placeOf_romx b w, if_neg (fun hc => nomatch hc)]; simp only [read8, w]; rfl
  · rw [placeOf_vram b w, if_neg (fun hc => nomatch hc)]; simp only [read8, w]; rfl
  · rw [placeOf_eram b w, if_neg (fun hc => nomatch hc)]; simp only [read8, w]; rfl
  · rw [placeOf_wram b w]
    simp only [read8, w, readWram, Bus.withWram_wram, Memory.read_write hm, Option.some.injEq, Place.wram.injEq]
    generalize wramIndex x = j
    split <;> rfl
  · rw [placeOf_echo b w]
    simp only [read8, w, readEcho, Bus.withWram_wram, Memory.read_write hm, Option.some.injEq, Place.wram.injEq]
    generalize echoIndex x = j
    split <;> rfl
  · rw [placeOf_oam b w, if_neg (fun hc => nomatch hc)]; simp only [read8, w]; rfl
  · rw [placeOf_unmapped b w, if_neg (fun hc => nomatch hc)]; simp only [read8, w]
  · rw [place_io b x (.inl w), if_neg pl]; simp only [read8, w, io]
  · rw [placeOf_zp b w, if_neg (fun hc => nomatch hc)]; simp only [read8, w]; rfl
  · rw [place_io b x (.inr w), if_neg pl]; simp only [read8, w, io]

theorem seen_zp (b : Bus) (i : Nat) (v : Byte) (hm : b.zp.wf = true) (x : Addr) :
    read8 (b.withZp (b.zp.write i v)) x = if placeOf b x = some (.zp i) then .ok (v, []) else read8 b x := by
  have io : ioRead (b.withZp (b.zp.write i v)) x = ioRead b x := ioRead_congr x rfl rfl fun _ => rfl
  have pl : ¬ ioPlace x = some (.zp i) := by rcases ioPlace_cases x with h | h | ⟨c, h⟩ <;> simp [h]
  obtain ⟨k, w, h⟩ := windowOf_cases x
  cases k
  · rw [if_neg (by obtain ⟨j, h | h⟩ := placeOf_rom0 b w <;> rw [h] <;> exact fun hc => nomatch hc)]; simp only [read8, w]; rfl
  · rw [placeOf_romx b w, if_neg (fun hc => nomatch hc)]; simp only [read8, w]; rfl
  · rw [placeOf_vram b w, if_neg (fun hc => nomatch hc)]; simp only [read8, w]; rfl
  · rw [placeOf_eram b w, if_neg (fun hc => nomatch hc)]; simp only [read8, w]; rfl
  · rw [placeOf_wram b w, if_neg (fun hc => nomatch hc)]; simp only [read8, w]; rfl
  · rw [placeOf_echo b w, if_neg (fun hc => nomatch hc)]; simp only [read8, w]; rfl
  · rw [placeOf_oam b w, if_neg (fun hc => nomatch hc)]; simp only [read8, w]; rfl
  · rw [placeOf_unmapped b w, if_neg (fun hc => nomatch hc)]; simp only [read8, w]
  · rw [place_io b x (.inl w), if_neg pl]; simp only [read8, w, io]
  · rw [placeOf_zp b w]
    simp only [read8, w, readZp, Bus.withZp_zp, Memory.read_write hm, Option.some.injEq, Place.zp.injEq]
    generalize zpIndex x = j
    split <;> rfl
  · rw [place_io b x (.inr w), if_neg pl]; simp only [read8, w, io]

theorem seen_eram (b : Bus) (i : Nat) (v : Byte) (hm : b.eram.wf = true) (hi : i < b.ramSize.bytes) (x : Addr) :
    read8 (b.withEram (b.eram.write i v)) x = if placeOf b x = some (.eram i) then .ok (v, []) else read8 b x := by
  have io : ioRead (b.withEram (b.eram.write i v)) x = ioRead b x := ioRead_congr x rfl rfl fun _ => rfl
  have pl : ¬ ioPlace x = some (.eram i) := by rcases ioPlace_cases x with h | h | ⟨c, h⟩ <;> simp [h]
  obtain ⟨k, w, h⟩ := windowOf_cases x
  cases k
  · rw [if_neg (by obtain ⟨j, h | h⟩ := placeOf_rom0 b w <;> rw [h] <;> exact fun hc => nomatch hc)]; simp only [read8, w]; rfl
  · rw [placeOf_romx b w, if_neg (fun hc => nomatch hc)]; simp only [read8, w]; rfl
  · rw [placeOf_vram b w, if_neg (fun hc => nomatch hc)]; simp only [read8, w]; rfl
  · rw [placeOf_eram b w]
    have hidx : eramIndex (b.withEram (b.eram.write i v)) x = eramIndex b x := rfl
    simp only [read8, w, readEram, hidx, Option.some.injEq, Place.eram.injEq]
    cases hj : eramIndex b x with
    | ok j =>
      rw [(eramIndex_ok_iff.1 hj).2]
      simp only [Bus.withEram_eram, Memory.read_write hm]
      split <;> rfl
    | error c =>
      rw [if_neg]
      intro he
      rw [eramIndex_ok (by rw [he]; exact hi)] at hj
      cases hj
  · rw [placeOf_wram b w, if_neg (fun hc => nomatch hc)]; simp only [read8, w]; rfl
  · rw [placeOf_echo b w, if_neg (fun hc => nomatch hc)]; simp only [read8, w]; rfl
  · rw [placeOf_oam b w, if_neg (fun hc => nomatch hc)]; simp only [read8, w]; rfl
  · rw [placeOf_unmapped b w, if_neg (fun hc => nomatch hc)]; simp only [read8, w]
  · rw [place_io b x (.inl w), if_neg pl]; simp only [read8, w, io]
  · rw [placeOf_zp b w, if_neg (fun hc => nomatch hc)]; simp only [read8, w]; rfl
  · rw [place_io b x (.inr w), if_neg pl]; simp only [read8, w, io]

theorem seen_vram (b : Bus) (i : Nat) (v : Byte) (hm : b.own.lcd.vram.wf = true) (hw : b.wired.display = true) (x : Addr) :
    read8 (b.withOwn (ownerSetVram b.own i v)) x = if placeOf b x = some (.vram i) then .ok (v, []) else read8 b x := by
  have io : ioRead (b.withOwn (ownerSetVram b.own i v)) x = ioRead b x := ioRead_congr x rfl rfl fun _ => ownerGet_setVram _ _ _ _
  have pl : ¬ ioPlace x = some (.vram i) := by rcases ioPlace_cases x with h | h | ⟨c, h⟩ <;> simp [h]
  obtain ⟨k, w, h⟩ := windowOf_cases x
  cases k
  · rw [if_neg (by obtain ⟨j, h | h⟩ := placeOf_rom0 b w <;> rw [h] <;> exact fun hc => nomatch hc)]; simp only [read8, w]; rfl
  · rw [placeOf_romx b w, if_neg (fun hc => nomatch hc)]; simp only [read8, w]; rfl
  · rw [placeOf_vram b w]
    have hb : b.wired.has .display = true := hw
    have hb' : (b.withOwn (ownerSetVram b.own i v)).wired.has .display = true := hw
    simp only [read8, w, readVram]
    rw [Bus.needsForRead_wired hb', Bus.needsForRead_wired hb]
    simp only [Bus.withOwn_own, ownerSetVram, Memory.read_write hm, Option.some.injEq, Place.vram.injEq]
    generalize vramIndex x = j
    split <;> rfl
  · rw [placeOf_eram b w, if_neg (fun hc => nomatch hc)]; simp only [read8, w]; rfl
  · rw [placeOf_wram b w, if_neg (fun hc => nomatch hc)]; simp only [read8, w]; rfl
  · rw [placeOf_echo b w, if_neg (fun hc => nomatch hc)]; simp only [read8, w]; rfl
  · rw [placeOf_oam b w, if_neg (fun hc => nomatch hc)]; simp only [read8, w]; rfl
  · rw [placeOf_unmapped b w, if_neg (fun hc => nomatch hc)]; simp only [read8, w]
  · rw [place_io b x (.inl w), if_neg pl]; simp only [read8, w, io]
  · rw [placeOf_zp b w, if_neg (fun hc => nomatch hc)]; simp only [read8, w]; rfl
  · rw [place_io b x (.inr w), if_neg pl]; simp only [read8, w, io]

theorem seen_oam (b : Bus) (i : Nat) (v : Byte) (hm : b.own.lcd.oam.wf = true) (hw : b.wired.display = true) (x : Addr) :
    read8 (b.withOwn (ownerSetOam b.own i v)) x = if placeOf b x = some (.oam i) then .ok (v, []) else read8 b x := by
  have io : ioRead (b.withOwn (ownerSetOam b.own i v)) x = ioRead b x := ioRead_congr x rfl rfl fun _ => ownerGet_setOam _ _ _ _
  have pl : ¬ ioPlace x = some (.oam i) := by rcases ioPlace_cases x with h | h | ⟨c, h⟩ <;> simp [h]
  obtain ⟨k, w, h⟩ := windowOf_cases x
  cases k
  · rw [if_neg (by obtain ⟨j, h | h⟩ := placeOf_rom0 b w <;> rw [h] <;> exact fun hc => nomatch hc)]; simp only [read8, w]; rfl
  · rw [placeOf_romx b w, if_neg (fun hc => nomatch hc)]; simp only [read8, w]; rfl
  · rw [placeOf_vram b w, if_neg (fun hc => nomatch hc)]; simp only [read8, w]; rfl
  · rw [placeOf_eram b w, if_neg (fun hc => nomatch hc)]; simp only [read8, w]; rfl
  · rw [placeOf_wram b w, if_neg (fun hc => nomatch hc)]; simp only [read8, w]; rfl
  · rw [placeOf_echo b w, if_neg (fun hc => nomatch hc)]; simp only [read8, w]; rfl
  · rw [placeOf_oam b w]
    have hb : b.wired.has .display = true := hw
    have hb' : (b.withOwn (ownerSetOam b.own i v)).wired.has .display = true := hw
    simp only [read8, w, readOam]
    rw [Bus.needsForRead_wired hb', Bus.needsForRead_wired hb]
    simp only [Bus.withOwn_own, ownerSetOam, Memory.read_write hm, Option.some.injEq, Place.oam.injEq]
    generalize oamIndex x = j
    split <;> rfl
  · rw [placeOf_unmapped b w, if_neg (fun hc => nomatch hc)]; simp only [read8, w]
  · rw [place_io b x (.inl w), if_neg pl]; simp only [read8, w, io]
  · rw [placeOf_zp b w, if_neg (fun hc => nomatch hc)]; simp only [read8, w]; rfl
  · rw [place_io b x (.inr w), if_neg pl]; simp only [read8, w, io]

/-- Everything a store to plain storage does. -/
theorem plain_store (cfg : Config) (b : Bus) (a : Addr) (v : Byte) (hl : busLegal cfg b = true) (hp : plainStorage b a = true) :
    ∃ b', write8 cfg b a v = .done b' ∧ busLegal cfg b' = true ∧ (∀ x, plainStorage b' x = plainStorage b x) ∧
      (∀ x, placeOf b' x = placeOf b x) ∧
      ∀ x, read8 b' x = if placeOf b x = placeOf b a then .ok (v, []) else read8 b x := by
  obtain ⟨m1, m2, m3, m4, m5⟩ := busLegal_bufs hl
  have hl' := hl
  simp only [busLegal, ownersLegal, Bool.and_eq_true] at hl'
  obtain ⟨⟨⟨⟨⟨⟨⟨⟨b1, b2⟩, b3⟩, b4⟩, b5⟩, f1⟩, f2⟩, f3⟩, f4, f5⟩ := hl'
  obtain ⟨k, w, h⟩ := windowOf_cases a
  cases k <;>
    simp only [plainStorage, w] at hp
  case rom0 => cases hp
  case romx => cases hp
  case unmapped => cases hp
  case io => cases hp
  case ie => cases hp
  case vram =>
    refine ⟨b.withOwn (ownerSetVram b.own (vramIndex a) v), ?_, ?_, fun _ => rfl, fun _ => rfl, fun x => ?_⟩
    · simp only [write8, write8With, w, writeVram]; exact Bus.needsForWrite_wired (o := .display) hp _
    · simp only [busLegal, ownersLegal, Bool.and_eq_true]
      exact ⟨⟨⟨⟨⟨⟨⟨⟨b1, b2⟩, b3⟩, b4⟩, b5⟩, f1⟩, f2⟩, f3⟩, Memory.fits_write _ f4 (by unfold vramIndex; omega), f5⟩
    · rw [seen_vram b _ v m4 hp]; rw [placeOf_vram b w]
  case eram =>
    simp only [Bool.and_eq_true, decide_eq_true_eq, Bool.or_eq_true, beq_iff_eq] at hp
    refine ⟨b.withEram (b.eram.write (eramOffset b a) v), ?_, ?_, fun _ => rfl, fun _ => rfl, fun x => ?_⟩
    · simp only [write8, write8With, w]
      rw [writeEram_cases b a v h.1 h.2, if_pos hp.1, eramStore, eramIndex_ok hp.2]
    · simp only [busLegal, ownersLegal, Bool.and_eq_true]
      exact ⟨⟨⟨⟨⟨⟨⟨⟨b1, b2⟩, b3⟩, b4⟩, b5⟩, f1⟩, Memory.fits_write _ f2 hp.2⟩, f3⟩, f4, f5⟩
    · rw [seen_eram b (eramOffset b a) v m2 hp.2]; rw [placeOf_eram b w]
  case wram =>
    refine ⟨b.withWram (b.wram.write (wramIndex a) v), ?_, ?_, fun _ => rfl, fun _ => rfl, fun x => ?_⟩
    · simp only [write8, write8With, w, writeWram]
    · simp only [busLegal, ownersLegal, Bool.and_eq_true]
      exact ⟨⟨⟨⟨⟨⟨⟨⟨b1, b2⟩, b3⟩, b4⟩, b5⟩, Memory.fits_write _ f1 (by unfold wramIndex; omega)⟩, f2⟩, f3⟩, f4, f5⟩
    · rw [seen_wram b _ v m1]; rw [placeOf_wram b w]
  case echo =>
    refine ⟨b.withWram (b.wram.write (echoIndex a) v), ?_, ?_, fun _ => rfl, fun _ => rfl, fun x => ?_⟩
    · simp only [write8, write8With, w, writeEcho]
    · simp only [busLegal, ownersLegal, Bool.and_eq_true]
      exact ⟨⟨⟨⟨⟨⟨⟨⟨b1, b2⟩, b3⟩, b4⟩, b5⟩, Memory.fits_write _ f1 (by unfold echoIndex; omega)⟩, f2⟩, f3⟩, f4, f5⟩
    · rw [seen_wram b _ v m1]; rw [placeOf_echo b w]
  case oam =>
    refine ⟨b.withOwn (ownerSetOam b.own (oamIndex a) v), ?_, ?_, fun _ => rfl, fun _ => rfl, fun x => ?_⟩
    · simp only [write8, write8With, w, writeOam]; exact Bus.needsForWrite_wired (o := .display) hp _
    · simp only [busLegal, ownersLegal, Bool.and_eq_true]
      exact ⟨⟨⟨⟨⟨⟨⟨⟨b1, b2⟩, b3⟩, b4⟩, b5⟩, f1⟩, f2⟩, f3⟩, f4, Memory.fits_write _ f5 (by unfold oamIndex; omega)⟩
    · rw [seen_oam b _ v m5 hp]; rw [placeOf_oam b w]
  case zp =>
    refine ⟨b.withZp (b.zp.write (zpIndex a) v), ?_, ?_, fun _ => rfl, fun _ => rfl, fun x => ?_⟩
    · simp only [write8, write8With, w, writeZp]
    · simp only [busLegal, ownersLegal, Bool.and_eq_true]
      exact ⟨⟨⟨⟨⟨⟨⟨⟨b1, b2⟩, b3⟩, b4⟩, b5⟩, f1⟩, f2⟩, Memory.fits_write _ f3 (by unfold zpIndex; omega)⟩, f4, f5⟩
    · rw [seen_zp b _ v m3]; rw [placeOf_zp b w]

end Sys2Proof.Machine
end

