-- ==== Sys2Proof/Laws/Words.lean ====
section
/-! SUPPORT. Words as bytes (spec/30_encoding.md R134), the address of the high byte, that the two bytes of a word of
plain storage lie at different places (spec/40_bus_access.md R187), and the byte accesses of a word. -/

namespace Sys2Proof.Machine

open Sys2Proof.Laws

/-- The word `hi ++ lo` as a number (R134). -/
theorem append_toNat (hi lo : Byte) : (hi ++ lo : Word).toNat = hi.toNat * 256 + lo.toNat := by
  have := lo.isLt
  rw [BitVec.toNat_append, ← Nat.shiftLeft_add_eq_or_of_lt this, Nat.shiftLeft_eq]
theorem lowByte_toNat (w : Word) : (lowByte w).toNat = w.toNat % 256 := by simp [lowByte]
theorem highByte_toNat (w : Word) : (highByte w).toNat = w.toNat / 256 := by
  have := w.isLt
  simp [highByte, Nat.shiftRight_eq_div_pow]; omega
theorem append_bytes (w : Word) : (highByte w ++ lowByte w : Word) = w := by
  apply BitVec.eq_of_toNat_eq
  rw [append_toNat, lowByte_toNat, highByte_toNat]; omega

theorem lowByte_setWidth (v : Byte) : lowByte (v.setWidth 16) = v := by
  apply BitVec.eq_of_toNat_eq
  have := v.isLt
  simp [lowByte]
  omega

theorem next_ne {a : Addr} (ha : a ≠ 0xFFFF) : nextAddr a ≠ 0 ∧ nextAddr a - 1 = a := by
  refine ⟨fun h => ha ?_, ?_⟩
  · have : nextAddr a - 1 = a := by unfold nextAddr; simp
    rw [h] at this; rw [← this]; rfl
  · unfold nextAddr; simp

/-- The byte accesses of a word write that completes: two, and a copy's where one byte lands on the trigger (R392). -/
theorem writeWord_accesses {cfg : Config} {b : Bus} {a : Addr} {w : Word} (h : (writeWord cfg b a w).ending = .ok) :
    (writeWord cfg b a w).accesses = if a = 0xFF46 ∨ a = 0xFF45 then 322 else 2 := by
  have next : nextAddr a = 0xFF46 ↔ a = 0xFF45 :=
    ⟨fun h => (BitVec.add_left_inj 1#16).1 h, fun h => h ▸ rfl⟩
  unfold writeWord at h ⊢
  by_cases h1 : (write8 cfg b a (lowByte w)).ending = .ok
  · rw [Run.andThen_ok h1] at h ⊢
    simp only [write8_accesses h1, write8_accesses h, next]
    have hne : ¬ (a = 0xFF46 ∧ a = 0xFF45) := by rintro ⟨rfl, h⟩; exact absurd h (by decide)
    split <;> split <;> simp_all
  · rw [Run.andThen_stop h1] at h; exact absurd h h1

/-- The byte accesses of a word read that completes (R392). -/
theorem readWord_accesses {b : Bus} {a : Addr} (h : (readWord b a).ending = .ok) : (readWord b a).accesses = 2 := by
  unfold readWord at h ⊢
  cases hx : read8 b a with
  | error x => rw [hx, Reads.two_error rfl] at h; exact absurd h x.ending_ne_ok
  | ok p =>
    cases hx' : read8 b (nextAddr a) with
    | error x => rw [hx, hx', Reads.two_ok_error rfl rfl] at h; exact absurd h x.ending_ne_ok
    | ok q => rw [Reads.two_ok rfl rfl]; rfl

/-- Neighbouring addresses of plain storage name different places. -/
theorem next_place (b : Bus) (a : Addr) (ha : a ≠ 0xFFFF) (hp : plainStorage b a = true) (hp' : plainStorage b (nextAddr a) = true) :
    placeOf b (nextAddr a) ≠ placeOf b a := by
  have hn : (nextAddr a).toNat = a.toNat + 1 := by
    have : a.toNat ≠ 0xFFFF := fun h => ha (BitVec.eq_of_toNat_eq h)
    have := a.isLt
    unfold nextAddr
    rw [BitVec.toNat_add]
    show (a.toNat + 1) % 65536 = _
    omega
  intro he
  obtain ⟨k, w, h⟩ := windowOf_cases a
  cases k <;>
  (obtain ⟨k', w', h'⟩ := windowOf_cases (nextAddr a); cases k') <;>
  first
  | omega
  | (simp only [plainStorage, w] at hp; exact absurd hp Bool.false_ne_true)
  | (simp only [plainStorage, w'] at hp'; exact absurd hp' Bool.false_ne_true)
  | skip
  · rw [placeOf_vram b w, placeOf_vram b w'] at he
    have := Place.vram.inj (Option.some.inj he); unfold vramIndex at this; omega
  · rw [placeOf_vram b w, placeOf_eram b w'] at he; exact nomatch he
  · rw [placeOf_eram b w, placeOf_eram b w'] at he
    have := Place.eram.inj (Option.some.inj he); unfold eramOffset at this; omega
  · rw [placeOf_eram b w, placeOf_wram b w'] at he; exact nomatch he
  · rw [placeOf_wram b w, placeOf_wram b w'] at he
    have := Place.wram.inj (Option.some.inj he); unfold wramIndex at this; omega
  · rw [placeOf_wram b w, placeOf_echo b w'] at he
    have := Place.wram.inj (Option.some.inj he); unfold wramIndex echoIndex at this; omega
  · rw [placeOf_echo b w, placeOf_echo b w'] at he
    have := Place.wram.inj (Option.some.inj he); unfold echoIndex at this; omega
  · rw [placeOf_echo b w, placeOf_oam b w'] at he; exact nomatch he
  · rw [placeOf_oam b w, placeOf_oam b w'] at he
    have := Place.oam.inj (Option.some.inj he); unfold oamIndex at this; omega
  · rw [placeOf_zp b w, placeOf_zp b w'] at he
    have := Place.zp.inj (Option.some.inj he); unfold zpIndex at this; omega

end Sys2Proof.Machine
end

