-- ==== Sys2Proof/Laws/Events.lean ====
section
/-! SUPPORT. The events of a byte access, of a copy and of a word write, and how many there can be (spec/30_encoding.md
R122, spec/43_dma.md R288). -/

namespace Sys2Proof.Machine

open Sys2Proof.Laws

/-- A read emits an event only at an unimplemented address or the DMA trigger (R268, R256). -/
def emits (a : Addr) : Nat := if 0xFF00 ≤ a.toNat ∧ a.toNat ≤ 0xFF7F ∧ (ioRegOf a = none ∨ ioRegOf a = some .dmaTrigger) then 1 else 0

theorem read8_emits {b : Bus} {a : Addr} {v : Byte} {e : List Event} (h : read8 b a = .ok (v, e)) : e.length ≤ emits a := by
  have word : ∀ {k : ByteRead} {o : Owner}, b.needsForRead o k = .ok (v, e) → k = .ok (v, e) := by
    intro k o hk
    unfold Bus.needsForRead at hk
    split at hk
    · exact hk
    · cases hk
  have rom : ∀ {i : Nat}, romByte b i = .ok (v, e) → e = [] := by
    intro i hi
    unfold romByte at hi
    split at hi <;> simp_all
  obtain ⟨k, w, g⟩ := windowOf_cases a
  cases k <;>
    simp only [read8, w] at h
  · unfold readLow at h
    split at h
    · cases h; exact Nat.zero_le _
    · rw [rom h]; exact Nat.zero_le _
  · rw [rom h]; exact Nat.zero_le _
  · cases word h; exact Nat.zero_le _
  · unfold readEram at h
    split at h
    · cases h; exact Nat.zero_le _
    · cases h
  · cases h; exact Nat.zero_le _
  · cases h; exact Nat.zero_le _
  · cases word h; exact Nat.zero_le _
  · cases h; exact Nat.zero_le _
  · unfold ioRead at h
    unfold emits
    cases hr : ioRegOf a with
    | none => rw [hr] at h; cases h; rw [if_pos ⟨g.1, g.2, .inl rfl⟩]; exact Nat.le_refl _
    | some r =>
      rw [hr] at h
      cases r with
      | cell c => cases word h; exact Nat.zero_le _
      | dmaTrigger => cases h; rw [if_pos ⟨g.1, g.2, .inr rfl⟩]; exact Nat.le_refl _
      | biosLatch => cases h; exact Nat.zero_le _
  · cases h; exact Nat.zero_le _
  · have hr : ioRegOf a = some (.cell .irqEnable) := by
      have : a = 0xFFFF := BitVec.eq_of_toNat_eq g
      rw [this]; rfl
    unfold ioRead at h
    rw [hr] at h
    cases word h; exact Nat.zero_le _

theorem dma_events (cfg : Config) (page : Byte) : ∀ (n i : Nat) (b : Bus), i + n ≤ 160 →
    (dmaFrom cfg page n i b).events.length ≤ ((List.range' i n).map fun j => emits (dmaSource page j)).sum := by
  intro n
  induction n with
  | zero => intro i b _; exact Nat.zero_le _
  | succ n ih =>
    intro i b hi
    rw [List.range'_succ, List.map_cons, List.sum_cons]
    cases hr : read8 b (dmaSource page i) with
    | error x => rw [dmaFrom, dmaByte_error hr, Run.andThen_stop x.ending_ne_ok]; exact Nat.zero_le _
    | ok p =>
      obtain ⟨v, e⟩ := p
      have he := read8_emits hr
      cases hw : b.wired.display with
      | false =>
        rw [dmaFrom, dmaByte_unwired (by omega) hw hr, Run.andThen_stop (by simp)]
        exact Nat.le_trans he (Nat.le_add_right _ _)
      | true =>
        rw [dmaFrom, dmaByte_ok (by omega) hw hr, Run.andThen_ok rfl]
        have := ih (i + 1) (b.withOam (b.own.lcd.oam.write i v)) (by omega)
        simp only [List.length_append]
        omega

set_option maxRecDepth 4000 in
theorem emits_io : ((List.range' 0 160).map fun j => emits (dmaSource 0xFF j)).sum = 112 := by decide

theorem sum_zero {l : List Nat} {f : Nat → Nat} (h : ∀ x ∈ l, f x = 0) : (l.map f).sum = 0 := by
  induction l with
  | nil => rfl
  | cons x l ih =>
    rw [List.map_cons, List.sum_cons, h x (List.mem_cons_self ..), ih fun y hy => h y (List.mem_cons_of_mem _ hy)]

theorem dmaCopy_events (cfg : Config) (b : Bus) (page : Byte) : (dmaCopy cfg b page).events.length ≤ 112 := by
  rw [dmaCopy_eq]
  refine Nat.le_trans (dma_events cfg page 160 0 b (by omega)) ?_
  by_cases hp : page = 0xFF
  · subst hp; rw [emits_io]
  · rw [sum_zero]
    · omega
    · intro j hj
      have hj : j < 160 := by simpa using hj
      have h1 := dmaSource_toNat page hj
      have h2 : page.toNat ≠ 0xFF := fun h => hp (BitVec.eq_of_toNat_eq h)
      have h3 := page.isLt
      unfold emits
      rw [if_neg]
      rintro ⟨h4, -⟩
      omega

/-- Events of a byte write. -/
theorem write8_events (cfg : Config) (b : Bus) (a : Addr) (v : Byte) :
    (write8 cfg b a v).events.length ≤ if a.toNat = 0xFF46 then 112 else if 0xFF00 ≤ a.toNat ∧ a.toNat ≤ 0xFF7F then 1 else 0 := by
  have h := write8With_effect (dmaCopy cfg) cfg b a v
  show (write8With (dmaCopy cfg) cfg b a v).events.length ≤ _
  generalize write8With (dmaCopy cfg) cfg b a v = r at h
  cases h
  case unimplemented h1 h2 => 
    split
    · simp [writeUnimplemented]
    · rw [if_pos ⟨h1, h2⟩]; exact Nat.le_refl _
  case copy h1 => rw [if_pos h1]; exact dmaCopy_events cfg b v
  all_goals exact Nat.zero_le _

theorem cell_events (cfg : Config) (b : Bus) (a : Addr) (v : Byte) {c : RegCell} (h : ioRegOf a = some (.cell c)) (hw : windowOf a = .io) :
    (write8 cfg b a v).events = [] := by
  simp only [write8, write8With, hw, ioWrite, h, writeIoReg]
  split
  · rfl
  · unfold Bus.needsForWrite; split <;> rfl

theorem writeWord_events (cfg : Config) (b : Bus) (a : Addr) (w : Word) (ha : a ≠ 0xFFFF) : (writeWord cfg b a w).events.length ≤ 112 := by
  have hn : (nextAddr a).toNat = a.toNat + 1 := by
    have : a.toNat ≠ 0xFFFF := fun h => ha (BitVec.eq_of_toNat_eq h)
    have := a.isLt
    unfold nextAddr
    rw [BitVec.toNat_add]
    show (a.toNat + 1) % 65536 = _
    omega
  have h1 := write8_events cfg b a (lowByte w)
  by_cases he : (write8 cfg b a (lowByte w)).ending = .ok
  · rw [writeWord, Run.andThen_ok he]
    simp only [List.length_append]
    have h2 := write8_events cfg (write8 cfg b a (lowByte w)).bus (nextAddr a) (highByte w)
    by_cases h46 : a.toNat = 0xFF46
    · have : (write8 cfg (write8 cfg b a (lowByte w)).bus (nextAddr a) (highByte w)).events = [] := by
        have : a = 0xFF46 := BitVec.eq_of_toNat_eq h46
        subst this
        exact cell_events _ _ _ _ (c := .palette0) rfl rfl
      rw [this]
      rw [if_pos h46] at h1
      simpa using h1
    by_cases h45 : a.toNat = 0xFF45
    · have : (write8 cfg b a (lowByte w)).events = [] := by
        have : a = 0xFF45 := BitVec.eq_of_toNat_eq h45
        subst this
        exact cell_events _ _ _ _ (c := .scanlineCompare) rfl rfl
      rw [this]
      rw [if_pos (by omega)] at h2
      simpa using h2
    rw [if_neg h46] at h1
    rw [if_neg (by omega)] at h2
    have h1' : (write8 cfg b a (lowByte w)).events.length ≤ 1 := by split at h1 <;> omega
    have h2' : (write8 cfg (write8 cfg b a (lowByte w)).bus (nextAddr a) (highByte w)).events.length ≤ 1 := by split at h2 <;> omega
    omega
  · rw [writeWord, Run.andThen_stop he]
    split at h1
    · exact h1
    · split at h1 <;> omega

end Sys2Proof.Machine
end

