-- ==== Sys2Proof/Laws/Legal.lean ====
section
/-! SUPPORT. The invariant of Safety.lean under each operation (spec/10_state.md R48, R49), and which accesses can be
fatal (spec/60_exceptions.md R321). -/

namespace Sys2Proof.Machine

open Sys2Proof.Laws

theorem busLegal_iff {cfg : Config} {b : Bus} : busLegal cfg b = true ↔
    b.bios = cfg.biosImage ∧ b.rom.wf = true ∧ romBankLegal b.bc = true ∧ ramBankLegal b.bc = true ∧ romOnlyFrozen b.bc = true ∧
    b.wram.fits 8192 = true ∧ b.eram.fits b.ramSize.bytes = true ∧ b.zp.fits 128 = true ∧
    b.own.lcd.vram.fits 8192 = true ∧ b.own.lcd.oam.fits 160 = true := by
  simp only [busLegal, ownersLegal, Bool.and_eq_true, beq_iff_eq, and_assoc]

theorem romOnlyFrozen_banked {c : Bank} (h : c.mode ≠ .romOnly) : romOnlyFrozen c = true := by
  simp [romOnlyFrozen, h]

theorem ownStore_legal {b : Bus} {a : Addr} {v : Byte} {o : Owners} (h : OwnStore b a v o)
    (h1 : b.own.lcd.vram.fits 8192 = true) (h2 : b.own.lcd.oam.fits 160 = true) :
    o.lcd.vram.fits 8192 = true ∧ o.lcd.oam.fits 160 = true := by
  cases h with
  | vram g g' => exact ⟨Memory.fits_write _ h1 (by unfold vramIndex; omega), h2⟩
  | oam g g' => exact ⟨h1, Memory.fits_write _ h2 (by unfold oamIndex; omega)⟩
  | cell c x _ _ _ => rw [ownerSet_vram, ownerSet_oam]; exact ⟨h1, h2⟩

theorem write8_legal {cfg : Config} {b : Bus} (a : Addr) (v : Byte) (hl : busLegal cfg b = true) :
    busLegal cfg (write8 cfg b a v).bus = true := by
  have h := write8With_effect (dmaCopy cfg) cfg b a v
  show busLegal cfg (write8With (dmaCopy cfg) cfg b a v).bus = true
  generalize write8With (dmaCopy cfg) cfg b a v = r at h
  have hl0 := hl
  rw [busLegal_iff] at hl
  obtain ⟨b1, b2, b3, b4, b5, f1, f2, f3, f4, f5⟩ := hl
  cases h with
  | nothing => exact hl0
  | stop x _ _ => exact hl0
  | unimplemented _ _ => exact hl0
  | bank c hm _ _ hc h3 h4 =>
    exact busLegal_iff.2 ⟨b1, b2, h3 b3, h4 b4, romOnlyFrozen_banked (by rw [Run.done, Bus.withBc_bc, hc]; exact hm), f1, f2, f3, f4, f5⟩
  | eram _ _ h3 => exact busLegal_iff.2 ⟨b1, b2, b3, b4, b5, f1, Memory.fits_write _ f2 h3, f3, f4, f5⟩
  | wram i _ _ h3 => exact busLegal_iff.2 ⟨b1, b2, b3, b4, b5, Memory.fits_write _ f1 h3, f2, f3, f4, f5⟩
  | zp _ _ h3 => exact busLegal_iff.2 ⟨b1, b2, b3, b4, b5, f1, f2, Memory.fits_write _ f3 h3, f4, f5⟩
  | own o ho =>
    have := ownStore_legal ho f4 f5
    exact busLegal_iff.2 ⟨b1, b2, b3, b4, b5, f1, f2, f3, this.1, this.2⟩
  | latch _ => exact busLegal_iff.2 ⟨b1, b2, b3, b4, b5, f1, f2, f3, f4, f5⟩
  | copy _ =>
    obtain ⟨m, hm, hf, -, -⟩ := dmaCopy_frame cfg b v
    rw [hm]
    exact busLegal_iff.2 ⟨b1, b2, b3, b4, b5, f1, f2, f3, f4, hf f5⟩

theorem write8_ending (cfg : Config) (b : Bus) (a : Addr) (v : Byte) :
    (write8 cfg b a v).ending ≠ .fatal .unsupportedBankController ∧ (write8 cfg b a v).ending ≠ .fatal .unsupportedRamSize := by
  have h := write8With_effect (dmaCopy cfg) cfg b a v
  show (write8With (dmaCopy cfg) cfg b a v).ending ≠ _ ∧ (write8With (dmaCopy cfg) cfg b a v).ending ≠ _
  generalize write8With (dmaCopy cfg) cfg b a v = r at h
  cases h with
  | stop x h1 h2 => cases x <;> simp_all [Run.stop, Stop.ending]
  | copy _ => obtain ⟨m, -, -, h1, h2⟩ := dmaCopy_frame cfg b v; exact ⟨h1, h2⟩
  | nothing => simp [Run.done]
  | unimplemented _ _ => simp [writeUnimplemented]
  | bank _ _ _ _ _ _ _ => simp [Run.done]
  | eram _ _ _ => simp [Run.done]
  | wram _ _ _ _ => simp [Run.done]
  | zp _ _ _ => simp [Run.done]
  | own _ _ => simp [Run.done]
  | latch _ => simp [Run.done]

theorem writeWord_legal {cfg : Config} {b : Bus} (a : Addr) (w : Word) (hl : busLegal cfg b = true) :
    busLegal cfg (writeWord cfg b a w).bus = true := by
  unfold writeWord
  by_cases he : (write8 cfg b a (lowByte w)).ending = .ok
  · rw [Run.andThen_ok he]; exact write8_legal _ _ (write8_legal _ _ hl)
  · rw [Run.andThen_stop he]; exact write8_legal _ _ hl

theorem writeWord_ending (cfg : Config) (b : Bus) (a : Addr) (w : Word) :
    (writeWord cfg b a w).ending ≠ .fatal .unsupportedBankController ∧ (writeWord cfg b a w).ending ≠ .fatal .unsupportedRamSize := by
  unfold writeWord
  by_cases he : (write8 cfg b a (lowByte w)).ending = .ok
  · rw [Run.andThen_ok he]; exact write8_ending _ _ _ _
  · rw [Run.andThen_stop he]; exact write8_ending _ _ _ _

/-- The three parts of a legal state. -/
theorem legal_iff {s : State} : s.legal = true ↔ configLegal s.cfg = true ∧ (∀ b, s.session = some b → busLegal s.cfg b = true) ∧ latchLegal s = true := by
  simp only [State.legal, Bool.and_eq_true, and_assoc]
  cases s.session <;> simp [Option.all]

theorem legal_respond {s : State} (r : Response) (h : s.legal = true) : (s.respond r).legal = true := h

theorem legal_live {s t : State} {b : Bus} (hs : s.legal = true) (h : s.live b) (hc : t.cfg = s.cfg) {b' : Bus} (hb : t.session = some b')
    (hl : busLegal s.cfg b' = true) (hf : ∀ c, t.fatal = some c → c ≠ .unsupportedBankController ∧ c ≠ .unsupportedRamSize) : t.legal = true := by
  rw [legal_iff] at hs ⊢
  rw [hc]
  refine ⟨hs.1, fun x hx => ?_, ?_⟩
  · rw [hb] at hx; cases hx; exact hl
  · unfold latchLegal
    split
    · rfl
    · rename_i c hcc
      rw [hb]
      have := hf c hcc
      cases c <;> simp_all [Cause.code]

theorem legal_stoppedIn {s : State} {b b' : Bus} (hs : s.legal = true) (h : s.live b) (hl : busLegal s.cfg b' = true) (x : Stop) (e : List Event)
    (h1 : x ≠ .fatal .unsupportedBankController) (h2 : x ≠ .fatal .unsupportedRamSize) : (s.stoppedIn b' x e).legal = true := by
  cases x with
  | fatal c =>
    refine legal_live hs h (b' := b') rfl rfl hl fun d hd => ?_
    have : c = d := Option.some.inj hd
    subst this
    exact ⟨fun hc => h1 (by rw [hc]), fun hc => h2 (by rw [hc])⟩
  | refuse r => exact legal_live hs h (b' := b') rfl rfl hl fun d hd => by rw [show (s.stoppedIn b' (.refuse r) e).fatal = s.fatal from rfl, h.1] at hd; cases hd

theorem legal_finish {s : State} {b : Bus} (hs : s.legal = true) (h : s.live b) (r : Run) (hl : busLegal s.cfg r.bus = true)
    (h1 : r.ending ≠ .fatal .unsupportedBankController) (h2 : r.ending ≠ .fatal .unsupportedRamSize) : (s.finish r).legal = true := by
  rcases r.ending_cases with he | ⟨x, he⟩
  · rw [State.finish_ok s he]
    exact legal_live hs h (b' := r.bus) rfl rfl hl fun d hd => by rw [show (s.writeOk r.bus r.events).fatal = s.fatal from rfl, h.1] at hd; cases hd
  · rw [State.finish_stop s he]
    exact legal_stoppedIn hs h hl x _ (fun hx => h1 (by rw [he, hx]; rfl)) (fun hx => h2 (by rw [he, hx]; rfl))

theorem live_legal {s : State} {b : Bus} (hs : s.legal = true) (h : s.live b) : busLegal s.cfg b = true := (legal_iff.1 hs).2.1 b h.2

theorem legal_admit {s : State} (hs : s.legal = true) (k : Bus → State) (hk : ∀ b, s.live b → (k b).legal = true) : (s.onInstance k).legal = true := by
  rcases s.admit_cases k with ⟨c, _, h⟩ | ⟨_, _, h⟩ | ⟨b, hb, h⟩
  · rw [h]; exact hs
  · rw [h]; exact hs
  · rw [h]; exact hk b hb

theorem read8_error_ne {b : Bus} {a : Addr} {x : Stop} (h : read8 b a = .error x) :
    x ≠ .fatal .unsupportedBankController ∧ x ≠ .fatal .unsupportedRamSize := by
  rcases read8_error h with (rfl | rfl) | rfl | rfl <;> simp

theorem legal_stop {s : State} {b : Bus} (hs : s.legal = true) (h : s.live b) {x : Stop} (e : List Event)
    (hx : x ≠ .fatal .unsupportedBankController ∧ x ≠ .fatal .unsupportedRamSize) : (s.stop x e).legal = true := by
  rw [State.stop_live h]; exact legal_stoppedIn hs h (live_legal hs h) x e hx.1 hx.2

theorem legal_reset {cfg : Config} (hc : configLegal cfg = true) {rom : Image} (hr : rom.wf = true) (mode : Mode) (size : RamSize) :
    busLegal cfg (Bus.reset cfg rom mode size) = true := by
  simp only [configLegal, ownersLegal, Bool.and_eq_true] at hc
  obtain ⟨⟨⟨⟨⟨-, c2⟩, c3⟩, c4⟩, c5, c6⟩, -⟩ := hc
  have key : romBankLegal (Bank.reset mode) = true ∧ ramBankLegal (Bank.reset mode) = true := by cases mode <;> decide
  refine busLegal_iff.2 ⟨rfl, hr, key.1, key.2, ?_, c2, Memory.fits_below _ (Memory.wf_of_fits c4), c3, c5, c6⟩
  cases mode <;> rfl

theorem legal_writeTxn {s : State} (hs : s.legal = true) (k : Bus → Run) (hk : ∀ b, busLegal s.cfg b = true →
    busLegal s.cfg (k b).bus = true ∧ (k b).ending ≠ .fatal .unsupportedBankController ∧ (k b).ending ≠ .fatal .unsupportedRamSize) :
    (s.writeTxn k).legal = true :=
  legal_admit hs _ fun b hb => have h := hk b (live_legal hs hb); legal_finish hs hb _ h.1 h.2.1 h.2.2

theorem legal_readTxn {s : State} (hs : s.legal = true) (a : Addr) : (s.readTxn fun b => read8 b a).legal = true := by
  refine legal_admit hs _ fun b hb => ?_
  show (s.finishRead (Reads.one (read8 b a))).legal = true
  cases h : read8 b a with
  | error x => rw [State.finishRead_stopped (x := x) rfl]; exact legal_stop hs hb _ (read8_error_ne h)
  | ok p => exact hs

theorem legal_inBios {cfg : Config} {b : Bus} (f : Bool) (h : busLegal cfg b = true) : busLegal cfg (b.withInBios f) = true := h

theorem legal_wired {cfg : Config} {b : Bus} (w : Wiring) (h : busLegal cfg b = true) : busLegal cfg (b.withWired w) = true := h

theorem legal_attach {s : State} (hs : s.legal = true) (o : Owner) : (attachOwner s o).legal = true := by
  refine legal_writeTxn hs _ fun b hb => ?_
  split
  · exact ⟨hb, by simp [Run.stop, Stop.ending], by simp [Run.stop, Stop.ending]⟩
  · exact ⟨legal_wired _ hb, by simp [Run.idle], by simp [Run.idle]⟩

theorem legal_rd16 {s t : State} (hs : s.legal = true) (a : Addr) (h : execRd16 a s = .next t) : t.legal = true := by
  cases h
  refine legal_admit hs _ fun b hb => ?_
  split
  · exact hs
  · unfold readWord
    cases h1 : read8 b a with
    | error x => rw [Reads.two_error rfl, State.finishRead_stopped rfl]; exact legal_stop hs hb _ (read8_error_ne h1)
    | ok p =>
      cases h2 : read8 b (nextAddr a) with
      | error x =>
        rw [Reads.two_ok_error (v := p.1) (e := p.2) rfl rfl, State.finishRead_stopped rfl]
        exact legal_stop hs hb _ (read8_error_ne h2)
      | ok q => exact hs

theorem legal_wr16 {s t : State} (hs : s.legal = true) (a : Addr) (w : Word) (h : execWr16 a w s = .next t) : t.legal = true := by
  cases h
  refine legal_admit hs _ fun b hb => ?_
  split
  · exact hs
  · exact legal_finish hs hb _ (writeWord_legal _ _ (live_legal hs hb)) (writeWord_ending _ _ _ _).1 (writeWord_ending _ _ _ _).2

theorem legal_construct {s t : State} (hs : s.legal = true) {rom : Image} (hw : rom.wf = true) (m r : Byte)
    (h : execConstruct rom m r s = .next t) : t.legal = true := by
  have hc := (legal_iff.1 hs).1
  simp only [execConstruct] at h
  split at h
  · cases h; exact legal_iff.2 ⟨hc, fun b hb => (nomatch hb), rfl⟩
  · split at h
    · cases h; exact legal_iff.2 ⟨hc, fun b hb => (nomatch hb), rfl⟩
    · cases h
      refine legal_iff.2 ⟨hc, fun b hb => ?_, rfl⟩
      cases hb
      exact legal_reset hc hw _ _

theorem next_inj {s t : State} (h : (Host.Outcome.next s : StepOutcome) = .next t) : s = t := by cases h; rfl

theorem legal_owner {s : State} (hs : s.legal = true) (x : OwnerByte) (v : Byte) : (s.ownerStep x v).legal = true := by
  unfold State.ownerStep
  split
  · exact hs
  · rename_i b hb
    have hl := (legal_iff.1 hs).2.1 b hb
    have key : ∀ o : Owners, o.lcd.vram.fits 8192 = true → o.lcd.oam.fits 160 = true → (s.withBus (b.withOwn o)).legal = true := by
      intro o h1 h2
      obtain ⟨b1, b2, b3, b4, b5, f1, f2, f3, f4, f5⟩ := busLegal_iff.1 hl
      refine legal_iff.2 ⟨(legal_iff.1 hs).1, fun x hx => ?_, ?_⟩
      · cases hx; exact busLegal_iff.2 ⟨b1, b2, b3, b4, b5, f1, f2, f3, h1, h2⟩
      · have := (legal_iff.1 hs).2.2
        simp only [latchLegal, hb, State.withBus_fatal, State.withBus_session] at this ⊢
        exact this
    obtain ⟨b1, b2, b3, b4, b5, f1, f2, f3, f4, f5⟩ := busLegal_iff.1 hl
    cases x with
    | cell c => exact key _ (by rw [ownerSet_vram]; exact f4) (by rw [ownerSet_oam]; exact f5)
    | vram i => exact key _ (Memory.fits_write _ f4 i.isLt) f5
    | oam i => exact key _ f4 (Memory.fits_write _ f5 i.isLt)

theorem dma_fatal {cfg : Config} {page : Byte} {c : Cause} : ∀ (n i : Nat) (b : Bus), i + n ≤ 160 →
    (dmaFrom cfg page n i b).ending = .fatal c → ∃ j b', j < 160 ∧ read8 b' (dmaSource page j) = .error (.fatal c) := by
  intro n
  induction n with
  | zero => intro i b _ h; cases h
  | succ n ih =>
    intro i b hi h
    cases hr : read8 b (dmaSource page i) with
    | error x =>
      rw [dmaFrom, dmaByte_error hr, Run.andThen_stop x.ending_ne_ok] at h
      cases x with
      | fatal d => cases h; exact ⟨i, b, by omega, hr⟩
      | refuse d => cases h
    | ok p =>
      obtain ⟨v, e⟩ := p
      cases hw : b.wired.display with
      | false => rw [dmaFrom, dmaByte_unwired (by omega) hw hr, Run.andThen_stop (by simp)] at h; cases h
      | true => rw [dmaFrom, dmaByte_ok (by omega) hw hr, Run.andThen_ok rfl] at h; exact ih (i + 1) _ (by omega) h

theorem read8_fatal {b : Bus} {a : Addr} {c : Cause} (h : read8 b a = .error (.fatal c)) :
    0xA000 ≤ a.toNat ∧ a.toNat ≤ 0xBFFF ∧ 3 ≤ c.code := by
  have word : ∀ {v : Byte × List Event} {o : Owner}, b.needsForRead o (.ok v) ≠ .error (.fatal c) := by
    intro v o hk
    unfold Bus.needsForRead at hk
    split at hk <;> cases hk
  have rom : ∀ {i : Nat}, romByte b i ≠ .error (.fatal c) := by
    intro i hi
    unfold romByte at hi
    split at hi <;> cases hi
  have io : ioRead b a ≠ .error (.fatal c) := by
    intro hi
    unfold ioRead at hi
    split at hi
    · rename_i r _
      cases r with
      | cell c => exact word hi
      | dmaTrigger => cases hi
      | biosLatch => cases hi
    · cases hi
  obtain ⟨k, w, g⟩ := windowOf_cases a
  cases k <;>
    simp only [read8, w] at h
  · unfold readLow at h
    split at h
    · cases h
    · exact absurd h rom
  · exact absurd h rom
  · exact absurd h word
  · refine ⟨g.1, g.2, ?_⟩
    rcases read8_error (b := b) (a := a) (by simp only [read8, w]; exact h) with (h | h) | h | h <;> cases h <;> decide
  · cases h
  · cases h
  · exact absurd h word
  · cases h
  · exact absurd h io
  · cases h
  · exact absurd h io

theorem write8_fatal {cfg : Config} {b : Bus} {a : Addr} {v : Byte} {c : Cause} (h : (write8 cfg b a v).ending = .fatal c) :
    3 ≤ c.code ∧ ((0xA000 ≤ a.toNat ∧ a.toNat ≤ 0xBFFF) ∨ (a = 0xFF46 ∧ 0xA0 ≤ v.toNat ∧ v.toNat ≤ 0xBF)) := by
  have hc : 3 ≤ c.code := by
    have := write8_ending cfg b a v
    rw [h] at this
    cases c <;> simp_all [Cause.code]
  refine ⟨hc, ?_⟩
  have needs : ∀ {o : Owner} {b' : Bus}, (b.needsForWrite o (.done b')).ending ≠ .fatal c := by
    intro o b' hk
    unfold Bus.needsForWrite at hk
    split at hk <;> cases hk
  have bank : a.toNat ≤ 0x7FFF → (bankCtlWrite b a v).ending ≠ .fatal c := by
    intro hr
    have cmd : ∀ {b'}, (bankCommand b (.done b')).ending ≠ .fatal c := by
      intro b' hk; unfold bankCommand at hk; split at hk <;> cases hk
    by_cases h1 : a.toNat ≤ 0x0FFF
    · rw [bankCtlWrite_none h1]; exact fun hk => nomatch hk
    by_cases h2 : a.toNat ≤ 0x1FFF
    · rw [bankCtlWrite_ramen (by omega) h2]; exact cmd
    by_cases h3 : a.toNat ≤ 0x3FFF
    · rw [bankCtlWrite_romsel (by omega) h3]; exact cmd
    by_cases h4 : a.toNat ≤ 0x5FFF
    · rw [bankCtlWrite_hisel (by omega) h4]; exact cmd
    · rw [bankCtlWrite_modesel (by omega) hr]; exact cmd
  have io : (ioWrite (dmaCopy cfg) cfg b a v).ending = .fatal c → a = 0xFF46 ∧ 0xA0 ≤ v.toNat ∧ v.toNat ≤ 0xBF := by
    intro hi
    unfold ioWrite at hi
    split at hi
    · rename_i r hr
      cases r with
      | cell d =>
        unfold writeIoReg at hi
        split at hi
        · rename_i he; cases he; split at hi
          · cases hi
          · exact absurd hi needs
        · rename_i he; cases he
        · rename_i he; cases he
      | dmaTrigger =>
        have hi : (dmaCopy cfg b v).ending = .fatal c := hi
        rw [dmaCopy_eq] at hi
        obtain ⟨j, b', hj, hx⟩ := dma_fatal 160 0 b (by omega) hi
        have := read8_fatal hx
        rw [dmaSource_toNat v hj] at this
        exact ⟨BitVec.eq_of_toNat_eq (ioRegOf_dmaTrigger hr), by omega, by omega⟩
      | biosLatch => cases hi
    · cases hi
  have h : (write8With (dmaCopy cfg) cfg b a v).ending = .fatal c := h
  obtain ⟨k, w, g⟩ := windowOf_cases a
  cases k <;>
    simp only [write8With, w] at h
  · exact absurd h (bank (by omega))
  · exact absurd h (bank (by omega))
  · exact absurd h needs
  · exact .inl g
  · cases h
  · cases h
  · exact absurd h needs
  · cases h
  · exact .inr (io h)
  · cases h
  · exact .inr (io h)

theorem admit_fatal_of {s : State} (hs : s.fatal = none) {k : Bus → State} {c : Cause} (h : (s.onInstance k).fatal = some c) :
    ∃ b, s.live b ∧ (k b).fatal = some c := by
  rcases s.admit_cases k with ⟨d, hd, _⟩ | ⟨_, _, he⟩ | ⟨b, hb, he⟩
  · rw [hs] at hd; cases hd
  · rw [he, show (s.refuse .notConstructed).fatal = s.fatal from rfl, hs] at h; cases h
  · rw [he] at h; exact ⟨b, hb, h⟩

theorem stop_fatal_of {s : State} (hs : s.fatal = none) {x : Stop} {e : List Event} {c : Cause} (h : (s.stop x e).fatal = some c) : x = .fatal c := by
  cases x with
  | fatal d => cases h; rfl
  | refuse r => rw [show (s.stop (.refuse r) e).fatal = s.fatal from rfl, hs] at h; cases h

theorem finish_fatal_of {s : State} (hs : s.fatal = none) {r : Run} {c : Cause} (h : (s.finish r).fatal = some c) : r.ending = .fatal c := by
  rcases r.ending_cases with he | ⟨x, he⟩
  · rw [State.finish_ok s he, show (s.writeOk r.bus r.events).fatal = s.fatal from rfl, hs] at h; cases h
  · rw [State.finish_stop s he] at h
    cases x with
    | fatal d => cases h; exact he
    | refuse d => rw [show (s.stoppedIn r.bus (.refuse d) r.events).fatal = s.fatal from rfl, hs] at h; cases h

theorem readAt_of {i : Instr} {a : Addr} (h : encode i = rd8Word a) : i.readAt = some a := by
  simp [Instr.readAt, h, rd8Word, reqOp_reqWord, reqAddr_reqWord]
theorem writesAt_of {i : Instr} {a : Addr} {v : Byte} (h : encode i = wr8Word a v) : i.writesAt = [a] := by
  simp [Instr.writesAt, h, wr8Word, reqOp_reqWord, reqAddr_reqWord]
theorem writesAt_wr16 (a : Addr) (w : Word) : (Instr.wr16 a w).writesAt = [a, nextAddr a] := by
  simp [Instr.writesAt, encode, reqOp_reqWord, reqAddr_reqWord]
theorem isConstruct_req {i : Instr} {w : BitVec 35} (h : encode i = .req w) : i.isConstruct = false := by simp [Instr.isConstruct, h]

end Sys2Proof.Machine
end

