-- ==== Sys2Proof/Laws/Owned.lean ====
section
/-! SUPPORT. What the addresses a transaction writes can change of the owned state (spec/10_state.md R53), and
what a transaction with a byte on the DMA trigger can change (spec/43_dma.md R285). -/

namespace Sys2Proof.Machine

open Sys2Proof.Laws

/-- What a set of addresses written can change. -/
def Owned (ws : List Addr) (b b' : Bus) : Prop :=
    b'.bios = b.bios ∧ b'.rom = b.rom ∧ b'.bc.mode = b.bc.mode ∧ b'.ramSize = b.ramSize ∧
    (b'.bc ≠ b.bc → b.bc.mode ≠ .romOnly ∧ ∃ a ∈ ws, 0x1000 ≤ a.toNat ∧ a.toNat ≤ 0x7FFF) ∧
    (b'.eram ≠ b.eram → ∃ a ∈ ws, 0xA000 ≤ a.toNat ∧ a.toNat ≤ 0xBFFF) ∧
    (b'.wram ≠ b.wram → ∃ a ∈ ws, 0xC000 ≤ a.toNat ∧ a.toNat ≤ 0xFDFF) ∧
    (b'.zp ≠ b.zp → ∃ a ∈ ws, 0xFF80 ≤ a.toNat ∧ a.toNat ≤ 0xFFFE) ∧
    (b'.inBios ≠ b.inBios → 0xFF50 ∈ ws) ∧
    (b.inBios = false → b'.inBios = false) ∧
    b'.wired = b.wired

theorem Owned.refl (ws : List Addr) (b : Bus) : Owned ws b b := by
  simp [Owned]

theorem Owned.trans {ws ws' : List Addr} {b b' b'' : Bus} (h : Owned ws b b') (h' : Owned ws' b' b'') : Owned (ws ++ ws') b b'' := by
  obtain ⟨a1, a2, a3, a4, a5, a6, a7, a8, a9, a10, a11⟩ := h
  obtain ⟨c1, c2, c3, c4, c5, c6, c7, c8, c9, c10, c11⟩ := h'
  have key : ∀ {α : Type} (f : Bus → α) (P : Addr → Prop), (f b' ≠ f b → ∃ a ∈ ws, P a) → (f b'' ≠ f b' → ∃ a ∈ ws', P a) →
      f b'' ≠ f b → ∃ a ∈ ws ++ ws', P a := by
    intro α f P h1 h2 h3
    by_cases he : f b' = f b
    · obtain ⟨a, ha, hp⟩ := h2 (by rw [he]; exact h3); exact ⟨a, List.mem_append.2 (.inr ha), hp⟩
    · obtain ⟨a, ha, hp⟩ := h1 he; exact ⟨a, List.mem_append.2 (.inl ha), hp⟩
  refine ⟨c1.trans a1, c2.trans a2, c3.trans a3, c4.trans a4, fun h => ⟨?_, key (·.bc) _ (fun h => (a5 h).2) (fun h => (c5 h).2) h⟩,
    key (·.eram) _ a6 c6, key (·.wram) _ a7 c7, key (·.zp) _ a8 c8, fun h => ?_, fun h => c10 (a10 h), c11.trans a11⟩
  · by_cases he : b'.bc = b.bc
    · rw [← a3]; exact (c5 (by rw [he]; exact h)).1
    · exact (a5 he).1
  · by_cases he : b'.inBios = b.inBios
    · exact List.mem_append.2 (.inr (c9 (by rw [he]; exact h)))
    · exact List.mem_append.2 (.inl (a9 he))

theorem write8_owned (cfg : Config) (b : Bus) (a : Addr) (v : Byte) : Owned [a] b (write8 cfg b a v).bus := by
  have h := write8With_effect (dmaCopy cfg) cfg b a v
  show Owned [a] b (write8With (dmaCopy cfg) cfg b a v).bus
  generalize write8With (dmaCopy cfg) cfg b a v = r at h
  have r0 := Owned.refl [a] b
  obtain ⟨a1, a2, a3, a4, a5, a6, a7, a8, a9, a10, a11⟩ := r0
  have mem : a ∈ [a] := List.mem_cons_self ..
  cases h with
  | nothing => exact Owned.refl _ _
  | stop x _ _ => exact Owned.refl _ _
  | unimplemented _ _ => exact Owned.refl _ _
  | bank c hm h1 h2 hc _ _ => exact ⟨a1, a2, hc, a4, fun _ => ⟨hm, a, mem, h1, h2⟩, a6, a7, a8, a9, a10, a11⟩
  | eram h1 h2 _ => exact ⟨a1, a2, a3, a4, a5, fun _ => ⟨a, mem, h1, h2⟩, a7, a8, a9, a10, a11⟩
  | wram i h1 h2 _ => exact ⟨a1, a2, a3, a4, a5, a6, fun _ => ⟨a, mem, h1, h2⟩, a8, a9, a10, a11⟩
  | zp h1 h2 _ => exact ⟨a1, a2, a3, a4, a5, a6, a7, fun _ => ⟨a, mem, h1, h2⟩, a9, a10, a11⟩
  | own o _ => exact ⟨a1, a2, a3, a4, a5, a6, a7, a8, a9, a10, a11⟩
  | latch h1 =>
    refine ⟨a1, a2, a3, a4, a5, a6, a7, a8, fun _ => ?_, fun hf => ?_, a11⟩
    · have : a = 0xFF50 := BitVec.eq_of_toNat_eq h1
      rw [this]; exact List.mem_cons_self ..
    · simp only [Run.done, Bus.withInBios_inBios, hf, latchAfterWrite]; rfl
  | copy _ =>
    obtain ⟨m, hm, -⟩ := dmaCopy_frame cfg b v
    rw [hm]
    exact ⟨a1, a2, a3, a4, a5, a6, a7, a8, a9, a10, a11⟩

theorem writeWord_owned (cfg : Config) (b : Bus) (a : Addr) (w : Word) : Owned [a, nextAddr a] b (writeWord cfg b a w).bus := by
  unfold writeWord
  by_cases he : (write8 cfg b a (lowByte w)).ending = .ok
  · rw [Run.andThen_ok he]; exact (write8_owned cfg b a (lowByte w)).trans (write8_owned cfg _ (nextAddr a) _)
  · rw [Run.andThen_stop he]; exact (write8_owned cfg b a (lowByte w)).trans (Owned.refl [nextAddr a] _)

/-! ## A byte on the DMA trigger -/

/-- The instance with the state a WR16 one byte of which lands on the DMA trigger can change: OAM, and the two registers
beside the trigger. -/
def Bus.withCopied (b : Bus) (m : Memory) (x y : Byte) : Bus :=
  { b with own := { b.own with lcd := { b.own.lcd with oam := m, scanlineCompare := x, palette0 := y } } }

/-- What a byte on 0xFF46 leaves: only OAM is another (R285). -/
theorem write8_trigger (cfg : Config) (b : Bus) (page : Byte) : ∃ m, (write8 cfg b 0xFF46 page).bus = b.withOam m := by
  obtain ⟨m, h, -⟩ := dmaCopy_frame cfg b page
  exact ⟨m, by rw [write8, write8With_trigger, h]⟩

theorem write8_FF45 (cfg : Config) (b : Bus) (v : Byte) :
    ∃ x, (write8 cfg b 0xFF45 v).bus = b.withCopied b.own.lcd.oam x b.own.lcd.palette0 := by
  have : write8 cfg b 0xFF45 v = b.needsForWrite .display (.done (b.withOwn (ownerSet b.own .scanlineCompare v))) := rfl
  rw [this, Bus.needsForWrite]
  split
  · exact ⟨v, rfl⟩
  · exact ⟨_, rfl⟩

theorem write8_FF47 (cfg : Config) (b : Bus) (v : Byte) :
    ∃ y, (write8 cfg b 0xFF47 v).bus = b.withCopied b.own.lcd.oam b.own.lcd.scanlineCompare y := by
  have : write8 cfg b 0xFF47 v = b.needsForWrite .display (.done (b.withOwn (ownerSet b.own .palette0 v))) := rfl
  rw [this, Bus.needsForWrite]
  split
  · exact ⟨v, rfl⟩
  · exact ⟨_, rfl⟩

/-- A WR16 one byte of which lands on 0xFF46: beside the copy only the register its other byte lands on. -/
theorem writeWord_trigger (cfg : Config) (b : Bus) {a : Addr} (w : Word) (h : 0xFF46 ∈ [a, nextAddr a]) :
    ∃ m x y, (writeWord cfg b a w).bus = b.withCopied m x y ∧
      (x ≠ b.own.lcd.scanlineCompare → 0xFF45 ∈ [a, nextAddr a]) ∧ (y ≠ b.own.lcd.palette0 → 0xFF47 ∈ [a, nextAddr a]) := by
  have ha : a = 0xFF46 ∨ a = 0xFF45 := by
    simp only [List.mem_cons, List.not_mem_nil, or_false] at h
    rcases h with h | h
    · exact .inl h.symm
    · exact .inr ((BitVec.add_left_inj 1#16).1 h.symm)
  have next : nextAddr 0xFF46 = 0xFF47 := rfl
  have next' : nextAddr 0xFF45 = 0xFF46 := rfl
  unfold writeWord
  rcases ha with rfl | rfl
  · obtain ⟨m, hm⟩ := write8_trigger cfg b (lowByte w)
    by_cases he : (write8 cfg b 0xFF46 (lowByte w)).ending = .ok
    · rw [Run.andThen_ok he]
      obtain ⟨y, hy⟩ := write8_FF47 cfg (b.withOam m) (highByte w)
      exact ⟨m, b.own.lcd.scanlineCompare, y, by simp only [next, hm, hy]; rfl, fun h => absurd rfl h, fun _ => by decide⟩
    · rw [Run.andThen_stop he]
      exact ⟨m, _, _, hm, fun h => absurd rfl h, fun h => absurd rfl h⟩
  · obtain ⟨x, hx⟩ := write8_FF45 cfg b (lowByte w)
    by_cases he : (write8 cfg b 0xFF45 (lowByte w)).ending = .ok
    · rw [Run.andThen_ok he]
      obtain ⟨m, hm⟩ := write8_trigger cfg (b.withCopied b.own.lcd.oam x b.own.lcd.palette0) (highByte w)
      exact ⟨m, x, b.own.lcd.palette0, by simp only [next', hx, hm]; rfl, fun _ => by decide, fun h => absurd rfl h⟩
    · rw [Run.andThen_stop he]
      exact ⟨_, x, _, hx, fun _ => by decide, fun h => absurd rfl h⟩
end Sys2Proof.Machine
end

