-- ==== Sys2Proof/Laws/PerInstr.lean ====
section
/-! SUPPORT. Facts stated per instruction. RoundTrip: the decoder reads back what the encoder wrote, for every
well-formed instruction and every value of the overlay latch under which its row may be selected. -/

set_option linter.unusedSimpArgs false

namespace Sys2Proof.Laws.RoundTrip

/-- The decoder reads `i` back from its own word. -/
def Statement (i : Instr) : Prop :=
  ∀ inBios : Bool, i.wf = true → i.selectable inBios = true → decode inBios (encode i) = .ok i

theorem rd8IoFF00 : Statement .rd8IoFF00 := by
  intro b _ _; rfl

theorem rd8IoFF04 : Statement .rd8IoFF04 := by
  intro b _ _; rfl

theorem rd8IoFF05 : Statement .rd8IoFF05 := by
  intro b _ _; rfl

theorem rd8IoFF06 : Statement .rd8IoFF06 := by
  intro b _ _; rfl

theorem rd8IoFF07 : Statement .rd8IoFF07 := by
  intro b _ _; rfl

theorem rd8IoFF0F : Statement .rd8IoFF0F := by
  intro b _ _; rfl

theorem rd8IoFF40 : Statement .rd8IoFF40 := by
  intro b _ _; rfl

theorem rd8IoFF41 : Statement .rd8IoFF41 := by
  intro b _ _; rfl

theorem rd8IoFF42 : Statement .rd8IoFF42 := by
  intro b _ _; rfl

theorem rd8IoFF43 : Statement .rd8IoFF43 := by
  intro b _ _; rfl

theorem rd8IoFF44 : Statement .rd8IoFF44 := by
  intro b _ _; rfl

theorem rd8IoFF45 : Statement .rd8IoFF45 := by
  intro b _ _; rfl

theorem rd8IoFF46 : Statement .rd8IoFF46 := by
  intro b _ _; rfl

theorem rd8IoFF47 : Statement .rd8IoFF47 := by
  intro b _ _; rfl

theorem rd8IoFF48 : Statement .rd8IoFF48 := by
  intro b _ _; rfl

theorem rd8IoFF49 : Statement .rd8IoFF49 := by
  intro b _ _; rfl

theorem rd8IoFF50 : Statement .rd8IoFF50 := by
  intro b _ _; rfl

theorem rd8IoFFFF : Statement .rd8IoFFFF := by
  intro b _ _; rfl

theorem wr8IoFF00 (v : Byte) : Statement (.wr8IoFF00 v) := by
  intro b _ _; exact decode_wr8Word (f := .wr8IoFF00) rfl

theorem wr8IoFF04 (v : Byte) : Statement (.wr8IoFF04 v) := by
  intro b _ _; exact decode_wr8Word (f := .wr8IoFF04) rfl

theorem wr8IoFF05 (v : Byte) : Statement (.wr8IoFF05 v) := by
  intro b _ _; exact decode_wr8Word (f := .wr8IoFF05) rfl

theorem wr8IoFF06 (v : Byte) : Statement (.wr8IoFF06 v) := by
  intro b _ _; exact decode_wr8Word (f := .wr8IoFF06) rfl

theorem wr8IoFF07 (v : Byte) : Statement (.wr8IoFF07 v) := by
  intro b _ _; exact decode_wr8Word (f := .wr8IoFF07) rfl

theorem wr8IoFF0F (v : Byte) : Statement (.wr8IoFF0F v) := by
  intro b _ _; exact decode_wr8Word (f := .wr8IoFF0F) rfl

theorem wr8IoFF40 (v : Byte) : Statement (.wr8IoFF40 v) := by
  intro b _ _; exact decode_wr8Word (f := .wr8IoFF40) rfl

theorem wr8IoFF41 (v : Byte) : Statement (.wr8IoFF41 v) := by
  intro b _ _; exact decode_wr8Word (f := .wr8IoFF41) rfl

theorem wr8IoFF42 (v : Byte) : Statement (.wr8IoFF42 v) := by
  intro b _ _; exact decode_wr8Word (f := .wr8IoFF42) rfl

theorem wr8IoFF43 (v : Byte) : Statement (.wr8IoFF43 v) := by
  intro b _ _; exact decode_wr8Word (f := .wr8IoFF43) rfl

theorem wr8IoFF44 (v : Byte) : Statement (.wr8IoFF44 v) := by
  intro b _ _; exact decode_wr8Word (f := .wr8IoFF44) rfl

theorem wr8IoFF45 (v : Byte) : Statement (.wr8IoFF45 v) := by
  intro b _ _; exact decode_wr8Word (f := .wr8IoFF45) rfl

theorem wr8IoFF46 (v : Byte) : Statement (.wr8IoFF46 v) := by
  intro b _ _; exact decode_wr8Word (f := .wr8IoFF46) rfl

theorem wr8IoFF47 (v : Byte) : Statement (.wr8IoFF47 v) := by
  intro b _ _; exact decode_wr8Word (f := .wr8IoFF47) rfl

theorem wr8IoFF48 (v : Byte) : Statement (.wr8IoFF48 v) := by
  intro b _ _; exact decode_wr8Word (f := .wr8IoFF48) rfl

theorem wr8IoFF49 (v : Byte) : Statement (.wr8IoFF49 v) := by
  intro b _ _; exact decode_wr8Word (f := .wr8IoFF49) rfl

theorem wr8IoFF50 (v : Byte) : Statement (.wr8IoFF50 v) := by
  intro b _ _; exact decode_wr8Word (f := .wr8IoFF50) rfl

theorem wr8IoFFFF (v : Byte) : Statement (.wr8IoFFFF v) := by
  intro b _ _; exact decode_wr8Word (f := .wr8IoFFFF) rfl

theorem rd8Zp (a : Addr) : Statement (.rd8Zp a) := by
  intro b h _
  simp only [Instr.wf, Addr.within, Bool.and_eq_true, decide_eq_true_eq] at h
  refine decodeReq_reqWord (op := 0) (r := ⟨7, 0x1FF, false, fun a _ => .rd8Zp a⟩) ?_
  simp (disch := simp; omega) only [reqTable, exactReadRows, exactWriteRows, windowReadRows, windowWriteRows, bankCommandRows, wideRows, List.cons_append, List.nil_append, List.find?_cons, beq_false_of, beq_true_of, Bool.false_and, Bool.true_and, Bool.and_true, Bool.not_false, Bool.not_true, Bool.true_or, Bool.false_or, Bool.and_false]

theorem rd8IoUnimpl (a : Addr) : Statement (.rd8IoUnimpl a) := by
  intro b h _
  simp [Instr.wf, Addr.isUnimplemented, Addr.within, listedIo] at h
  refine decodeReq_reqWord (op := 0) (r := ⟨7, 0x1FE, false, fun a _ => .rd8IoUnimpl a⟩) ?_
  simp (disch := simp; omega) only [reqTable, exactReadRows, exactWriteRows, windowReadRows, windowWriteRows, bankCommandRows, wideRows, List.cons_append, List.nil_append, List.find?_cons, beq_false_of, beq_true_of, Bool.false_and, Bool.true_and, Bool.and_true, Bool.not_false, Bool.not_true, Bool.true_or, Bool.false_or, Bool.and_false]

theorem rd8UnmappedA (a : Addr) : Statement (.rd8UnmappedA a) := by
  intro b h _
  simp only [Instr.wf, Addr.within, Bool.and_eq_true, decide_eq_true_eq] at h
  refine decodeReq_reqWord (op := 0) (r := ⟨5, 0x7F5, false, fun a _ => .rd8UnmappedA a⟩) ?_
  simp (disch := simp; omega) only [reqTable, exactReadRows, exactWriteRows, windowReadRows, windowWriteRows, bankCommandRows, wideRows, List.cons_append, List.nil_append, List.find?_cons, beq_false_of, beq_true_of, Bool.false_and, Bool.true_and, Bool.and_true, Bool.not_false, Bool.not_true, Bool.true_or, Bool.false_or, Bool.and_false]

theorem rd8UnmappedB (a : Addr) : Statement (.rd8UnmappedB a) := by
  intro b h _
  simp only [Instr.wf, Addr.within, Bool.and_eq_true, decide_eq_true_eq] at h
  refine decodeReq_reqWord (op := 0) (r := ⟨6, 0x3FB, false, fun a _ => .rd8UnmappedB a⟩) ?_
  simp (disch := simp; omega) only [reqTable, exactReadRows, exactWriteRows, windowReadRows, windowWriteRows, bankCommandRows, wideRows, List.cons_append, List.nil_append, List.find?_cons, beq_false_of, beq_true_of, Bool.false_and, Bool.true_and, Bool.and_true, Bool.not_false, Bool.not_true, Bool.true_or, Bool.false_or, Bool.and_false]

theorem rd8Oam (a : Addr) : Statement (.rd8Oam a) := by
  intro b h _
  simp only [Instr.wf, Addr.within, Bool.and_eq_true, decide_eq_true_eq] at h
  refine decodeReq_reqWord (op := 0) (r := ⟨8, 0xFE, false, fun a _ => .rd8Oam a⟩) ?_
  simp (disch := simp; omega) only [reqTable, exactReadRows, exactWriteRows, windowReadRows, windowWriteRows, bankCommandRows, wideRows, List.cons_append, List.nil_append, List.find?_cons, beq_false_of, beq_true_of, Bool.false_and, Bool.true_and, Bool.and_true, Bool.not_false, Bool.not_true, Bool.true_or, Bool.false_or, Bool.and_false]

theorem rd8Echo (a : Addr) : Statement (.rd8Echo a) := by
  intro b h _
  simp only [Instr.wf, Addr.within, Bool.and_eq_true, decide_eq_true_eq] at h
  refine decodeReq_reqWord (op := 0) (r := ⟨13, 0x7, false, fun a _ => .rd8Echo a⟩) ?_
  simp (disch := simp; omega) only [reqTable, exactReadRows, exactWriteRows, windowReadRows, windowWriteRows, bankCommandRows, wideRows, List.cons_append, List.nil_append, List.find?_cons, beq_false_of, beq_true_of, Bool.false_and, Bool.true_and, Bool.and_true, Bool.not_false, Bool.not_true, Bool.true_or, Bool.false_or, Bool.and_false]

theorem rd8Wram (a : Addr) : Statement (.rd8Wram a) := by
  intro b h _
  simp only [Instr.wf, Addr.within, Bool.and_eq_true, decide_eq_true_eq] at h
  refine decodeReq_reqWord (op := 0) (r := ⟨13, 0x6, false, fun a _ => .rd8Wram a⟩) ?_
  simp (disch := simp; omega) only [reqTable, exactReadRows, exactWriteRows, windowReadRows, windowWriteRows, bankCommandRows, wideRows, List.cons_append, List.nil_append, List.find?_cons, beq_false_of, beq_true_of, Bool.false_and, Bool.true_and, Bool.and_true, Bool.not_false, Bool.not_true, Bool.true_or, Bool.false_or, Bool.and_false]

theorem rd8Eram (a : Addr) : Statement (.rd8Eram a) := by
  intro b h _
  simp only [Instr.wf, Addr.within, Bool.and_eq_true, decide_eq_true_eq] at h
  refine decodeReq_reqWord (op := 0) (r := ⟨13, 0x5, false, fun a _ => .rd8Eram a⟩) ?_
  simp (disch := simp; omega) only [reqTable, exactReadRows, exactWriteRows, windowReadRows, windowWriteRows, bankCommandRows, wideRows, List.cons_append, List.nil_append, List.find?_cons, beq_false_of, beq_true_of, Bool.false_and, Bool.true_and, Bool.and_true, Bool.not_false, Bool.not_true, Bool.true_or, Bool.false_or, Bool.and_false]

theorem rd8Vram (a : Addr) : Statement (.rd8Vram a) := by
  intro b h _
  simp only [Instr.wf, Addr.within, Bool.and_eq_true, decide_eq_true_eq] at h
  refine decodeReq_reqWord (op := 0) (r := ⟨13, 0x4, false, fun a _ => .rd8Vram a⟩) ?_
  simp (disch := simp; omega) only [reqTable, exactReadRows, exactWriteRows, windowReadRows, windowWriteRows, bankCommandRows, wideRows, List.cons_append, List.nil_append, List.find?_cons, beq_false_of, beq_true_of, Bool.false_and, Bool.true_and, Bool.and_true, Bool.not_false, Bool.not_true, Bool.true_or, Bool.false_or, Bool.and_false]

theorem rd8Bios (a : Addr) : Statement (.rd8Bios a) := by
  intro b h hs
  simp only [Instr.wf, Addr.within, Bool.and_eq_true, decide_eq_true_eq] at h
  simp only [Instr.selectable] at hs
  subst hs
  refine decodeReq_reqWord (op := 0) (r := ⟨8, 0x0, true, fun a _ => .rd8Bios a⟩) ?_
  simp (disch := simp; omega) only [reqTable, exactReadRows, exactWriteRows, windowReadRows, windowWriteRows, bankCommandRows, wideRows, List.cons_append, List.nil_append, List.find?_cons, beq_false_of, beq_true_of, Bool.false_and, Bool.true_and, Bool.and_true, Bool.not_false, Bool.not_true, Bool.true_or, Bool.false_or, Bool.and_false]

theorem rd8Rom0 (a : Addr) : Statement (.rd8Rom0 a) := by
  intro b h hs
  simp only [Instr.wf, Addr.within, Bool.and_eq_true, decide_eq_true_eq] at h
  simp [Instr.selectable] at hs
  rcases hs with rfl | hs
  · refine decodeReq_reqWord (op := 0) (r := ⟨14, 0x0, false, fun a _ => .rd8Rom0 a⟩) ?_
    simp (disch := simp; omega) only [reqTable, exactReadRows, exactWriteRows, windowReadRows, windowWriteRows, bankCommandRows, wideRows, List.cons_append, List.nil_append, List.find?_cons, beq_false_of, beq_true_of, Bool.false_and, Bool.true_and, Bool.and_true, Bool.not_false, Bool.not_true, Bool.true_or, Bool.false_or, Bool.and_false]
  · refine decodeReq_reqWord (op := 0) (r := ⟨14, 0x0, false, fun a _ => .rd8Rom0 a⟩) ?_
    simp (disch := simp; omega) only [reqTable, exactReadRows, exactWriteRows, windowReadRows, windowWriteRows, bankCommandRows, wideRows, List.cons_append, List.nil_append, List.find?_cons, beq_false_of, beq_true_of, Bool.false_and, Bool.true_and, Bool.and_true, Bool.not_false, Bool.not_true, Bool.true_or, Bool.false_or, Bool.and_false]

theorem rd8Romx (a : Addr) : Statement (.rd8Romx a) := by
  intro b h _
  simp only [Instr.wf, Addr.within, Bool.and_eq_true, decide_eq_true_eq] at h
  refine decodeReq_reqWord (op := 0) (r := ⟨14, 0x1, false, fun a _ => .rd8Romx a⟩) ?_
  simp (disch := simp; omega) only [reqTable, exactReadRows, exactWriteRows, windowReadRows, windowWriteRows, bankCommandRows, wideRows, List.cons_append, List.nil_append, List.find?_cons, beq_false_of, beq_true_of, Bool.false_and, Bool.true_and, Bool.and_true, Bool.not_false, Bool.not_true, Bool.true_or, Bool.false_or, Bool.and_false]

theorem wr8Zp (a : Addr) (v : Byte) : Statement (.wr8Zp a v) := by
  intro b h _
  simp only [Instr.wf, Addr.within, Bool.and_eq_true, decide_eq_true_eq] at h
  have hd := decodeReq_reqWord (b := b) (op := 1) (a := a) (d := v.setWidth 16)
    (r := ⟨7, 0x3FF, false, fun a d => .wr8Zp a (dataByte d)⟩) (by simp (disch := simp; omega) only [reqTable, exactReadRows, exactWriteRows, windowReadRows, windowWriteRows, bankCommandRows, wideRows, List.cons_append, List.nil_append, List.find?_cons, beq_false_of, beq_true_of, Bool.false_and, Bool.true_and, Bool.and_true, Bool.not_false, Bool.not_true, Bool.true_or, Bool.false_or, Bool.and_false])
  simp only [dataByte_setWidth] at hd
  exact hd

theorem wr8IoUnimpl (a : Addr) (v : Byte) : Statement (.wr8IoUnimpl a v) := by
  intro b h _
  simp [Instr.wf, Addr.isUnimplemented, Addr.within, listedIo] at h
  have hd := decodeReq_reqWord (b := b) (op := 1) (a := a) (d := v.setWidth 16)
    (r := ⟨7, 0x3FE, false, fun a d => .wr8IoUnimpl a (dataByte d)⟩) (by simp (disch := simp; omega) only [reqTable, exactReadRows, exactWriteRows, windowReadRows, windowWriteRows, bankCommandRows, wideRows, List.cons_append, List.nil_append, List.find?_cons, beq_false_of, beq_true_of, Bool.false_and, Bool.true_and, Bool.and_true, Bool.not_false, Bool.not_true, Bool.true_or, Bool.false_or, Bool.and_false])
  simp only [dataByte_setWidth] at hd
  exact hd

theorem wr8UnmappedA (a : Addr) (v : Byte) : Statement (.wr8UnmappedA a v) := by
  intro b h _
  simp only [Instr.wf, Addr.within, Bool.and_eq_true, decide_eq_true_eq] at h
  have hd := decodeReq_reqWord (b := b) (op := 1) (a := a) (d := v.setWidth 16)
    (r := ⟨5, 0xFF5, false, fun a d => .wr8UnmappedA a (dataByte d)⟩) (by simp (disch := simp; omega) only [reqTable, exactReadRows, exactWriteRows, windowReadRows, windowWriteRows, bankCommandRows, wideRows, List.cons_append, List.nil_append, List.find?_cons, beq_false_of, beq_true_of, Bool.false_and, Bool.true_and, Bool.and_true, Bool.not_false, Bool.not_true, Bool.true_or, Bool.false_or, Bool.and_false])
  simp only [dataByte_setWidth] at hd
  exact hd

theorem wr8UnmappedB (a : Addr) (v : Byte) : Statement (.wr8UnmappedB a v) := by
  intro b h _
  simp only [Instr.wf, Addr.within, Bool.and_eq_true, decide_eq_true_eq] at h
  have hd := decodeReq_reqWord (b := b) (op := 1) (a := a) (d := v.setWidth 16)
    (r := ⟨6, 0x7FB, false, fun a d => .wr8UnmappedB a (dataByte d)⟩) (by simp (disch := simp; omega) only [reqTable, exactReadRows, exactWriteRows, windowReadRows, windowWriteRows, bankCommandRows, wideRows, List.cons_append, List.nil_append, List.find?_cons, beq_false_of, beq_true_of, Bool.false_and, Bool.true_and, Bool.and_true, Bool.not_false, Bool.not_true, Bool.true_or, Bool.false_or, Bool.and_false])
  simp only [dataByte_setWidth] at hd
  exact hd

theorem wr8Oam (a : Addr) (v : Byte) : Statement (.wr8Oam a v) := by
  intro b h _
  simp only [Instr.wf, Addr.within, Bool.and_eq_true, decide_eq_true_eq] at h
  have hd := decodeReq_reqWord (b := b) (op := 1) (a := a) (d := v.setWidth 16)
    (r := ⟨8, 0x1FE, false, fun a d => .wr8Oam a (dataByte d)⟩) (by simp (disch := simp; omega) only [reqTable, exactReadRows, exactWriteRows, windowReadRows, windowWriteRows, bankCommandRows, wideRows, List.cons_append, List.nil_append, List.find?_cons, beq_false_of, beq_true_of, Bool.false_and, Bool.true_and, Bool.and_true, Bool.not_false, Bool.not_true, Bool.true_or, Bool.false_or, Bool.and_false])
  simp only [dataByte_setWidth] at hd
  exact hd

theorem wr8Echo (a : Addr) (v : Byte) : Statement (.wr8Echo a v) := by
  intro b h _
  simp only [Instr.wf, Addr.within, Bool.and_eq_true, decide_eq_true_eq] at h
  have hd := decodeReq_reqWord (b := b) (op := 1) (a := a) (d := v.setWidth 16)
    (r := ⟨13, 0xF, false, fun a d => .wr8Echo a (dataByte d)⟩) (by simp (disch := simp; omega) only [reqTable, exactReadRows, exactWriteRows, windowReadRows, windowWriteRows, bankCommandRows, wideRows, List.cons_append, List.nil_append, List.find?_cons, beq_false_of, beq_true_of, Bool.false_and, Bool.true_and, Bool.and_true, Bool.not_false, Bool.not_true, Bool.true_or, Bool.false_or, Bool.and_false])
  simp only [dataByte_setWidth] at hd
  exact hd

theorem wr8Wram (a : Addr) (v : Byte) : Statement (.wr8Wram a v) := by
  intro b h _
  simp only [Instr.wf, Addr.within, Bool.and_eq_true, decide_eq_true_eq] at h
  have hd := decodeReq_reqWord (b := b) (op := 1) (a := a) (d := v.setWidth 16)
    (r := ⟨13, 0xE, false, fun a d => .wr8Wram a (dataByte d)⟩) (by simp (disch := simp; omega) only [reqTable, exactReadRows, exactWriteRows, windowReadRows, windowWriteRows, bankCommandRows, wideRows, List.cons_append, List.nil_append, List.find?_cons, beq_false_of, beq_true_of, Bool.false_and, Bool.true_and, Bool.and_true, Bool.not_false, Bool.not_true, Bool.true_or, Bool.false_or, Bool.and_false])
  simp only [dataByte_setWidth] at hd
  exact hd

theorem wr8Eram (a : Addr) (v : Byte) : Statement (.wr8Eram a v) := by
  intro b h _
  simp only [Instr.wf, Addr.within, Bool.and_eq_true, decide_eq_true_eq] at h
  have hd := decodeReq_reqWord (b := b) (op := 1) (a := a) (d := v.setWidth 16)
    (r := ⟨13, 0xD, false, fun a d => .wr8Eram a (dataByte d)⟩) (by simp (disch := simp; omega) only [reqTable, exactReadRows, exactWriteRows, windowReadRows, windowWriteRows, bankCommandRows, wideRows, List.cons_append, List.nil_append, List.find?_cons, beq_false_of, beq_true_of, Bool.false_and, Bool.true_and, Bool.and_true, Bool.not_false, Bool.not_true, Bool.true_or, Bool.false_or, Bool.and_false])
  simp only [dataByte_setWidth] at hd
  exact hd

theorem wr8Vram (a : Addr) (v : Byte) : Statement (.wr8Vram a v) := by
  intro b h _
  simp only [Instr.wf, Addr.within, Bool.and_eq_true, decide_eq_true_eq] at h
  have hd := decodeReq_reqWord (b := b) (op := 1) (a := a) (d := v.setWidth 16)
    (r := ⟨13, 0xC, false, fun a d => .wr8Vram a (dataByte d)⟩) (by simp (disch := simp; omega) only [reqTable, exactReadRows, exactWriteRows, windowReadRows, windowWriteRows, bankCommandRows, wideRows, List.cons_append, List.nil_append, List.find?_cons, beq_false_of, beq_true_of, Bool.false_and, Bool.true_and, Bool.and_true, Bool.not_false, Bool.not_true, Bool.true_or, Bool.false_or, Bool.and_false])
  simp only [dataByte_setWidth] at hd
  exact hd

theorem bcNone (a : Addr) (v : Byte) : Statement (.bcNone a v) := by
  intro b h _
  simp only [Instr.wf, Addr.within, Bool.and_eq_true, decide_eq_true_eq] at h
  have hd := decodeReq_reqWord (b := b) (op := 1) (a := a) (d := v.setWidth 16)
    (r := ⟨12, 0x10, false, fun a d => .bcNone a (dataByte d)⟩) (by simp (disch := simp; omega) only [reqTable, exactReadRows, exactWriteRows, windowReadRows, windowWriteRows, bankCommandRows, wideRows, List.cons_append, List.nil_append, List.find?_cons, beq_false_of, beq_true_of, Bool.false_and, Bool.true_and, Bool.and_true, Bool.not_false, Bool.not_true, Bool.true_or, Bool.false_or, Bool.and_false])
  simp only [dataByte_setWidth] at hd
  exact hd

theorem bcRamen (a : Addr) (v : Byte) : Statement (.bcRamen a v) := by
  intro b h _
  simp only [Instr.wf, Addr.within, Bool.and_eq_true, decide_eq_true_eq] at h
  have hd := decodeReq_reqWord (b := b) (op := 1) (a := a) (d := v.setWidth 16)
    (r := ⟨12, 0x11, false, fun a d => .bcRamen a (dataByte d)⟩) (by simp (disch := simp; omega) only [reqTable, exactReadRows, exactWriteRows, windowReadRows, windowWriteRows, bankCommandRows, wideRows, List.cons_append, List.nil_append, List.find?_cons, beq_false_of, beq_true_of, Bool.false_and, Bool.true_and, Bool.and_true, Bool.not_false, Bool.not_true, Bool.true_or, Bool.false_or, Bool.and_false])
  simp only [dataByte_setWidth] at hd
  exact hd

theorem bcRomsel (a : Addr) (v : Byte) : Statement (.bcRomsel a v) := by
  intro b h _
  simp only [Instr.wf, Addr.within, Bool.and_eq_true, decide_eq_true_eq] at h
  have hd := decodeReq_reqWord (b := b) (op := 1) (a := a) (d := v.setWidth 16)
    (r := ⟨13, 0x9, false, fun a d => .bcRomsel a (dataByte d)⟩) (by simp (disch := simp; omega) only [reqTable, exactReadRows, exactWriteRows, windowReadRows, windowWriteRows, bankCommandRows, wideRows, List.cons_append, List.nil_append, List.find?_cons, beq_false_of, beq_true_of, Bool.false_and, Bool.true_and, Bool.and_true, Bool.not_false, Bool.not_true, Bool.true_or, Bool.false_or, Bool.and_false])
  simp only [dataByte_setWidth] at hd
  exact hd

theorem bcHisel (a : Addr) (v : Byte) : Statement (.bcHisel a v) := by
  intro b h _
  simp only [Instr.wf, Addr.within, Bool.and_eq_true, decide_eq_true_eq] at h
  have hd := decodeReq_reqWord (b := b) (op := 1) (a := a) (d := v.setWidth 16)
    (r := ⟨13, 0xA, false, fun a d => .bcHisel a (dataByte d)⟩) (by simp (disch := simp; omega) only [reqTable, exactReadRows, exactWriteRows, windowReadRows, windowWriteRows, bankCommandRows, wideRows, List.cons_append, List.nil_append, List.find?_cons, beq_false_of, beq_true_of, Bool.false_and, Bool.true_and, Bool.and_true, Bool.not_false, Bool.not_true, Bool.true_or, Bool.false_or, Bool.and_false])
  simp only [dataByte_setWidth] at hd
  exact hd

theorem bcModesel (a : Addr) (v : Byte) : Statement (.bcModesel a v) := by
  intro b h _
  simp only [Instr.wf, Addr.within, Bool.and_eq_true, decide_eq_true_eq] at h
  have hd := decodeReq_reqWord (b := b) (op := 1) (a := a) (d := v.setWidth 16)
    (r := ⟨13, 0xB, false, fun a d => .bcModesel a (dataByte d)⟩) (by simp (disch := simp; omega) only [reqTable, exactReadRows, exactWriteRows, windowReadRows, windowWriteRows, bankCommandRows, wideRows, List.cons_append, List.nil_append, List.find?_cons, beq_false_of, beq_true_of, Bool.false_and, Bool.true_and, Bool.and_true, Bool.not_false, Bool.not_true, Bool.true_or, Bool.false_or, Bool.and_false])
  simp only [dataByte_setWidth] at hd
  exact hd

theorem rd16 (a : Addr) : Statement (.rd16 a) := by
  intro b _ _
  have ha := a.isLt
  refine decodeReq_reqWord (op := 2) (r := ⟨16, 2, false, fun a _ => .rd16 a⟩) ?_
  simp (disch := simp; omega) only [reqTable, exactReadRows, exactWriteRows, windowReadRows, windowWriteRows, bankCommandRows, wideRows, List.cons_append, List.nil_append, List.find?_cons, beq_false_of, beq_true_of, Bool.false_and, Bool.true_and, Bool.and_true, Bool.not_false, Bool.not_true, Bool.true_or, Bool.false_or, Bool.and_false]

theorem wr16 (a : Addr) (w : Word) : Statement (.wr16 a w) := by
  intro b _ _
  have ha := a.isLt
  refine decodeReq_reqWord (op := 3) (r := ⟨16, 3, false, fun a d => .wr16 a d⟩) ?_
  simp (disch := simp; omega) only [reqTable, exactReadRows, exactWriteRows, windowReadRows, windowWriteRows, bankCommandRows, wideRows, List.cons_append, List.nil_append, List.find?_cons, beq_false_of, beq_true_of, Bool.false_and, Bool.true_and, Bool.and_true, Bool.not_false, Bool.not_true, Bool.true_or, Bool.false_or, Bool.and_false]

theorem setbios (flag : Bool) : Statement (.setbios flag) := by
  intro b _ _; cases flag <;> rfl

theorem reserved5 : Statement .reserved5 := by
  intro b _ _; rfl

theorem reserved6 : Statement .reserved6 := by
  intro b _ _; rfl

theorem reserved7 : Statement .reserved7 := by
  intro b _ _; rfl

theorem attachDisplay : Statement .attachDisplay := by
  intro b _ _; rfl

theorem attachTimer : Statement .attachTimer := by
  intro b _ _; rfl

theorem attachIrq : Statement .attachIrq := by
  intro b _ _; rfl

theorem attachKbd : Statement .attachKbd := by
  intro b _ _; rfl

theorem construct (rom : Image) (mbcCode : Byte) (ramCode : Byte) : Statement (.construct rom mbcCode ramCode) := by
  intro b h _; exact if_pos h

end Sys2Proof.Laws.RoundTrip
end

