-- ==== Sys2Proof/Laws/Rows.lean ====
section
/-! SUPPORT. The rows cover every word (spec/30_encoding.md R138): each address has a byte-read row and a byte-write
row, the other op codes have one row each, and a row's instruction depends only on the bits the format does not ignore. -/

namespace Sys2Proof.Laws

open Sys2Proof.Machine

/-- A well-formed row reads a byte at each address, whatever the overlay latch. -/
theorem readRow (b : Bool) (a : Addr) : ∃ i, encode i = rd8Word a ∧ i.wf = true ∧ i.selectable b = true := by
  have hlt := a.isLt
  by_cases eFF00 : a = 0xFF00
  · subst eFF00; exact ⟨.rd8IoFF00, rfl, rfl, rfl⟩
  by_cases eFF04 : a = 0xFF04
  · subst eFF04; exact ⟨.rd8IoFF04, rfl, rfl, rfl⟩
  by_cases eFF05 : a = 0xFF05
  · subst eFF05; exact ⟨.rd8IoFF05, rfl, rfl, rfl⟩
  by_cases eFF06 : a = 0xFF06
  · subst eFF06; exact ⟨.rd8IoFF06, rfl, rfl, rfl⟩
  by_cases eFF07 : a = 0xFF07
  · subst eFF07; exact ⟨.rd8IoFF07, rfl, rfl, rfl⟩
  by_cases eFF0F : a = 0xFF0F
  · subst eFF0F; exact ⟨.rd8IoFF0F, rfl, rfl, rfl⟩
  by_cases eFF40 : a = 0xFF40
  · subst eFF40; exact ⟨.rd8IoFF40, rfl, rfl, rfl⟩
  by_cases eFF41 : a = 0xFF41
  · subst eFF41; exact ⟨.rd8IoFF41, rfl, rfl, rfl⟩
  by_cases eFF42 : a = 0xFF42
  · subst eFF42; exact ⟨.rd8IoFF42, rfl, rfl, rfl⟩
  by_cases eFF43 : a = 0xFF43
  · subst eFF43; exact ⟨.rd8IoFF43, rfl, rfl, rfl⟩
  by_cases eFF44 : a = 0xFF44
  · subst eFF44; exact ⟨.rd8IoFF44, rfl, rfl, rfl⟩
  by_cases eFF45 : a = 0xFF45
  · subst eFF45; exact ⟨.rd8IoFF45, rfl, rfl, rfl⟩
  by_cases eFF46 : a = 0xFF46
  · subst eFF46; exact ⟨.rd8IoFF46, rfl, rfl, rfl⟩
  by_cases eFF47 : a = 0xFF47
  · subst eFF47; exact ⟨.rd8IoFF47, rfl, rfl, rfl⟩
  by_cases eFF48 : a = 0xFF48
  · subst eFF48; exact ⟨.rd8IoFF48, rfl, rfl, rfl⟩
  by_cases eFF49 : a = 0xFF49
  · subst eFF49; exact ⟨.rd8IoFF49, rfl, rfl, rfl⟩
  by_cases eFF50 : a = 0xFF50
  · subst eFF50; exact ⟨.rd8IoFF50, rfl, rfl, rfl⟩
  by_cases eFFFF : a = 0xFFFF
  · subst eFFFF; exact ⟨.rd8IoFFFF, rfl, rfl, rfl⟩
  have hio : 0xFF00 ≤ a.toNat → a.toNat ≤ 0xFF7F → a.isUnimplemented = true := by
    intro h1 h2
    simp only [← BitVec.toNat_inj] at *
    simp [Addr.isUnimplemented, Addr.within, listedIo] at *
    omega
  by_cases h0 : a.toNat ≤ 0x00FF
  · cases b with
    | true => exact ⟨.rd8Bios a, rfl, by simp [Instr.wf, Addr.within]; omega, rfl⟩
    | false => exact ⟨.rd8Rom0 a, rfl, by simp [Instr.wf, Addr.within]; omega, rfl⟩
  by_cases h1 : a.toNat ≤ 0x3FFF
  · exact ⟨.rd8Rom0 a, rfl, by simp [Instr.wf, Addr.within]; omega, by simp [Instr.selectable]; omega⟩
  by_cases hrd8Romx : a.toNat ≤ 0x7fff
  · exact ⟨.rd8Romx a, rfl, by simp [Instr.wf, Addr.within]; omega, rfl⟩
  by_cases hrd8Vram : a.toNat ≤ 0x9fff
  · exact ⟨.rd8Vram a, rfl, by simp [Instr.wf, Addr.within]; omega, rfl⟩
  by_cases hrd8Eram : a.toNat ≤ 0xbfff
  · exact ⟨.rd8Eram a, rfl, by simp [Instr.wf, Addr.within]; omega, rfl⟩
  by_cases hrd8Wram : a.toNat ≤ 0xdfff
  · exact ⟨.rd8Wram a, rfl, by simp [Instr.wf, Addr.within]; omega, rfl⟩
  by_cases hrd8Echo : a.toNat ≤ 0xfdff
  · exact ⟨.rd8Echo a, rfl, by simp [Instr.wf, Addr.within]; omega, rfl⟩
  by_cases hrd8Oam : a.toNat ≤ 0xfe9f
  · exact ⟨.rd8Oam a, rfl, by simp [Instr.wf, Addr.within]; omega, rfl⟩
  by_cases hrd8UnmappedA : a.toNat ≤ 0xfebf
  · exact ⟨.rd8UnmappedA a, rfl, by simp [Instr.wf, Addr.within]; omega, rfl⟩
  by_cases hrd8UnmappedB : a.toNat ≤ 0xfeff
  · exact ⟨.rd8UnmappedB a, rfl, by simp [Instr.wf, Addr.within]; omega, rfl⟩
  by_cases hu : a.toNat ≤ 0xFF7F
  · exact ⟨.rd8IoUnimpl a, rfl, hio (by omega) hu, rfl⟩
  · refine ⟨.rd8Zp a, rfl, ?_, rfl⟩
    have : a.toNat ≠ 0xFFFF := fun h => eFFFF (by apply BitVec.eq_of_toNat_eq; exact h)
    simp [Instr.wf, Addr.within]; omega

/-- A well-formed row writes a byte at each address, whatever the overlay latch. -/
theorem writeRow (b : Bool) (a : Addr) (v : Byte) : ∃ i, encode i = wr8Word a v ∧ i.wf = true ∧ i.selectable b = true := by
  have hlt := a.isLt
  by_cases eFF00 : a = 0xFF00
  · subst eFF00; exact ⟨.wr8IoFF00 v, rfl, rfl, rfl⟩
  by_cases eFF04 : a = 0xFF04
  · subst eFF04; exact ⟨.wr8IoFF04 v, rfl, rfl, rfl⟩
  by_cases eFF05 : a = 0xFF05
  · subst eFF05; exact ⟨.wr8IoFF05 v, rfl, rfl, rfl⟩
  by_cases eFF06 : a = 0xFF06
  · subst eFF06; exact ⟨.wr8IoFF06 v, rfl, rfl, rfl⟩
  by_cases eFF07 : a = 0xFF07
  · subst eFF07; exact ⟨.wr8IoFF07 v, rfl, rfl, rfl⟩
  by_cases eFF0F : a = 0xFF0F
  · subst eFF0F; exact ⟨.wr8IoFF0F v, rfl, rfl, rfl⟩
  by_cases eFF40 : a = 0xFF40
  · subst eFF40; exact ⟨.wr8IoFF40 v, rfl, rfl, rfl⟩
  by_cases eFF41 : a = 0xFF41
  · subst eFF41; exact ⟨.wr8IoFF41 v, rfl, rfl, rfl⟩
  by_cases eFF42 : a = 0xFF42
  · subst eFF42; exact ⟨.wr8IoFF42 v, rfl, rfl, rfl⟩
  by_cases eFF43 : a = 0xFF43
  · subst eFF43; exact ⟨.wr8IoFF43 v, rfl, rfl, rfl⟩
  by_cases eFF44 : a = 0xFF44
  · subst eFF44; exact ⟨.wr8IoFF44 v, rfl, rfl, rfl⟩
  by_cases eFF45 : a = 0xFF45
  · subst eFF45; exact ⟨.wr8IoFF45 v, rfl, rfl, rfl⟩
  by_cases eFF46 : a = 0xFF46
  · subst eFF46; exact ⟨.wr8IoFF46 v, rfl, rfl, rfl⟩
  by_cases eFF47 : a = 0xFF47
  · subst eFF47; exact ⟨.wr8IoFF47 v, rfl, rfl, rfl⟩
  by_cases eFF48 : a = 0xFF48
  · subst eFF48; exact ⟨.wr8IoFF48 v, rfl, rfl, rfl⟩
  by_cases eFF49 : a = 0xFF49
  · subst eFF49; exact ⟨.wr8IoFF49 v, rfl, rfl, rfl⟩
  by_cases eFF50 : a = 0xFF50
  · subst eFF50; exact ⟨.wr8IoFF50 v, rfl, rfl, rfl⟩
  by_cases eFFFF : a = 0xFFFF
  · subst eFFFF; exact ⟨.wr8IoFFFF v, rfl, rfl, rfl⟩
  have hio : 0xFF00 ≤ a.toNat → a.toNat ≤ 0xFF7F → a.isUnimplemented = true := by
    intro h1 h2
    simp only [← BitVec.toNat_inj] at *
    simp [Addr.isUnimplemented, Addr.within, listedIo] at *
    omega
  by_cases hbcNone : a.toNat ≤ 0xfff
  · exact ⟨.bcNone a v, rfl, by simp [Instr.wf, Addr.within]; omega, rfl⟩
  by_cases hbcRamen : a.toNat ≤ 0x1fff
  · exact ⟨.bcRamen a v, rfl, by simp [Instr.wf, Addr.within]; omega, rfl⟩
  by_cases hbcRomsel : a.toNat ≤ 0x3fff
  · exact ⟨.bcRomsel a v, rfl, by simp [Instr.wf, Addr.within]; omega, rfl⟩
  by_cases hbcHisel : a.toNat ≤ 0x5fff
  · exact ⟨.bcHisel a v, rfl, by simp [Instr.wf, Addr.within]; omega, rfl⟩
  by_cases hbcModesel : a.toNat ≤ 0x7fff
  · exact ⟨.bcModesel a v, rfl, by simp [Instr.wf, Addr.within]; omega, rfl⟩
  by_cases hwr8Vram : a.toNat ≤ 0x9fff
  · exact ⟨.wr8Vram a v, rfl, by simp [Instr.wf, Addr.within]; omega, rfl⟩
  by_cases hwr8Eram : a.toNat ≤ 0xbfff
  · exact ⟨.wr8Eram a v, rfl, by simp [Instr.wf, Addr.within]; omega, rfl⟩
  by_cases hwr8Wram : a.toNat ≤ 0xdfff
  · exact ⟨.wr8Wram a v, rfl, by simp [Instr.wf, Addr.within]; omega, rfl⟩
  by_cases hwr8Echo : a.toNat ≤ 0xfdff
  · exact ⟨.wr8Echo a v, rfl, by simp [Instr.wf, Addr.within]; omega, rfl⟩
  by_cases hwr8Oam : a.toNat ≤ 0xfe9f
  · exact ⟨.wr8Oam a v, rfl, by simp [Instr.wf, Addr.within]; omega, rfl⟩
  by_cases hwr8UnmappedA : a.toNat ≤ 0xfebf
  · exact ⟨.wr8UnmappedA a v, rfl, by simp [Instr.wf, Addr.within]; omega, rfl⟩
  by_cases hwr8UnmappedB : a.toNat ≤ 0xfeff
  · exact ⟨.wr8UnmappedB a v, rfl, by simp [Instr.wf, Addr.within]; omega, rfl⟩
  by_cases hu : a.toNat ≤ 0xFF7F
  · exact ⟨.wr8IoUnimpl a v, rfl, hio (by omega) hu, rfl⟩
  · refine ⟨.wr8Zp a v, rfl, ?_, rfl⟩
    have : a.toNat ≠ 0xFFFF := fun h => eFFFF (by apply BitVec.eq_of_toNat_eq; exact h)
    simp [Instr.wf, Addr.within]; omega

/-- A word is its three fields (R120). -/
theorem reqWord_fields (w : BitVec 35) : w = reqWord (reqOp w) (reqAddr w) (reqData w) := by
  have := w.isLt
  apply BitVec.eq_of_toNat_eq
  rw [reqWord_toNat]
  simp only [reqOp, reqAddr, reqData, BitVec.extractLsb'_toNat, Nat.shiftRight_eq_div_pow]
  omega

/-- The data bits a row of op 0 or op 1 ignores do not change its instruction. -/
theorem rows_build : ∀ r ∈ reqTable, ∀ (b : Bool) (key : BitVec 19), r.selects b key = true →
    (key.toNat < 65536 → ∀ a d d', r.build a d = r.build a d') ∧
    (65536 ≤ key.toNat → key.toNat < 131072 → ∀ a d d', dataByte d = dataByte d' → r.build a d = r.build a d') := by
  simp only [reqTable, exactReadRows, exactWriteRows, windowReadRows, windowWriteRows, bankCommandRows, wideRows,
    List.forall_mem_append, List.forall_mem_cons, List.not_mem_nil, false_implies, implies_true, and_true]
  repeat' apply And.intro
  any_goals exact trivial
  all_goals
    intro b key h
    simp only [Row.selects, Bool.and_eq_true, beq_iff_eq, Nat.shiftRight_eq_div_pow] at h
    refine ⟨fun hk a d d' => ?_, fun hk hk' a d d' hd => ?_⟩
    · first | rfl | (exfalso; omega)
    · first | rfl | (simp only [hd]; done) | (exfalso; omega)

/-- The key is `op ++ addr` (R138). -/
theorem key_eq (w : BitVec 35) : (reqKey w).toNat = (reqOp w).toNat * 65536 + (reqAddr w).toNat := by
  rw [reqWord_fields w, reqKey_toNat, reqOp_reqWord, reqAddr_reqWord]

/-- The rows of the op codes 2 to 7 (R121). -/
theorem decodeReq_wide (b : Bool) (a : Addr) (d : Word) :
    decodeReq b (reqWord 2 a d) = .ok (.rd16 a) ∧ decodeReq b (reqWord 3 a d) = .ok (.wr16 a d) ∧
    decodeReq b (reqWord 4 a d) = .ok (.setbios (dataFlag d)) ∧ decodeReq b (reqWord 5 a d) = .ok .reserved5 ∧
    decodeReq b (reqWord 6 a d) = .ok .reserved6 ∧ decodeReq b (reqWord 7 a d) = .ok .reserved7 := by
  have ha := a.isLt
  refine ⟨?_, ?_, ?_, ?_, ?_, ?_⟩
  · refine decodeReq_reqWord (op := 2) (r := ⟨16, 2, false, fun a _ => .rd16 a⟩) ?_
    simp (disch := simp; omega) only [reqTable, exactReadRows, exactWriteRows, windowReadRows, windowWriteRows,
      bankCommandRows, wideRows, List.cons_append, List.nil_append, List.find?_cons, beq_false_of, beq_true_of,
      Bool.false_and, Bool.true_and, Bool.and_true, Bool.not_false, Bool.not_true, Bool.true_or, Bool.false_or]
  · refine decodeReq_reqWord (op := 3) (r := ⟨16, 3, false, fun a d => .wr16 a d⟩) ?_
    simp (disch := simp; omega) only [reqTable, exactReadRows, exactWriteRows, windowReadRows, windowWriteRows,
      bankCommandRows, wideRows, List.cons_append, List.nil_append, List.find?_cons, beq_false_of, beq_true_of,
      Bool.false_and, Bool.true_and, Bool.and_true, Bool.not_false, Bool.not_true, Bool.true_or, Bool.false_or]
  · refine decodeReq_reqWord (op := 4) (r := ⟨16, 4, false, fun _ d => .setbios (dataFlag d)⟩) ?_
    simp (disch := simp; omega) only [reqTable, exactReadRows, exactWriteRows, windowReadRows, windowWriteRows,
      bankCommandRows, wideRows, List.cons_append, List.nil_append, List.find?_cons, beq_false_of, beq_true_of,
      Bool.false_and, Bool.true_and, Bool.and_true, Bool.not_false, Bool.not_true, Bool.true_or, Bool.false_or]
  · refine decodeReq_reqWord (op := 5) (r := ⟨16, 5, false, fun _ _ => .reserved5⟩) ?_
    simp (disch := simp; omega) only [reqTable, exactReadRows, exactWriteRows, windowReadRows, windowWriteRows,
      bankCommandRows, wideRows, List.cons_append, List.nil_append, List.find?_cons, beq_false_of, beq_true_of,
      Bool.false_and, Bool.true_and, Bool.and_true, Bool.not_false, Bool.not_true, Bool.true_or, Bool.false_or]
  · refine decodeReq_reqWord (op := 6) (r := ⟨16, 6, false, fun _ _ => .reserved6⟩) ?_
    simp (disch := simp; omega) only [reqTable, exactReadRows, exactWriteRows, windowReadRows, windowWriteRows,
      bankCommandRows, wideRows, List.cons_append, List.nil_append, List.find?_cons, beq_false_of, beq_true_of,
      Bool.false_and, Bool.true_and, Bool.and_true, Bool.not_false, Bool.not_true, Bool.true_or, Bool.false_or]
  · refine decodeReq_reqWord (op := 7) (r := ⟨16, 7, false, fun _ _ => .reserved7⟩) ?_
    simp (disch := simp; omega) only [reqTable, exactReadRows, exactWriteRows, windowReadRows, windowWriteRows,
      bankCommandRows, wideRows, List.cons_append, List.nil_append, List.find?_cons, beq_false_of, beq_true_of,
      Bool.false_and, Bool.true_and, Bool.and_true, Bool.not_false, Bool.not_true, Bool.true_or, Bool.false_or]

theorem op_cases (op : BitVec 3) : op = 0 ∨ op = 1 ∨ op = 2 ∨ op = 3 ∨ op = 4 ∨ op = 5 ∨ op = 6 ∨ op = 7 := by
  revert op; decide

/-- Two words of op 0 or 1 that agree but for ignored bits are the same instruction. -/
theorem decode_same_key {b : Bool} {w w' : BitVec 35} (hop : reqOp w = reqOp w') (ha : reqAddr w = reqAddr w')
    (h : reqOp w = 0 ∨ (reqOp w = 1 ∧ dataByte (reqData w) = dataByte (reqData w'))) : decodeReq b w = decodeReq b w' := by
  have hk : reqKey w = reqKey w' := by
    apply BitVec.eq_of_toNat_eq; rw [key_eq, key_eq, hop, ha]
  unfold decodeReq
  rw [← hk, ← ha]
  have h2 := (reqAddr w).isLt
  split
  · rename_i r hr
    have hm := List.mem_of_find?_eq_some hr
    have hs := List.find?_some hr
    obtain ⟨h0, h1⟩ := rows_build r hm b _ hs
    have kq := key_eq w
    rcases h with h | ⟨h, hd⟩
    · rw [h] at kq; simp at kq
      rw [h0 (by omega) _ _ (reqData w')]
    · rw [h] at kq; simp at kq
      rw [h1 (by omega) (by omega) _ _ _ hd]
  · rfl

theorem dataByte_eq {d d' : Word} (h : d.toNat % 256 = d'.toNat % 256) : dataByte d = dataByte d' := by
  apply BitVec.eq_of_toNat_eq; simpa [dataByte] using h

theorem dataFlag_eq {d d' : Word} (h : d.toNat % 2 = d'.toNat % 2) : dataFlag d = dataFlag d' := by
  simp [dataFlag, BitVec.getLsbD, Nat.testBit, Nat.and_comm, Nat.and_one_is_mod, h]

end Sys2Proof.Laws
end

