-- ==== Sys2Proof/Laws/Script.lean ====
section
/-! SUPPORT. The explicit script of a DMA copy (spec/43_dma.md R287), for requests that run the byte transactions. -/

namespace Sys2Proof.Machine

open Sys2Proof.Laws

/-- The latch a run leaves. -/
def latchOf : Ending → Option Cause
  | .fatal c => some c
  | .ok => none
  | .refuse _ => none

theorem stoppedIn_fields (s : State) (b : Bus) (x : Stop) (e : List Event) (hf : s.fatal = none) :
    (s.stoppedIn b x e).cfg = s.cfg ∧ (s.stoppedIn b x e).session = some b ∧ (s.stoppedIn b x e).fatal = latchOf x.ending ∧
    (s.stoppedIn b x e).pending = s.pending ∧ (s.stoppedIn b x e).rsp = some { outcome := x.ending, rdata := none, events := e } := by
  cases x
  · exact ⟨rfl, rfl, rfl, rfl, rfl⟩
  · exact ⟨rfl, rfl, hf, rfl, rfl⟩

variable (hread : ∀ (s : State) (a : Addr), s.request (rd8Word a) = s.readTxn fun b => read8 b a)
  (hwrite : ∀ (s : State) (a : Addr) (v : Byte), s.request (wr8Word a v) = s.writeTxn fun b => write8 s.cfg b a v)

include hread hwrite in
/-- From a live state the script leaves what the copy leaves, with the same events and the same end. -/
theorem copyScript_dmaFrom (page : Byte) : ∀ (n i : Nat) (s : State) (b : Bus) (log : List Event), s.live b → i + n ≤ 160 →
    let r := dmaFrom s.cfg page n i b
    let p := copyScript page n i s log
    p.1.cfg = s.cfg ∧ p.1.session = some r.bus ∧ p.1.fatal = latchOf r.ending ∧ p.1.pending = s.pending ∧
    p.2 = log ++ r.events ∧ (s.rsp.map Response.outcome = some .ok ∨ n ≠ 0 → p.1.rsp.map Response.outcome = some r.ending) := by
  intro n
  induction n with
  | zero =>
    intro i s b log h _
    exact ⟨rfl, h.2, h.1, rfl, by simp [copyScript, dmaFrom, Run.idle], by simp [copyScript, dmaFrom, Run.idle]⟩
  | succ n ih =>
    intro i s b log h hi
    cases hr : read8 b (dmaSource page i) with
    | error x =>
      have ht : s.request (rd8Word (dmaSource page i)) = s.stoppedIn b x [] := by
        rw [hread]; exact State.readTxn_error h hr
      obtain ⟨h1, h2, h3, h4, h5⟩ := stoppedIn_fields s b x [] h.1
      have hrun : dmaFrom s.cfg page (n + 1) i b = .stop b x := by
        rw [dmaFrom, dmaByte_error hr, Run.andThen_stop x.ending_ne_ok]
      have hp : copyScript page (n + 1) i s log = (s.stoppedIn b x [], log ++ []) := by
        cases x <;> simp only [copyScript, ht, h5, Stop.ending]
      simp only [hrun, hp]
      exact ⟨h1, h2, h3, h4, rfl, fun _ => by rw [h5]; rfl⟩
    | ok q =>
      obtain ⟨v, e⟩ := q
      have ht : s.request (rd8Word (dmaSource page i)) = s.readOk (v.setWidth 16) e := by
        rw [hread]; exact State.readTxn_ok h hr
      have hl : (s.readOk (v.setWidth 16) e).live b := h
      have hw8 := write8With_dmaDest (dmaCopy s.cfg) s.cfg b (i := i) (by omega) v
      cases hw : b.wired.display with
      | false =>
        have hu : (s.readOk (v.setWidth 16) e).request (wr8Word (dmaDest i) (lowByte (v.setWidth 16))) =
            (s.readOk (v.setWidth 16) e).refusedIn b .unwired [] := by
          rw [hwrite, lowByte_setWidth, State.writeTxn_live hl]
          show State.finish _ (write8With (dmaCopy s.cfg) s.cfg b (dmaDest i) v) = _
          rw [hw8, Bus.needsForWrite_unwired (o := .display) hw, State.finish_stopped]; rfl
        have hrun : dmaFrom s.cfg page (n + 1) i b = { bus := b, events := e, ending := .refuse .unwired, accesses := 1 } := by
          rw [dmaFrom, dmaByte_unwired (by omega) hw hr, Run.andThen_stop (by simp)]
        have hp : copyScript page (n + 1) i s log = ((s.readOk (v.setWidth 16) e).refusedIn b .unwired [], log ++ e ++ []) := by
          simp only [copyScript, ht]
          simp only [State.readOk, State.refusedIn]
          rw [show ({ s with rsp := some { outcome := Ending.ok, rdata := some (v.setWidth 16), events := e } } : State).request (wr8Word (dmaDest i) (lowByte (v.setWidth 16))) = _ from hu]
          rfl
        simp only [hrun, hp]
        exact ⟨rfl, rfl, h.1, rfl, by simp, fun _ => rfl⟩
      | true =>
        have hu : (s.readOk (v.setWidth 16) e).request (wr8Word (dmaDest i) (lowByte (v.setWidth 16))) =
            s.writeOk (b.withOam (b.own.lcd.oam.write i v)) [] := by
          rw [hwrite, lowByte_setWidth, State.writeTxn_live hl]
          show State.finish _ (write8With (dmaCopy s.cfg) s.cfg b (dmaDest i) v) = _
          rw [hw8, Bus.needsForWrite_wired (o := .display) hw, State.finish_done]; rfl
        have hrun : dmaFrom s.cfg page (n + 1) i b = Run.mk (dmaFrom s.cfg page n (i + 1) (b.withOam (b.own.lcd.oam.write i v))).bus
            (e ++ (dmaFrom s.cfg page n (i + 1) (b.withOam (b.own.lcd.oam.write i v))).events)
            (dmaFrom s.cfg page n (i + 1) (b.withOam (b.own.lcd.oam.write i v))).ending
            (2 + (dmaFrom s.cfg page n (i + 1) (b.withOam (b.own.lcd.oam.write i v))).accesses) := by
          rw [dmaFrom, dmaByte_ok (by omega) hw hr, Run.andThen_ok rfl]
        have hp : copyScript page (n + 1) i s log = copyScript page n (i + 1) (s.writeOk (b.withOam (b.own.lcd.oam.write i v)) []) (log ++ e ++ []) := by
          simp only [copyScript, ht]
          simp only [State.readOk]
          rw [show ({ s with rsp := some { outcome := Ending.ok, rdata := some (v.setWidth 16), events := e } } : State).request (wr8Word (dmaDest i) (lowByte (v.setWidth 16))) = _ from hu]
          rfl
        have hl' : (s.writeOk (b.withOam (b.own.lcd.oam.write i v)) []).live (b.withOam (b.own.lcd.oam.write i v)) := ⟨h.1, rfl⟩
        obtain ⟨h1, h2, h3, h4, h5, h6⟩ := ih (i + 1) _ _ (log ++ e ++ []) hl' (by omega)
        simp only [hrun, hp]
        exact ⟨h1, h2, h3, h4, h5.trans (by simp; rfl), fun _ => h6 (.inl rfl)⟩

end Sys2Proof.Machine
end

