-- ==== Sys2Proof/Tests/Slice0.lean ====
section
/-! SUPPORT. Tests. The expected results are the vectors of spec/95_test_vectors.md, or computed by hand from the rule a
test names. Last come the witnesses: for each obligation with hypotheses, data that meet them. -/

namespace Sys2Proof.Tests

open Sys2Proof Sys2Proof.Machine

/-! ## Fixtures (spec/95_test_vectors.md section 0): the bytes of `ROM_A` and `BIOS_T` that a test reads -/

def romA : Image :=
  { len := 0x8000
    bytes := [(0x10, 0x10), (0xFF, 0xFF), (0x100, 0x01), (0x3FFF, 0xC0), (0x4000, 0x40), (0x7FFF, 0x80)] }

def cfg : Config := { Config.atReset with biosImage := [(0, 0xA5), (0x10, 0xB5), (0x9F, 0x3A), (0xFF, 0x5A)] }

/-- An instance of that mode and size with all four owners wired. -/
def bus (mode : Mode) (size : RamSize) : Bus :=
  { Bus.reset cfg romA mode size with wired := { display := true, timer := true, irq := true, kbd := true } }

def f1 : Bus := bus .romOnly .none
def f2 : Bus := bus .mbc1 .kb8
def f3 : Bus := bus .mbc1Ram .kb2
def f4 : Bus := bus .romOnly .kb8

/-- The same with no owner wired. -/
def bare : Bus := { f1 with wired := Wiring.reset }

def stateOf (b : Bus) : State := { cfg := cfg, session := some b, fatal := none, pending := [], rsp := none }

/-- The state one step after a request at the port. -/
def after (s : State) (w : PortWord) : Option State :=
  match step (s.requestFirst w) with
  | .next t => some t
  | .fault _ => none
  | .refused _ => none

/-- The answer to a REQ word. -/
def answer (b : Bus) (w : BitVec 35) : Option Response := ((after (stateOf b) (.req w)).bind State.rsp)

/-- A word read, with no event. -/
def gives (d : Word) : Option Response := some { outcome := .ok, rdata := some d, events := [] }

/-- A part of the instance after a REQ word. -/
def left {α : Type} (b : Bus) (w : BitVec 35) (f : Bus → α) : Option α :=
  ((after (stateOf b) (.req w)).bind State.session).map f

def fatalAnswer (c : Cause) : Option Response := some { outcome := .fatal c, rdata := none, events := [] }

def refusal (r : Reason) : Option Response := some { outcome := .refuse r, rdata := none, events := [] }

/-! ## Well-formedness: an ill-formed term for each check -/

theorem test_wf_memory_order : Memory.wf [(3, 1), (2, 1)] = false := by decide
theorem test_wf_memory_repeat : Memory.wf [(3, 1), (3, 2)] = false := by decide
theorem test_wf_memory_zero : Memory.wf [(3, 0)] = false := by decide
theorem test_wf_memory_size : Memory.fits 160 [(160, 1)] = false ∧ Memory.fits 160 [(159, 1)] = true := by decide
theorem test_wf_image : Image.wf { len := 2, bytes := [(2, 1)] } = false ∧ romA.wf = true := by decide

/-- Each read row refuses the addresses next to its range. -/
theorem test_wf_read_ranges :
    (Instr.rd8Zp 0xFF7F).wf = false ∧ (Instr.rd8Zp 0xFFFF).wf = false ∧ (Instr.rd8IoUnimpl 0xFF04).wf = false ∧
    (Instr.rd8IoUnimpl 0xFF80).wf = false ∧ (Instr.rd8UnmappedA 0xFE9F).wf = false ∧ (Instr.rd8UnmappedA 0xFEC0).wf = false ∧
    (Instr.rd8UnmappedB 0xFEBF).wf = false ∧ (Instr.rd8UnmappedB 0xFF00).wf = false ∧ (Instr.rd8Oam 0xFDFF).wf = false ∧
    (Instr.rd8Oam 0xFEA0).wf = false ∧ (Instr.rd8Echo 0xDFFF).wf = false ∧ (Instr.rd8Echo 0xFE00).wf = false ∧
    (Instr.rd8Wram 0xBFFF).wf = false ∧ (Instr.rd8Wram 0xE000).wf = false ∧ (Instr.rd8Eram 0x9FFF).wf = false ∧
    (Instr.rd8Eram 0xC000).wf = false ∧ (Instr.rd8Vram 0x7FFF).wf = false ∧ (Instr.rd8Vram 0xA000).wf = false ∧
    (Instr.rd8Bios 0x0100).wf = false ∧ (Instr.rd8Rom0 0x4000).wf = false ∧ (Instr.rd8Romx 0x3FFF).wf = false ∧
    (Instr.rd8Romx 0x8000).wf = false := by decide

/-- Each write row refuses the addresses next to its range. -/
theorem test_wf_write_ranges :
    (Instr.wr8Zp 0xFF7F 1).wf = false ∧ (Instr.wr8Zp 0xFFFF 1).wf = false ∧ (Instr.wr8IoUnimpl 0xFF50 1).wf = false ∧
    (Instr.wr8IoUnimpl 0xFEFF 1).wf = false ∧ (Instr.wr8UnmappedA 0xFE9F 1).wf = false ∧
    (Instr.wr8UnmappedA 0xFEC0 1).wf = false ∧ (Instr.wr8UnmappedB 0xFEBF 1).wf = false ∧
    (Instr.wr8UnmappedB 0xFF00 1).wf = false ∧ (Instr.wr8Oam 0xFEA0 1).wf = false ∧ (Instr.wr8Echo 0xFE00 1).wf = false ∧
    (Instr.wr8Wram 0xE000 1).wf = false ∧ (Instr.wr8Eram 0xC000 1).wf = false ∧ (Instr.wr8Vram 0xA000 1).wf = false ∧
    (Instr.bcNone 0x1000 1).wf = false ∧ (Instr.bcRamen 0x0FFF 1).wf = false ∧ (Instr.bcRamen 0x2000 1).wf = false ∧
    (Instr.bcRomsel 0x1FFF 1).wf = false ∧ (Instr.bcRomsel 0x4000 1).wf = false ∧ (Instr.bcHisel 0x3FFF 1).wf = false ∧
    (Instr.bcHisel 0x6000 1).wf = false ∧ (Instr.bcModesel 0x5FFF 1).wf = false ∧ (Instr.bcModesel 0x8000 1).wf = false := by
  decide

theorem test_wf_construct : (Instr.construct { len := 1, bytes := [(1, 1)] } 0 0).wf = false := by decide

theorem test_selectable : (Instr.rd8Bios 0x0000).selectable false = false ∧ (Instr.rd8Rom0 0x00FF).selectable true = false := by
  decide

/-! ## Decoding: each constructor by a word of the format (spec/30_encoding.md R120, R121, R123, R131, R138) -/

theorem test_decode_register_reads :
    decode true (.req 0x0FF000000) = .ok .rd8IoFF00 ∧ decode true (.req 0x0FF040000) = .ok .rd8IoFF04 ∧
    decode true (.req 0x0FF050000) = .ok .rd8IoFF05 ∧ decode true (.req 0x0FF060000) = .ok .rd8IoFF06 ∧
    decode true (.req 0x0FF070000) = .ok .rd8IoFF07 ∧ decode true (.req 0x0FF0F0000) = .ok .rd8IoFF0F ∧
    decode true (.req 0x0FF400000) = .ok .rd8IoFF40 ∧ decode true (.req 0x0FF410000) = .ok .rd8IoFF41 ∧
    decode true (.req 0x0FF420000) = .ok .rd8IoFF42 ∧ decode true (.req 0x0FF430000) = .ok .rd8IoFF43 ∧
    decode true (.req 0x0FF440000) = .ok .rd8IoFF44 ∧ decode true (.req 0x0FF450000) = .ok .rd8IoFF45 ∧
    decode true (.req 0x0FF460000) = .ok .rd8IoFF46 ∧ decode true (.req 0x0FF470000) = .ok .rd8IoFF47 ∧
    decode true (.req 0x0FF480000) = .ok .rd8IoFF48 ∧ decode true (.req 0x0FF490000) = .ok .rd8IoFF49 ∧
    decode true (.req 0x0FF500000) = .ok .rd8IoFF50 ∧ decode true (.req 0x0FFFF0000) = .ok .rd8IoFFFF := by decide

theorem test_decode_register_writes :
    decode true (.req 0x1FF000020) = .ok (.wr8IoFF00 0x20) ∧ decode true (.req 0x1FF040077) = .ok (.wr8IoFF04 0x77) ∧
    decode true (.req 0x1FF0500F0) = .ok (.wr8IoFF05 0xF0) ∧ decode true (.req 0x1FF060080) = .ok (.wr8IoFF06 0x80) ∧
    decode true (.req 0x1FF0700FD) = .ok (.wr8IoFF07 0xFD) ∧ decode true (.req 0x1FF0F00FF) = .ok (.wr8IoFF0F 0xFF) ∧
    decode true (.req 0x1FF400091) = .ok (.wr8IoFF40 0x91) ∧ decode true (.req 0x1FF4100FF) = .ok (.wr8IoFF41 0xFF) ∧
    decode true (.req 0x1FF420010) = .ok (.wr8IoFF42 0x10) ∧ decode true (.req 0x1FF430008) = .ok (.wr8IoFF43 0x08) ∧
    decode true (.req 0x1FF440000) = .ok (.wr8IoFF44 0x00) ∧ decode true (.req 0x1FF450040) = .ok (.wr8IoFF45 0x40) ∧
    decode true (.req 0x1FF4600C0) = .ok (.wr8IoFF46 0xC0) ∧ decode true (.req 0x1FF4700E4) = .ok (.wr8IoFF47 0xE4) ∧
    decode true (.req 0x1FF4800D2) = .ok (.wr8IoFF48 0xD2) ∧ decode true (.req 0x1FF49001B) = .ok (.wr8IoFF49 0x1B) ∧
    decode true (.req 0x1FF500001) = .ok (.wr8IoFF50 0x01) ∧ decode true (.req 0x1FFFF001F) = .ok (.wr8IoFFFF 0x1F) := by
  decide

theorem test_decode_window_reads :
    decode true (.req 0x0FF800000) = .ok (.rd8Zp 0xFF80) ∧ decode true (.req 0x0FF7F0000) = .ok (.rd8IoUnimpl 0xFF7F) ∧
    decode true (.req 0x0FEA00000) = .ok (.rd8UnmappedA 0xFEA0) ∧ decode true (.req 0x0FEFF0000) = .ok (.rd8UnmappedB 0xFEFF) ∧
    decode true (.req 0x0FE9F0000) = .ok (.rd8Oam 0xFE9F) ∧ decode true (.req 0x0E0000000) = .ok (.rd8Echo 0xE000) ∧
    decode true (.req 0x0DFFF0000) = .ok (.rd8Wram 0xDFFF) ∧ decode true (.req 0x0BFFF0000) = .ok (.rd8Eram 0xBFFF) ∧
    decode true (.req 0x09FFF0000) = .ok (.rd8Vram 0x9FFF) ∧ decode true (.req 0x000FF0000) = .ok (.rd8Bios 0x00FF) ∧
    decode true (.req 0x001000000) = .ok (.rd8Rom0 0x0100) ∧ decode true (.req 0x040000000) = .ok (.rd8Romx 0x4000) := by
  decide

theorem test_decode_window_writes :
    decode true (.req 0x1FFFE00FE) = .ok (.wr8Zp 0xFFFE 0xFE) ∧ decode true (.req 0x1FF010042) = .ok (.wr8IoUnimpl 0xFF01 0x42) ∧
    decode true (.req 0x1FEA00055) = .ok (.wr8UnmappedA 0xFEA0 0x55) ∧ decode true (.req 0x1FEC00055) = .ok (.wr8UnmappedB 0xFEC0 0x55) ∧
    decode true (.req 0x1FE9F0022) = .ok (.wr8Oam 0xFE9F 0x22) ∧ decode true (.req 0x1FDFF0099) = .ok (.wr8Echo 0xFDFF 0x99) ∧
    decode true (.req 0x1C0000055) = .ok (.wr8Wram 0xC000 0x55) ∧ decode true (.req 0x1A7FF0042) = .ok (.wr8Eram 0xA7FF 0x42) ∧
    decode true (.req 0x19FFF007E) = .ok (.wr8Vram 0x9FFF 0x7E) := by decide

theorem test_decode_bank_commands :
    decode true (.req 0x10FFF000A) = .ok (.bcNone 0x0FFF 0x0A) ∧ decode true (.req 0x11FFF00FA) = .ok (.bcRamen 0x1FFF 0xFA) ∧
    decode true (.req 0x13FFF001F) = .ok (.bcRomsel 0x3FFF 0x1F) ∧ decode true (.req 0x15FFF0030) = .ok (.bcHisel 0x5FFF 0x30) ∧
    decode true (.req 0x17FFF00FE) = .ok (.bcModesel 0x7FFF 0xFE) := by decide

theorem test_decode_wide :
    decode true (.req 0x2FF0F0000) = .ok (.rd16 0xFF0F) ∧ decode true (.req 0x3C000BEEF) = .ok (.wr16 0xC000 0xBEEF) ∧
    decode true (.req 0x400000001) = .ok (.setbios true) ∧ decode true (.req 0x400000000) = .ok (.setbios false) ∧
    decode true (.req 0x500000000) = .ok .reserved5 ∧ decode true (.req 0x600000000) = .ok .reserved6 ∧
    decode true (.req 0x7FFFFFFFF) = .ok .reserved7 := by decide

theorem test_decode_host :
    decode true (.host 0) = .ok .attachDisplay ∧ decode true (.host 1) = .ok .attachTimer ∧
    decode true (.host 2) = .ok .attachIrq ∧ decode true (.host 3) = .ok .attachKbd ∧
    decode true (.construct romA 5 2) = .ok (.construct romA 5 2) ∧
    decode true (.construct { len := 0, bytes := [(0, 1)] } 5 2) = .error .malformedImage := by decide

/-- The overlay changes only the row of 0x0000 to 0x00FF (R138). -/
theorem test_decode_overlay_off :
    decode false (.req 0x000FF0000) = .ok (.rd8Rom0 0x00FF) ∧ decode false (.req 0x1000000FF) = .ok (.bcNone 0x0000 0xFF) := by
  decide

/-- The table's numbering: KEY bit 0 is `addr[0]`, KEY bits 18 to 16 are `op` (R138). -/
theorem test_table_word :
    decodeTableWord 24 0x1FF50 = some (.wr8IoFF50 0) ∧ decodeTableWord 24 0x20000 = some (.rd16 0) ∧
    decodeTableWord 8 2 = some .attachIrq := by decide

theorem test_withFetchWord :
    step (State.reset.withFetchWord 24 0x0C000) = exec (.rd8Wram 0xC000) State.reset := by rfl

/-! ## Reads (sections 2.1, 2.4) -/

theorem test_rd8_bios : answer f1 0x000000000 = gives 0xA5 ∧ answer f1 0x000FF0000 = gives 0x5A := by decide
theorem test_rd8_rom0 : answer f1 0x001000000 = gives 0x01 ∧ answer { f1 with inBios := false } 0x000FF0000 = gives 0xFF := by decide
theorem test_rd8_romx : answer f1 0x040000000 = gives 0x40 ∧ answer f1 0x07FFF0000 = gives 0x80 := by decide
theorem test_rd8_romx_beyond : answer { f3 with bc := { f3.bc with romBankOffset := 0x8000 } } 0x040000000 = refusal .romIndexOutOfRange := by
  decide
theorem test_rd8_vram : answer { f1 with own := ownerSetVram f1.own 0 0x3C } 0x080000000 = gives 0x3C := by decide
theorem test_rd8_vram_unwired : answer bare 0x080000000 = refusal .unwired := by decide
theorem test_rd8_eram : answer { f3 with eram := [(0x7FF, 0x42)] } 0x0A7FF0000 = gives 0x42 := by decide
theorem test_rd8_eram_fatal :
    answer f1 0x0A0000000 = fatalAnswer .eramNotConfigured ∧ answer f3 0x0A8000000 = fatalAnswer .eramOutOfRange := by decide
theorem test_rd8_wram : answer { f1 with wram := [(0x1FFF, 0x77)] } 0x0DFFF0000 = gives 0x77 := by decide
theorem test_rd8_echo : answer { f1 with wram := [(0, 0x55)] } 0x0E0000000 = gives 0x55 := by decide
theorem test_rd8_oam : answer { f1 with own := ownerSetOam f1.own 0x9F 0x22 } 0x0FE9F0000 = gives 0x22 := by decide
theorem test_rd8_unmapped : answer bare 0x0FEA00000 = gives 0 ∧ answer f1 0x0FEFF0000 = gives 0 := by decide
theorem test_rd8_zp : answer { f1 with zp := [(0, 0x77)] } 0x0FF800000 = gives 0x77 := by decide
theorem test_rd8_unimplemented :
    answer f1 0x0FF100000 = some { outcome := .ok, rdata := some 0, events := [.unimplRead 0xFF10] } := by decide
theorem test_rd8_trigger :
    answer f1 0x0FF460000 = some { outcome := .ok, rdata := some 0, events := [.unimplRead 0xFF46] } := by decide
theorem test_rd8_latch : answer f1 0x0FF500000 = gives 1 ∧ answer { f1 with inBios := false } 0x0FF500000 = gives 0 := by decide

/-- One owner cell set; the value is read back at its own address. -/
def withCell (c : RegCell) (v : Byte) : Bus := { f1 with own := ownerSet f1.own c v }

theorem test_rd8_keyboard_timer_irq :
    answer (withCell .joypad 0xCF) 0x0FF000000 = gives 0xCF ∧ answer (withCell .divider 0xAB) 0x0FF040000 = gives 0xAB ∧
    answer (withCell .counter 0xF0) 0x0FF050000 = gives 0xF0 ∧ answer (withCell .modulo 0x80) 0x0FF060000 = gives 0x80 ∧
    answer (withCell .timerControl 0xFF) 0x0FF070000 = gives 0xFF ∧ answer (withCell .irqFlags 0xFF) 0x0FF0F0000 = gives 0xFF ∧
    answer (withCell .irqEnable 0x1F) 0x0FFFF0000 = gives 0x1F := by decide

theorem test_rd8_display :
    answer (withCell .lcdControl 0x91) 0x0FF400000 = gives 0x91 ∧ answer (withCell .lcdStatus 0xFF) 0x0FF410000 = gives 0xFF ∧
    answer (withCell .scrollY 0x10) 0x0FF420000 = gives 0x10 ∧ answer (withCell .scrollX 0x08) 0x0FF430000 = gives 0x08 ∧
    answer (withCell .scanline 0x90) 0x0FF440000 = gives 0x90 ∧
    answer (withCell .scanlineCompare 0x40) 0x0FF450000 = gives 0x40 ∧ answer (withCell .palette0 0xE4) 0x0FF470000 = gives 0xE4 ∧
    answer (withCell .palette1 0xD2) 0x0FF480000 = gives 0xD2 ∧ answer (withCell .palette2 0x1B) 0x0FF490000 = gives 0x1B ∧
    answer (withCell .palette0 0xE4) 0x0FF480000 = gives 0x00 := by decide

/-! ## Writes (sections 2.1, 2.4) -/

theorem test_wr8_keyboard_timer_irq :
    left f1 0x1FF000020 (·.own.kbd.joypad) = some 0x20 ∧
    left (withCell .divider 0xAB) 0x1FF040077 (·.own.tmr.divider) = some 0 ∧
    left f1 0x1FF0500F0 (·.own.tmr.counter) = some 0xF0 ∧ left f1 0x1FF060080 (·.own.tmr.modulo) = some 0x80 ∧
    left f1 0x1FF0700FD (·.own.tmr.control) = some 0x05 ∧ left f1 0x1FF0700F8 (·.own.tmr.control) = some 0 ∧
    left f1 0x1FF0F00FF (·.own.irq.flags) = some 0xFF ∧ left f1 0x1FFFF001F (·.own.irq.enable) = some 0x1F := by decide

theorem test_wr8_display :
    left f1 0x1FF400091 (·.own.lcd.control) = some 0x91 ∧ left f1 0x1FF4100FF (·.own.lcd.status) = some 0xFF ∧
    left f1 0x1FF420010 (·.own.lcd.scrollY) = some 0x10 ∧ left f1 0x1FF430008 (·.own.lcd.scrollX) = some 0x08 ∧
    left (withCell .scanline 0x90) 0x1FF440000 (·.own.lcd.scanline) = some 0x90 ∧
    left f1 0x1FF450040 (·.own.lcd.scanlineCompare) = some 0x40 ∧ left f1 0x1FF4700E4 (·.own.lcd.palette0) = some 0xE4 ∧
    left f1 0x1FF4800D2 (·.own.lcd.palette1) = some 0xD2 ∧ left f1 0x1FF49001B (·.own.lcd.palette2) = some 0x1B := by decide

theorem test_wr8_scanline_unwired :
    answer bare 0x1FF440001 = some { outcome := .ok, rdata := none, events := [] } := by decide
theorem test_wr8_latch : left f1 0x1FF500001 (·.inBios) = some false := by decide
theorem test_wr8_vram : left f1 0x19FFF007E (·.own.lcd.vram) = some [(0x1FFF, 0x7E)] := by decide
theorem test_wr8_oam : left f1 0x1FE9F0022 (·.own.lcd.oam) = some [(0x9F, 0x22)] ∧ answer bare 0x1FE000001 = refusal .unwired := by
  decide
theorem test_wr8_wram : left f1 0x1DFFF0077 (·.wram) = some [(0x1FFF, 0x77)] := by decide
theorem test_wr8_echo : left f1 0x1E0010066 (·.wram) = some [(1, 0x66)] := by decide
theorem test_wr8_zp : left f1 0x1FFFE0088 (·.zp) = some [(0x7E, 0x88)] := by decide
theorem test_wr8_unmapped : left f1 0x1FEA00055 id = some f1 ∧ left f1 0x1FEC00055 id = some f1 := by decide
theorem test_wr8_unimplemented :
    answer f1 0x1FF100080 = some { outcome := .ok, rdata := none, events := [.unimplWrite 0xFF10 0x80] } := by decide
theorem test_wr8_eram_romOnly :
    left f4 0x1A010005A (·.eram) = some [(0x10, 0x5A)] ∧ answer f1 0x1A0000000 = fatalAnswer .eramNotConfigured := by decide

/-- Dropped while disabled, even out of range; checked once enabled (section 2.1, fixture F3). -/
theorem test_wr8_eram_banked :
    left f3 0x1A8000001 id = some f3 ∧
    answer { f3 with bc := { f3.bc with ramEnabled := true } } 0x1A8000001 = fatalAnswer .eramOutOfRange := by decide

/-! ## Bank Controller (section 2.3) -/

theorem test_bc_none : left f2 0x10FFF000A id = some f2 := by decide
theorem test_bc_ramen :
    left f2 0x11FFF00FA (·.bc.ramEnabled) = some true ∧
    left { f2 with bc := { f2.bc with ramEnabled := true } } 0x1100000A0 (·.bc.ramEnabled) = some false := by decide
theorem test_bc_ramen_romOnly : left f4 0x11000000A id = some f4 := by decide
theorem test_bc_romsel :
    left f2 0x1200000E0 (·.bc.romBankOffset) = some 0x4000 ∧ left f2 0x13FFF001F (·.bc.romBankOffset) = some 0x7C000 := by decide

/-- F2 with bank 5 selected. -/
def f2at5 : Bus := { f2 with bc := { f2.bc with romBankOffset := 0x14000 } }

theorem test_bc_hisel_rom :
    left f2at5 0x140000010 (·.bc.romBankOffset) = some 0x94000 ∧ left f2at5 0x15FFF0030 (·.bc.romBankOffset) = some 0x194000 := by
  decide
theorem test_bc_hisel_ram :
    left { f2 with bc := { f2.bc with bankingMode := .ramBanking } } 0x140000007 (·.bc.ramBankOffset) = some 0x6000 := by decide
theorem test_bc_modesel :
    left f2 0x160000001 (·.bc.bankingMode) = some .ramBanking ∧
    left { f2 with bc := { f2.bc with bankingMode := .ramBanking } } 0x17FFF00FE (·.bc.bankingMode) = some .romBanking := by decide

/-! ## Words (section 2.2) -/

theorem test_rd16 : answer f1 0x200FF0000 = gives 0x015A ∧ answer f1 0x2FFFF0000 = refusal .wordAtTop := by decide
theorem test_rd16_event : answer { f1 with zp := [(0, 0x77)] } 0x2FF7F0000 =
    some { outcome := .ok, rdata := some 0x7700, events := [.unimplRead 0xFF7F] } := by decide
theorem test_wr16 : left f1 0x3DFFF1122 (·.wram) = some [(0, 0x11), (0x1FFF, 0x22)] := by decide

/-- The low byte stays when the high byte is fatal (R189). -/
theorem test_wr16_partial :
    answer f1 0x39FFF1234 = fatalAnswer .eramNotConfigured ∧ left f1 0x39FFF1234 (·.own.lcd.vram) = some [(0x1FFF, 0x34)] := by
  decide

/-! ## DMA (section 2.5, E7) -/

/-- Video RAM holding the three bytes of E7 that are shown. -/
def f1vram : Bus := { f1 with own := { f1.own with lcd := { f1.own.lcd with vram := [(0, 0xFF), (1, 0xFE), (0x9F, 0x60)] } } }

set_option maxRecDepth 8000 in
theorem test_dma : left f1vram 0x1FF460080 (·.own.lcd.oam) = some [(0, 0xFF), (1, 0xFE), (0x9F, 0x60)] := by decide

set_option maxRecDepth 8000 in
/-- The byte accesses of a copy, of a word one byte of which starts one, and of a plain write (R392). -/
theorem test_dma_accesses : (write8 cfg f1 0xFF46 0xC0).accesses = 321 ∧ (writeWord cfg f1 0xFF45 0xC012).accesses = 322 ∧
    (write8 cfg f1 0xC000 1).accesses = 1 ∧ (readWord f1 0x00FF).accesses = 2 := by decide

theorem test_dma_fatal : answer f1 0x1FF4600A0 = fatalAnswer .eramNotConfigured := by decide
theorem test_dma_unwired : answer bare 0x1FF4600C0 = refusal .unwired := by decide

/-! ## Host operations, admission, owner steps (section 2.6, E8) -/

theorem test_setbios : left f1 0x400000000 (·.inBios) = some false ∧ left { f1 with inBios := false } 0x400000001 (·.inBios) = some true := by
  decide
theorem test_reserved : answer f1 0x500000000 = refusal .reservedOp ∧ answer f1 0x600000000 = refusal .reservedOp ∧
    answer f1 0x7FFFFFFFF = refusal .reservedOp := by decide

/-- The four ATTACH operations wire their owner; a second one is refused. -/
theorem test_attach :
    ((after (stateOf bare) (.host 0)).bind State.session).map (·.wired) = some { Wiring.reset with display := true } ∧
    ((after (stateOf bare) (.host 1)).bind State.session).map (·.wired) = some { Wiring.reset with timer := true } ∧
    ((after (stateOf bare) (.host 2)).bind State.session).map (·.wired) = some { Wiring.reset with irq := true } ∧
    ((after (stateOf bare) (.host 3)).bind State.session).map (·.wired) = some { Wiring.reset with kbd := true } := by decide
theorem test_attach_twice : (after (stateOf f1) (.host 1)).bind State.rsp = refusal .alreadyWired := by decide

theorem test_construct :
    (after (stateOf f1) (.construct romA 5 2)).bind State.session = some (Bus.reset cfg romA .mbc2 .kb8) := by decide

/-- Codes outside their maps: the bank-controller code is checked first, no instance exists after. -/
theorem test_construct_fatal :
    (after (stateOf f1) (.construct romA 3 3)).map (fun t => (t.session, t.fatal)) = some (none, some .unsupportedBankController) ∧
    (after (stateOf f1) (.construct romA 0 3)).map (fun t => (t.session, t.fatal)) = some (none, some .unsupportedRamSize) := by
  decide

/-- A state in the fatal state, and one with no instance. -/
def dead : State := { stateOf f1 with fatal := some .eramNotConfigured }
def unborn : State := { stateOf f1 with session := none }

theorem test_afterFatal : (after dead (.req 0x0C0000000)).bind State.rsp = refusal .afterFatal := by decide
theorem test_notConstructed : (after unborn (.req 0x0C0000000)).bind State.rsp = refusal .notConstructed := by decide

theorem test_owner_step :
    step { stateOf f1 with pending := [.owner (.cell .scanline) 0x90] } = .next (stateOf (withCell .scanline 0x90)) := by rfl

/-! ## Witnesses: for each obligation with hypotheses, data that meet them, at the ends of each clause's range -/

theorem live_of (b : Bus) : (stateOf b).live b := ⟨rfl, rfl⟩

theorem witness_DecodeReadsBackEveryInstruction :
    (Instr.rd8Rom0 0x0100).wf = true ∧ (Instr.rd8Rom0 0x0100).selectable true = true ∧
    (Instr.rd8Rom0 0x0000).wf = true ∧ (Instr.rd8Rom0 0x0000).selectable false = true ∧
    (Instr.construct romA 5 2).wf = true := by decide

/-- A pair of words for each kind of ignored bit: the data of a read and of a reserved code, the high byte of a WR8, the
address and upper data of SETBIOS. -/
theorem witness_IgnoredBitsDoNotMatter :
    (reqOp 0x0C0000000 = reqOp 0x0C000FFFF ∧ reqAddr 0x0C0000000 = reqAddr 0x0C000FFFF ∧ reqOp 0x0C0000000 = 0) ∧
    (reqOp 0x1C0000055 = reqOp 0x1C000AB55 ∧ reqAddr 0x1C0000055 = reqAddr 0x1C000AB55 ∧ reqOp 0x1C0000055 = 1 ∧
      (reqData 0x1C0000055).toNat % 256 = (reqData 0x1C000AB55).toNat % 256) ∧
    (reqOp 0x400000001 = reqOp 0x4FFFFFFFF ∧ reqOp 0x400000001 = 4 ∧
      (reqData 0x400000001).toNat % 2 = (reqData 0x4FFFFFFFF).toNat % 2) ∧
    (reqOp 0x500000000 = reqOp 0x5FFFFFFFF ∧ reqOp 0x500000000 = 5) := by
  refine ⟨⟨?_, ?_, ?_⟩, ⟨?_, ?_, ?_, ?_⟩, ⟨?_, ?_, ?_⟩, ⟨?_, ?_⟩⟩ <;> decide

theorem witness_StepRunsTheDecodedInstruction :
    ((stateOf f1).requestFirst (.req 0x0C0000000)).pending = .port (.req 0x0C0000000) :: [] ∧
    decode ((stateOf f1).requestFirst (.req 0x0C0000000)).overlay (.req 0x0C0000000) = .ok (.rd8Wram 0xC000) := by decide

theorem witness_StepStopsOnlyAtAMalformedImage :
    ((stateOf f1).requestFirst (.construct { len := 0, bytes := [(0, 1)] } 0 0)).pending =
      .port (.construct { len := 0, bytes := [(0, 1)] } 0 0) :: [] ∧ Image.wf { len := 0, bytes := [(0, 1)] } = false := by
  decide

theorem witness_OwnerStepChangesOneByte :
    ownersLegal f1.own = true ∧
    (∃ s : State, s.pending = .owner (.vram 8191) 1 :: [] ∧ s.session = some f1) ∧
    ∃ s : State, s.pending = .owner (.oam 159) 1 :: [] ∧ s.session = some f1 ∧ s.fatal = some .eramNotConfigured :=
  ⟨by decide, ⟨{ stateOf f1 with pending := [.owner (.vram 8191) 1] }, rfl, rfl⟩,
    ⟨{ dead with pending := [.owner (.oam 159) 1] }, rfl, rfl, rfl⟩⟩

theorem witness_IdleStepChangesNothing :
    (stateOf f1).pending = [] ∧
    ({ unborn with pending := [.owner (.cell .scanline) 1] } : State).pending = .owner (.cell .scanline) 1 :: [] ∧
    ({ unborn with pending := [.owner (.cell .scanline) 1] } : State).session = none := by decide

theorem witness_AfterFatalEveryRequestIsRefused :
    dead.fatal = some .eramNotConfigured ∧ (Instr.setbios true).isConstruct = false := by decide

theorem witness_BeforeConstructEveryRequestIsRefused :
    unborn.fatal = none ∧ unborn.session = none ∧ Instr.attachTimer.isConstruct = false := by decide

/-- One for each way out: a refused request, a CONSTRUCT. -/
theorem witness_FatalStateLeftOnlyByConstruct :
    dead.fatal = some .eramNotConfigured ∧ (∃ t, exec .rd8IoFF00 dead = .next t) ∧ ∃ t, exec (.construct romA 0 0) dead = .next t :=
  ⟨rfl, ⟨_, rfl⟩, ⟨_, rfl⟩⟩

/-- One for each way in: construction, a read, a write, the high byte of a word, a copy. -/
theorem witness_OnlyTheFourFatalConditions :
    (∃ t, exec (.construct romA 3 0) (stateOf f1) = .next t ∧ t.fatal = some .unsupportedBankController) ∧
    (∃ t, exec (.rd8Eram 0xA000) (stateOf f1) = .next t ∧ t.fatal = some .eramNotConfigured) ∧
    (∃ t, exec (.wr8Eram 0xBFFF 1) (stateOf f1) = .next t ∧ t.fatal = some .eramNotConfigured) ∧
    (∃ t, exec (.rd16 0x9FFF) (stateOf f1) = .next t ∧ t.fatal = some .eramNotConfigured) ∧
    ∃ t, exec (.wr8IoFF46 0xBF) (stateOf f1) = .next t ∧ t.fatal = some .eramNotConfigured :=
  ⟨⟨_, rfl, rfl⟩, ⟨_, rfl, rfl⟩, ⟨_, rfl, rfl⟩, ⟨_, rfl, rfl⟩, ⟨_, rfl, rfl⟩⟩

theorem witness_ReservedOpsAreRefused : (stateOf f1).live f1 := live_of f1

theorem witness_OverlayReads : (stateOf f1).live f1 ∧ (0x00FF : Addr).toNat ≤ 0x00FF ∧ f1.inBios = true :=
  ⟨live_of f1, by decide⟩

theorem witness_CartridgeReads : (stateOf f1).live f1 ∧
    ((0x0100 : Addr).toNat ≤ 0x3FFF ∧ 0x0100 ≤ (0x0100 : Addr).toNat) ∧ (0x3FFF : Addr).toNat ≤ 0x3FFF ∧
    (0x4000 ≤ (0x4000 : Addr).toNat ∧ (0x7FFF : Addr).toNat ≤ 0x7FFF) ∧
    f1.bc.romBankOffset.toNat + ((0x7FFF : Addr).toNat - 0x4000) < f1.rom.len := ⟨live_of f1, by decide⟩

theorem witness_WorkingRamAndZeroPageReads : (stateOf f1).live f1 ∧
    (0xC000 ≤ (0xC000 : Addr).toNat ∧ (0xDFFF : Addr).toNat ≤ 0xDFFF) ∧
    (0xE000 ≤ (0xE000 : Addr).toNat ∧ (0xFDFF : Addr).toNat ≤ 0xFDFF) ∧
    (0xFF80 ≤ (0xFF80 : Addr).toNat ∧ (0xFFFE : Addr).toNat ≤ 0xFFFE) := ⟨live_of f1, by decide⟩

/-- Wired and unwired. -/
theorem witness_DisplayBufferReads : (stateOf f1).live f1 ∧ f1.wired.display = true ∧ (stateOf bare).live bare ∧
    bare.wired.display = false ∧ (0x8000 ≤ (0x8000 : Addr).toNat ∧ (0x9FFF : Addr).toNat ≤ 0x9FFF) ∧
    (0xFE00 ≤ (0xFE00 : Addr).toNat ∧ (0xFE9F : Addr).toNat ≤ 0xFE9F) := ⟨live_of f1, rfl, live_of bare, rfl, by decide⟩

/-- No RAM, the first index beyond it, the last one in it. -/
theorem witness_ExternalRamReads : (stateOf f1).live f1 ∧ f1.ramSize.bytes = 0 ∧ (stateOf f3).live f3 ∧
    f3.ramSize.bytes ≤ f3.bc.ramBankOffset.toNat + ((0xA800 : Addr).toNat - 0xA000) ∧
    f3.bc.ramBankOffset.toNat + ((0xA7FF : Addr).toNat - 0xA000) < f3.ramSize.bytes ∧
    (0xA000 ≤ (0xA000 : Addr).toNat ∧ (0xBFFF : Addr).toNat ≤ 0xBFFF) := ⟨live_of f1, rfl, live_of f3, by decide⟩

theorem witness_UnmappedAreaIsInert : (stateOf bare).live bare ∧
    (0xFEA0 ≤ (0xFEA0 : Addr).toNat ∧ (0xFEBF : Addr).toNat ≤ 0xFEBF) ∧
    (0xFEC0 ≤ (0xFEC0 : Addr).toNat ∧ (0xFEFF : Addr).toNat ≤ 0xFEFF) := ⟨live_of bare, by decide⟩

theorem witness_UnimplementedRegisters : (stateOf bare).live bare ∧ Addr.isUnimplemented 0xFF01 = true ∧
    Addr.isUnimplemented 0xFF7F = true := ⟨live_of bare, by decide⟩

/-- Wired and unwired, for each owner: also for the write statements. -/
theorem witness_KeyboardTimerInterruptReads : (stateOf f1).live f1 ∧ f1.wired.kbd = true ∧ f1.wired.timer = true ∧
    f1.wired.irq = true ∧ (stateOf bare).live bare ∧ bare.wired.kbd = false ∧ bare.wired.timer = false ∧
    bare.wired.irq = false := ⟨live_of f1, rfl, rfl, rfl, live_of bare, rfl, rfl, rfl⟩

theorem witness_DisplayRegisterReads : (stateOf f1).live f1 ∧ f1.wired.display = true ∧ (stateOf bare).live bare ∧
    bare.wired.display = false := ⟨live_of f1, rfl, live_of bare, rfl⟩

theorem witness_TriggerAndLatchReads : (stateOf bare).live bare := live_of bare

theorem witness_WorkingRamWrites : (stateOf f1).live f1 ∧ f1.wram.wf = true ∧
    (0xC000 ≤ (0xC000 : Addr).toNat ∧ (0xDDFF : Addr).toNat ≤ 0xDDFF ∧ (0xDFFF : Addr).toNat ≤ 0xDFFF) ∧
    (0xE000 ≤ (0xE000 : Addr).toNat ∧ (0xFDFF : Addr).toNat ≤ 0xFDFF) := ⟨live_of f1, by decide⟩

theorem witness_ZeroPageWrites : (stateOf f1).live f1 ∧ f1.zp.wf = true ∧ 0xFF80 ≤ (0xFF80 : Addr).toNat ∧
    (0xFFFE : Addr).toNat ≤ 0xFFFE := ⟨live_of f1, by decide⟩

theorem witness_DisplayBufferWrites : (stateOf f1).live f1 ∧ ownersLegal f1.own = true ∧ f1.wired.display = true ∧
    (stateOf bare).live bare ∧ ownersLegal bare.own = true ∧ bare.wired.display = false ∧
    (0x8000 ≤ (0x8000 : Addr).toNat ∧ (0x9FFF : Addr).toNat ≤ 0x9FFF) ∧
    (0xFE00 ≤ (0xFE00 : Addr).toNat ∧ (0xFE9F : Addr).toNat ≤ 0xFE9F) :=
  ⟨live_of f1, by decide, rfl, live_of bare, by decide, rfl, by decide⟩

/-- Banked and disabled; RomOnly without RAM; RomOnly with RAM; banked, enabled and beyond the end. -/
theorem witness_ExternalRamWrites :
    ((stateOf f3).live f3 ∧ f3.eram.wf = true ∧ f3.bc.mode ≠ .romOnly ∧ f3.bc.ramEnabled = false) ∧
    ((stateOf f1).live f1 ∧ f1.eram.wf = true ∧ f1.bc.mode = .romOnly ∧ f1.ramSize.bytes = 0) ∧
    ((stateOf f4).live f4 ∧ f4.eram.wf = true ∧ f4.bc.mode = .romOnly ∧
      f4.bc.ramBankOffset.toNat + ((0xBFFF : Addr).toNat - 0xA000) < f4.ramSize.bytes) ∧
    (f3.ramSize.bytes ≠ 0 ∧ f3.ramSize.bytes ≤ f3.bc.ramBankOffset.toNat + ((0xA800 : Addr).toNat - 0xA000)) :=
  ⟨⟨live_of f3, by decide⟩, ⟨live_of f1, by decide⟩, ⟨live_of f4, by decide⟩, by decide⟩

theorem witness_KeyboardTimerInterruptWrites : (stateOf f1).live f1 ∧ f1.wired.kbd = true ∧ f1.wired.timer = true ∧
    f1.wired.irq = true ∧ (stateOf bare).live bare ∧ bare.wired.kbd = false ∧ bare.wired.timer = false ∧
    bare.wired.irq = false := witness_KeyboardTimerInterruptReads

theorem witness_DividerControlScanlineWrites : (stateOf f1).live f1 ∧ f1.wired.timer = true ∧ (stateOf bare).live bare ∧
    bare.wired.timer = false := ⟨live_of f1, rfl, live_of bare, rfl⟩

theorem witness_DisplayRegisterWrites : (stateOf f1).live f1 ∧ f1.wired.display = true ∧ (stateOf bare).live bare ∧
    bare.wired.display = false := witness_DisplayRegisterReads

theorem witness_OverlayLatchWrite : (stateOf f1).live f1 ∧ (0x00FF : Addr).toNat ≤ 0x00FF ∧
    (0x00FF : Addr).toNat < f1.rom.len := ⟨live_of f1, by decide⟩

/-- A banked mode, at both ends of each command's range. -/
theorem witness_RamEnableCommand : (stateOf f2).live f2 ∧ 0x1000 ≤ (0x1000 : Addr).toNat ∧ (0x1FFF : Addr).toNat ≤ 0x1FFF ∧
    f2.bc.mode ≠ .romOnly := ⟨live_of f2, by decide⟩

theorem witness_RomBankSelectCommand : (stateOf f2).live f2 ∧ 0x2000 ≤ (0x2000 : Addr).toNat ∧
    (0x3FFF : Addr).toNat ≤ 0x3FFF ∧ f2.bc.mode ≠ .romOnly := ⟨live_of f2, by decide⟩

theorem witness_UpperRomBitsCommand : (stateOf f2).live f2 ∧ 0x4000 ≤ (0x4000 : Addr).toNat ∧
    (0x5FFF : Addr).toNat ≤ 0x5FFF ∧ f2.bc.mode ≠ .romOnly ∧ f2.bc.bankingMode = .romBanking := ⟨live_of f2, by decide⟩

/-- F2 in RamBanking. -/
def f2ram : Bus := { f2 with bc := { f2.bc with bankingMode := .ramBanking } }

theorem witness_RamBankCommand : (stateOf f2ram).live f2ram ∧ 0x4000 ≤ (0x4000 : Addr).toNat ∧
    (0x5FFF : Addr).toNat ≤ 0x5FFF ∧ f2ram.bc.mode ≠ .romOnly ∧ f2ram.bc.bankingMode = .ramBanking ∧
    (0xA000 ≤ (0xA000 : Addr).toNat ∧ (0xBFFF : Addr).toNat ≤ 0xBFFF ∧ (0x03 : Byte).toNat % 4 ≠ 0) ∧
    Bank.ramEnabled { f2ram.bc with ramEnabled := true } = true ∧
    Bank.bankingMode { f2ram.bc with ramEnabled := true } = .ramBanking := ⟨live_of f2ram, by decide⟩

theorem witness_BankingModeCommand : (stateOf f2).live f2 ∧ 0x6000 ≤ (0x6000 : Addr).toNat ∧
    (0x7FFF : Addr).toNat ≤ 0x7FFF ∧ f2.bc.mode ≠ .romOnly := ⟨live_of f2, by decide⟩

theorem witness_CommandsWithoutEffect : (stateOf f1).live f1 ∧ f1.bc.mode = .romOnly ∧ (0x0FFF : Addr).toNat ≤ 0x0FFF ∧
    (0x1000 ≤ (0x1000 : Addr).toNat ∧ (0x1FFF : Addr).toNat ≤ 0x1FFF) ∧
    (0x2000 ≤ (0x2000 : Addr).toNat ∧ (0x3FFF : Addr).toNat ≤ 0x3FFF) ∧
    (0x4000 ≤ (0x4000 : Addr).toNat ∧ (0x5FFF : Addr).toNat ≤ 0x5FFF) ∧
    (0x6000 ≤ (0x6000 : Addr).toNat ∧ (0x7FFF : Addr).toNat ≤ 0x7FFF) := ⟨live_of f1, by decide⟩

theorem witness_ByteRowsAreTheDecodeList :
    decode (stateOf f1).overlay (rd8Word 0x00FF) = .ok (.rd8Bios 0x00FF) ∧
    decode (stateOf f1).overlay (wr8Word 0xFF46 1) = .ok (.wr8IoFF46 1) := by decide

theorem witness_EchoNamesTheSameByte : (stateOf f1).live f1 ∧ 0xC000 ≤ (0xC000 : Addr).toNat ∧
    (0xDDFF : Addr).toNat ≤ 0xDDFF ∧ (0xDE00 ≤ (0xDE00 : Addr).toNat ∧ (0xDFFF : Addr).toNat ≤ 0xDFFF) :=
  ⟨live_of f1, by decide⟩

/-- One place of each kind of plain storage. -/
theorem witness_StoreIsSeenExactlyAtItsPlace :
    (stateOf f4).live f4 ∧ busLegal cfg f4 = true ∧
    ∀ p ∈ [(Instr.wr8Vram 0x8000 1, (0x8000 : Addr)), (.wr8Vram 0x9FFF 1, 0x9FFF), (.wr8Eram 0xA000 1, 0xA000),
        (.wr8Eram 0xBFFF 1, 0xBFFF), (.wr8Wram 0xC000 1, 0xC000), (.wr8Wram 0xDFFF 1, 0xDFFF), (.wr8Echo 0xE000 1, 0xE000),
        (.wr8Echo 0xFDFF 1, 0xFDFF), (.wr8Oam 0xFE00 1, 0xFE00), (.wr8Oam 0xFE9F 1, 0xFE9F), (.wr8Zp 0xFF80 1, 0xFF80),
        (.wr8Zp 0xFFFE 1, 0xFFFE)],
      plainStorage f4 p.2 = true ∧ p.1.wf = true ∧ encode p.1 = wr8Word p.2 1 :=
  ⟨live_of f4, by decide, by decide⟩

/-- Both bytes read; the second stopped; the first stopped; the top. -/
theorem witness_WordReads : (stateOf f1).live f1 ∧ (0xFFFE : Addr) ≠ 0xFFFF ∧
    read8 f1 0x00FF = .ok (0x5A, []) ∧ read8 f1 (0x00FF + 1) = .ok (0x01, []) ∧
    read8 f1 0x9FFF = .ok (0, []) ∧ read8 f1 (0x9FFF + 1) = .error (.fatal .eramNotConfigured) ∧
    read8 f1 0xA000 = .error (.fatal .eramNotConfigured) := ⟨live_of f1, by decide, rfl, rfl, rfl, rfl, rfl⟩

theorem witness_WordWrites : (stateOf f1).live f1 ∧ (0x1234 : Word).toNat = (0x12 : Byte).toNat * 256 + (0x34 : Byte).toNat ∧
    (write8 cfg f1 0x9FFF 0x34).ending = .ok ∧
    (write8 cfg (write8 cfg f1 0x9FFF 0x34).bus (0x9FFF + 1) 0x12).ending = Stop.ending (.fatal .eramNotConfigured) ∧
    (write8 cfg f1 0xBFFF 0x34).ending = Stop.ending (.fatal .eramNotConfigured) ∧
    (write8 cfg (write8 cfg f1 0xC000 0x34).bus (0xC000 + 1) 0x12).ending = .ok :=
  ⟨live_of f1, by decide, rfl, rfl, rfl, rfl⟩

/-- Within a window, and across the boundary of W6 and W7. -/
theorem witness_WordRoundTripIsLittleEndian : (stateOf f4).live f4 ∧ busLegal cfg f4 = true ∧ (0xDFFF : Addr) ≠ 0xFFFF ∧
    plainStorage f4 0xDFFF = true ∧ plainStorage f4 (0xDFFF + 1) = true ∧ plainStorage f4 0x9FFF = true ∧
    plainStorage f4 (0x9FFF + 1) = true ∧ plainStorage f4 0xFF80 = true ∧ plainStorage f4 (0xFF80 + 1) = true :=
  ⟨live_of f4, by decide⟩

set_option maxRecDepth 8000 in
/-- The page of working RAM, all of it zero. -/
theorem witness_DmaCopiesThePage : (stateOf f1).live f1 ∧ f1.wired.display = true ∧ f1.own.lcd.oam.fits 160 = true ∧
    ∀ i, i < 160 → read8 f1 (BitVec.ofNat 16 ((0xC0 : Byte).toNat * 256 + i)) = .ok (0, []) :=
  ⟨live_of f1, by decide, by decide, by
    intro i hi
    have ht : (BitVec.ofNat 16 ((0xC0 : Byte).toNat * 256 + i)).toNat = 0xC000 + i := by
      rw [BitVec.toNat_ofNat, show (0xC0 : Byte).toNat = 0xC0 from rfl]; omega
    have hw : windowOf (BitVec.ofNat 16 ((0xC0 : Byte).toNat * 256 + i)) = .wram := by
      unfold windowOf; repeat (first | rw [if_neg (by omega)] | rw [if_pos (by omega)])
    unfold read8; rw [hw]; rfl⟩

/-- F1 with an image of 258 bytes, all zero: the copy of page 0x01 meets its end at byte 2. -/
def f1short : Bus := { f1 with rom := { len := 0x102, bytes := [] } }

/-- The page 0xA0 without RAM: the first byte is not readable. The page 0x01 of a short image: byte 2 is not. -/
theorem witness_DmaStopsAtTheFirstUnreadableByte :
    ((stateOf f1).live f1 ∧ f1.wired.display = true ∧ f1.own.lcd.oam.fits 160 = true ∧ 0 < 160 ∧
      (∀ i, i < 0 → read8 f1 (BitVec.ofNat 16 ((0xA0 : Byte).toNat * 256 + i)) = .ok (0, [])) ∧
      read8 f1 (BitVec.ofNat 16 ((0xA0 : Byte).toNat * 256 + 0)) = .error (.fatal .eramNotConfigured)) ∧
    ((stateOf f1short).live f1short ∧ f1short.wired.display = true ∧ f1short.own.lcd.oam.fits 160 = true ∧ 2 < 160 ∧
      (∀ i, i < 2 → read8 f1short (BitVec.ofNat 16 ((0x01 : Byte).toNat * 256 + i)) = .ok (0, [])) ∧
      read8 f1short (BitVec.ofNat 16 ((0x01 : Byte).toNat * 256 + 2)) = .error (.refuse .romIndexOutOfRange)) :=
  ⟨⟨live_of f1, rfl, rfl, by decide, fun i h => absurd h (Nat.not_lt_zero i), rfl⟩,
    ⟨live_of f1short, rfl, rfl, by decide, fun i h => by
      rcases (by omega : i = 0 ∨ i = 1) with rfl | rfl <;> rfl, rfl⟩⟩

set_option maxRecDepth 8000 in
/-- The copy of page 0xA0 without RAM, whose script ends at its first request, and one that completes. -/
theorem witness_DmaEqualsExplicitAccesses : (stateOf f1).live f1 ∧
    (∃ t r u log, (stateOf f1).request (wr8Word 0xFF46 0xA0) = t ∧ t.rsp = some r ∧
      copyScript 0xA0 160 0 (stateOf f1) [] = (u, log) ∧ r.outcome = .fatal .eramNotConfigured) ∧
    ∃ t r u log, (stateOf f1).request (wr8Word 0xFF46 0xC0) = t ∧ t.rsp = some r ∧
      copyScript 0xC0 160 0 (stateOf f1) [] = (u, log) ∧ r.outcome = .ok :=
  ⟨live_of f1, ⟨_, _, _, _, rfl, rfl, rfl, rfl⟩, ⟨_, _, _, _, rfl, rfl, rfl, rfl⟩⟩

theorem witness_DmaSelfCopyChangesNothing : (stateOf f1).live f1 ∧ f1.wired.display = true ∧ f1.own.lcd.oam.fits 160 = true :=
  ⟨live_of f1, by decide⟩

theorem witness_DmaFromTheIoPage : (stateOf f1).live f1 ∧ fullyWired f1 = true ∧ f1.own.lcd.oam.fits 160 = true :=
  ⟨live_of f1, by decide⟩

theorem witness_SetbiosSetsTheLatch : (stateOf bare).live bare := live_of bare

theorem witness_AttachWiresOnce : (stateOf f1).live f1 ∧ (stateOf bare).live bare := ⟨live_of f1, live_of bare⟩

theorem witness_ConstructLeavesTheResetState : dead.cfg.mbcCodeMap.lookup 0x05 = some .mbc2 ∧
    ((2 : Byte) = 0 ∧ RamSize.kb8 = .none ∨ (2 : Byte) = 1 ∧ RamSize.kb8 = .kb2 ∨ (2 : Byte) = 2 ∧ RamSize.kb8 = .kb8) := by decide

theorem witness_ConstructFatalConditions : dead.cfg.mbcCodeMap.lookup 0x03 = none ∧
    dead.cfg.mbcCodeMap.lookup 0x00 ≠ none ∧ 3 ≤ (3 : Byte).toNat ∧ 3 ≤ (0xFF : Byte).toNat := by decide

theorem witness_EveryStepKeepsTheStateLegal : (stateOf f4).legal = true ∧ (∃ t, step (stateOf f4) = .next t) ∧
    ((stateOf f4).requestFirst (.req 0x1BFFF0034)).legal = true ∧ ∃ t, step ((stateOf f4).requestFirst (.req 0x1BFFF0034)) = .next t :=
  ⟨by decide, ⟨_, rfl⟩, by decide, ⟨_, rfl⟩⟩

/-- Both ends of each window, an index of external RAM that is checked and found in range, the last byte of a copy. -/
theorem witness_IndexesStayInRange : (stateOf f2).legal = true ∧ (stateOf f2).session = some f2 ∧
    (0x4000 ≤ (0x4000 : Addr).toNat ∧ (0x7FFF : Addr).toNat ≤ 0x7FFF) ∧
    (0xA000 ≤ (0xA000 : Addr).toNat ∧ (0xBFFF : Addr).toNat ≤ 0xBFFF ∧ (stateOf f4).legal = true ∧
      eramIndex f4 0xBFFF = .ok 0x1FFF) ∧
    (0x8000 ≤ (0x8000 : Addr).toNat ∧ (0x9FFF : Addr).toNat ≤ 0x9FFF) ∧
    (0xC000 ≤ (0xC000 : Addr).toNat ∧ (0xDFFF : Addr).toNat ≤ 0xDFFF) ∧
    (0xE000 ≤ (0xE000 : Addr).toNat ∧ (0xFDFF : Addr).toNat ≤ 0xFDFF) ∧
    (0xFE00 ≤ (0xFE00 : Addr).toNat ∧ (0xFE9F : Addr).toNat ≤ 0xFE9F) ∧
    (0xFF80 ≤ (0xFF80 : Addr).toNat ∧ (0xFFFE : Addr).toNat ≤ 0xFFFE) ∧ (0xFFFE : Addr) ≠ 0xFFFF ∧ 159 < 160 := by decide

theorem witness_ResponsesHaveTheirShape : (Instr.rd16 0x00FF).wf = true ∧
    ∃ t r, exec (.rd16 0x00FF) (stateOf f1) = .next t ∧ t.rsp = some r := ⟨rfl, _, _, rfl, rfl⟩

theorem witness_ReadsChangeNoState : (Instr.rd8Eram 0xA000).wf = true ∧ (Instr.rd8Eram 0xA000).isRead = true ∧
    ∃ t, exec (.rd8Eram 0xA000) (stateOf f1) = .next t := ⟨by decide, by decide, _, rfl⟩

/-- A word whose two bytes are bank commands, a copy, the setter from false to true, an ATTACH. -/
theorem witness_OwnedStateChangesOnlyByItsWrites :
    ((Instr.wr16 0x3FFF 0x1005).wf = true ∧ (Instr.wr16 0x3FFF 0x1005).isConstruct = false ∧ (stateOf f2).session = some f2 ∧
      ∃ t b', exec (.wr16 0x3FFF 0x1005) (stateOf f2) = .next t ∧ t.session = some b' ∧ b'.bc ≠ f2.bc) ∧
    ((0xFF46 ∈ (Instr.wr8IoFF46 0xA0).writesAt) ∧ ∃ t b', exec (.wr8IoFF46 0xA0) (stateOf f1) = .next t ∧ t.session = some b') ∧
    ((0xFF46 ∈ (Instr.wr16 0xFF45 0xA012).writesAt) ∧ ∃ t b', exec (.wr16 0xFF45 0xA012) (stateOf f1) = .next t ∧
      t.session = some b' ∧ b'.own.lcd.scanlineCompare ≠ f1.own.lcd.scanlineCompare) ∧
    (∃ t b', exec (.setbios true) (stateOf { f1 with inBios := false }) = .next t ∧ t.session = some b' ∧ b'.inBios = true) ∧
    ∃ t b', exec .attachKbd (stateOf bare) = .next t ∧ t.session = some b' ∧ b'.wired ≠ bare.wired :=
  ⟨⟨rfl, rfl, rfl, _, _, rfl, rfl, by decide⟩, ⟨by decide, _, _, rfl, rfl⟩,
    ⟨by decide, _, _, rfl, rfl, by decide⟩, ⟨_, _, rfl, rfl, rfl⟩, ⟨_, _, rfl, rfl, by decide⟩⟩

set_option maxRecDepth 8000 in
/-- Each kind of transaction, completing: a read, a plain write, a copy, the two words, a word that starts a copy. -/
theorem witness_ByteAccessCounts : (stateOf f1).live f1 ∧
    (Instr.rd8IoFF00.wf = true ∧ Instr.rd8IoFF00.readAt = some 0xFF00 ∧ (Reads.one (read8 f1 0xFF00)).ending = .ok) ∧
    ((Instr.wr8Wram 0xC000 1).wf = true ∧ encode (.wr8Wram 0xC000 1) = wr8Word 0xC000 1 ∧
      (write8 cfg f1 0xC000 1).ending = .ok) ∧
    ((Instr.wr8IoFF46 0xC0).wf = true ∧ encode (.wr8IoFF46 0xC0) = wr8Word 0xFF46 0xC0 ∧
      (write8 cfg f1 0xFF46 0xC0).ending = .ok) ∧
    ((Instr.rd16 0x00FF).wf = true ∧ (0x00FF : Addr) ≠ 0xFFFF ∧ (readWord f1 0x00FF).ending = .ok) ∧
    ((Instr.wr16 0xFF45 0xC012).wf = true ∧ (0xFF45 : Addr) ≠ 0xFFFF ∧ (writeWord cfg f1 0xFF45 0xC012).ending = .ok) ∧
    ((Instr.wr16 0xC000 0x1234).wf = true ∧ (0xC000 : Addr) ≠ 0xFFFF ∧ (writeWord cfg f1 0xC000 0x1234).ending = .ok) ∧
    (Instr.setbios true).wf = true := ⟨live_of f1, by decide⟩

end Sys2Proof.Tests
end

section
/-! PROOFS. Working RAM and its echo (spec/20_memory.md R77): the address 0x2000 higher selects the same index, so a
read and a write through either window are the same; and which addresses name a byte of working RAM at all. -/

namespace Sys2Proof.Machine

theorem toNat_add_echo {a : Addr} (h : a.toNat ≤ 0xDFFF) : (a + 0x2000).toNat = a.toNat + 0x2000 := by
  rw [BitVec.toNat_add]
  show (a.toNat + 0x2000) % 65536 = _
  omega

/-- The two windows assemble the same index (R135). -/
theorem echoIndex_add_echo {a : Addr} (h : a.toNat ≤ 0xDFFF) : echoIndex (a + 0x2000) = wramIndex a := by
  have := toNat_add_echo h
  unfold echoIndex wramIndex
  omega

theorem readEcho_add_echo (b : Bus) {a : Addr} (h : a.toNat ≤ 0xDFFF) : readEcho b (a + 0x2000) = readWram b a := by
  rw [readEcho, echoIndex_add_echo h, readWram]

theorem writeEcho_add_echo (b : Bus) {a : Addr} (v : Byte) (h : a.toNat ≤ 0xDFFF) :
    writeEcho b (a + 0x2000) v = writeWram b a v := by
  rw [writeEcho, echoIndex_add_echo h, writeWram]

theorem exec_rd8Echo_add_echo (s : State) {a : Addr} (h : a.toNat ≤ 0xDFFF) :
    exec (.rd8Echo (a + 0x2000)) s = exec (.rd8Wram a) s := by
  simp only [exec, execRd8Echo, execRd8Wram, readEcho_add_echo _ h]

theorem exec_wr8Echo_add_echo (s : State) {a : Addr} (v : Byte) (h : a.toNat ≤ 0xDFFF) :
    exec (.wr8Echo (a + 0x2000) v) s = exec (.wr8Wram a v) s := by
  simp only [exec, execWr8Echo, execWr8Wram, writeEcho_add_echo _ v h]

theorem ioPlace_ne_wram (x : Addr) (j : Nat) : ioPlace x ≠ some (.wram j) := by
  rcases ioPlace_cases x with e | e | ⟨c, e⟩ <;> simp [e]

/-- Only the windows W6 and W7 name working RAM (R70). -/
theorem placeOf_wram_range {b : Bus} {x : Addr} {j : Nat} (h : placeOf b x = some (.wram j)) :
    0xC000 ≤ x.toNat ∧ x.toNat ≤ 0xFDFF := by
  obtain ⟨k, w, hk⟩ := windowOf_cases x
  cases k
  case wram => exact ⟨hk.1, Nat.le_trans hk.2 (by decide)⟩
  case echo => exact ⟨Nat.le_trans (by decide) hk.1, hk.2⟩
  case rom0 => obtain ⟨i, e | e⟩ := placeOf_rom0 b w <;> exact nomatch e.symm.trans h
  case romx => exact nomatch (placeOf_romx b w).symm.trans h
  case vram => exact nomatch (placeOf_vram b w).symm.trans h
  case eram => exact nomatch (placeOf_eram b w).symm.trans h
  case oam => exact nomatch (placeOf_oam b w).symm.trans h
  case unmapped => exact nomatch (placeOf_unmapped b w).symm.trans h
  case zp => exact nomatch (placeOf_zp b w).symm.trans h
  case io => exact absurd ((place_io b x (.inl w)).symm.trans h) (ioPlace_ne_wram x j)
  case ie => exact absurd ((place_io b x (.inr w)).symm.trans h) (ioPlace_ne_wram x j)

/-- The echo names the byte of working RAM that the address 0x2000 lower names (R70). -/
theorem placeOf_add_echo (b : Bus) {a : Addr} (lo : 0xC000 ≤ a.toNat) (hi : a.toNat ≤ 0xDDFF) :
    placeOf b (a + 0x2000) = some (.wram (wramIndex a)) := by
  have top : a.toNat ≤ 0xDFFF := Nat.le_trans hi (by decide)
  have shift := toNat_add_echo top
  rw [placeOf_echo b (windowOf_echo (by omega) (by omega)), echoIndex_add_echo top]

/-- Settles O39: up to 0xDDFF both addresses assemble one index; from 0xDE00 the address 0x2000 higher lies past the
echo, in no window of working RAM. -/
theorem echoNamesTheSameByte : Obligations.EchoNamesTheSameByte := by
  intro s b a v _ lo
  refine ⟨fun hi => ?_, fun _ hi j he => ?_⟩
  · have top : a.toNat ≤ 0xDFFF := Nat.le_trans hi (by decide)
    have base := placeOf_wram b (windowOf_wram lo top)
    have shifted := placeOf_add_echo b lo hi
    unfold wramIndex at base shifted
    exact ⟨base, shifted, (exec_rd8Echo_add_echo s top).symm, (exec_wr8Echo_add_echo s v top).symm⟩
  · have below := (placeOf_wram_range he).2
    have shift := toNat_add_echo hi
    omega

end Sys2Proof.Machine
end

section
/-! PROOFS. Byte accesses of the overlay, of working RAM through its two windows, and of the zero page
(spec/40_bus_access.md R164, R169, R170, R173, R179, R180, R183): what each row does on a live block, and that a byte
stored in working RAM is the one read next. The echo is reached through the address 0x2000 lower. -/

namespace Sys2Proof.Machine

/-! ## The rows on a live block -/

/-- A transaction that ends `ok` leaves the block live, with the instance it leaves (R160). -/
theorem State.live_writeOk {s : State} {b : Bus} (h : s.live b) (b' : Bus) (e : List Event) :
    (s.writeOk b' e).live b' :=
  ⟨h.1, rfl⟩

theorem exec_rd8Wram_live {s : State} {b : Bus} (h : s.live b) (a : Addr) :
    exec (.rd8Wram a) s = .next (s.readOk ((b.wram.read (wramIndex a)).setWidth 16) []) :=
  congrArg Host.Outcome.next (State.readTxn_ok h rfl)

theorem exec_rd8Echo_live {s : State} {b : Bus} (h : s.live b) (a : Addr) :
    exec (.rd8Echo a) s = .next (s.readOk ((b.wram.read (echoIndex a)).setWidth 16) []) :=
  congrArg Host.Outcome.next (State.readTxn_ok h rfl)

theorem exec_rd8Zp_live {s : State} {b : Bus} (h : s.live b) (a : Addr) :
    exec (.rd8Zp a) s = .next (s.readOk ((b.zp.read (zpIndex a)).setWidth 16) []) :=
  congrArg Host.Outcome.next (State.readTxn_ok h rfl)

theorem exec_wr8Wram_live {s : State} {b : Bus} (h : s.live b) (a : Addr) (v : Byte) :
    exec (.wr8Wram a v) s = .next (s.writeOk (b.withWram (b.wram.write (wramIndex a) v)) []) :=
  congrArg Host.Outcome.next ((State.writeTxn_live h _).trans (State.finish_done s _))

theorem exec_wr8Echo_live {s : State} {b : Bus} (h : s.live b) (a : Addr) (v : Byte) :
    exec (.wr8Echo a v) s = .next (s.writeOk (b.withWram (b.wram.write (echoIndex a) v)) []) :=
  congrArg Host.Outcome.next ((State.writeTxn_live h _).trans (State.finish_done s _))

theorem exec_wr8Zp_live {s : State} {b : Bus} (h : s.live b) (a : Addr) (v : Byte) :
    exec (.wr8Zp a v) s = .next (s.writeOk (b.withZp (b.zp.write (zpIndex a) v)) []) :=
  congrArg Host.Outcome.next ((State.writeTxn_live h _).trans (State.finish_done s _))

/-! ## The address 0x2000 below an address of the echo -/

theorem toNat_sub_echo_le {a : Addr} (lo : 0xE000 ≤ a.toNat) : (a - 0x2000).toNat ≤ 0xDFFF := by
  have base : (a - 0x2000).toNat = a.toNat - 0x2000 :=
    BitVec.toNat_sub_of_le (BitVec.le_def.2 (Nat.le_trans (by decide) lo))
  have := a.isLt
  omega

theorem wramIndex_sub_echo {a : Addr} (lo : 0xE000 ≤ a.toNat) : wramIndex (a - 0x2000) = echoIndex a := by
  rw [← echoIndex_add_echo (toNat_sub_echo_le lo), BitVec.sub_add_cancel]

theorem exec_rd8Wram_sub_echo (s : State) {a : Addr} (lo : 0xE000 ≤ a.toNat) :
    exec (.rd8Wram (a - 0x2000)) s = exec (.rd8Echo a) s := by
  rw [← exec_rd8Echo_add_echo s (toNat_sub_echo_le lo), BitVec.sub_add_cancel]

/-! ## A stored byte of working RAM is read back -/

/-- The byte stored at index `i` is what an address of that index reads in the state the store leaves (R179). -/
theorem exec_rd8Wram_after_store {s : State} {b : Bus} (h : s.live b) (hm : b.wram.wf = true) {a : Addr} {i : Nat}
    (hi : wramIndex a = i) (v : Byte) :
    exec (.rd8Wram a) (s.writeOk (b.withWram (b.wram.write i v)) []) =
      .next ((s.writeOk (b.withWram (b.wram.write i v)) []).readOk (v.setWidth 16) []) := by
  rw [exec_rd8Wram_live (State.live_writeOk h _ _), Bus.withWram_wram, hi, Memory.read_write_same hm]

/-! ## The statements -/

/-- Settles O14: under the latch the low read takes its overlay branch, whatever the image holds. -/
theorem overlayReads : Obligations.OverlayReads := by
  intro s b a live low latch
  have overlay : readLow b a = .ok (b.bios.read a.toNat, []) := if_pos ⟨low, latch⟩
  exact congrArg Host.Outcome.next (State.readTxn_ok live overlay)

/-- Settles O16: each row reads its buffer at its own index; the echo's index is that of the address 0x2000 lower. -/
theorem workingRamAndZeroPageReads : Obligations.WorkingRamAndZeroPageReads := by
  intro s b a live
  exact ⟨fun _ _ => exec_rd8Wram_live live a,
    fun lo _ => ⟨exec_rd8Echo_live live a, exec_rd8Wram_sub_echo s lo⟩,
    fun _ _ => exec_rd8Zp_live live a⟩

/-- Settles O24: both windows store at one index of working RAM, and both read it through the lower address. -/
theorem workingRamWrites : Obligations.WorkingRamWrites := by
  intro s b a v live canonical
  refine ⟨fun _ hi => ?_, fun lo _ => ?_⟩
  · have seen := exec_rd8Wram_after_store live canonical (a := a) rfl v
    exact ⟨_, b.wram.write (wramIndex a) v, exec_wr8Wram_live live a v, rfl,
      Memory.read_write_same canonical _ v, fun _ => Memory.read_write_other _ _ v,
      seen, fun _ => (exec_rd8Echo_add_echo _ hi).trans seen⟩
  · have seen := exec_rd8Wram_after_store live canonical (wramIndex_sub_echo lo) v
    exact ⟨_, b.wram.write (echoIndex a) v, exec_wr8Echo_live live a v, rfl,
      Memory.read_write_same canonical _ v, fun _ => Memory.read_write_other _ _ v,
      (exec_rd8Wram_sub_echo _ lo).symm.trans seen, seen⟩

/-- Settles O25: the row stores at one index of the zero page and replaces nothing else of the instance. -/
theorem zeroPageWrites : Obligations.ZeroPageWrites := by
  intro s b a v live canonical _ _
  exact ⟨b.zp.write (zpIndex a) v, exec_wr8Zp_live live a v,
    Memory.read_write_same canonical _ v, fun _ => Memory.read_write_other _ _ v⟩

end Sys2Proof.Machine
end

section
/-! PROOFS. Bank Controller commands in the banked modes (spec/41_bank_controller.md R203, R206): on a live block each
ends `ok` and replaces one bank register of the instance. -/

namespace Sys2Proof.Machine

/-! ## The registers the commands store -/

theorem mask4 (n : Nat) : n &&& 15 = n % 16 := Nat.and_two_pow_sub_one_eq_mod n 4

/-- The enable RAMEN stores (R203). -/
theorem ramEnableOf_eq (v : Byte) : ramEnableOf v = decide (v.toNat % 16 = 0xA) := by
  have low : (v &&& 0x0F).toNat = v.toNat % 16 := by simp [mask4]
  rw [ramEnableOf, beq_eq_decide]
  exact decide_eq_decide.2 (by rw [← BitVec.toNat_inj, low]; rfl)

theorem bankRamEnable_eq (b : Bus) (v : Byte) :
    bankRamEnable b v = b.withBc { b.bc with ramEnabled := decide (v.toNat % 16 = 0xA) } := by
  rw [bankRamEnable, ramEnableOf_eq]

/-- HISEL in RomBanking replaces the ROM offset (R206). -/
theorem bankHighSelect_romBanking {b : Bus} (h : b.bc.bankingMode = .romBanking) (v : Byte) :
    bankHighSelect b v =
      b.withBc { b.bc with romBankOffset := romOffsetOf (hiSelRomBank b.bc.romBankOffset v) } := by
  rw [bankHighSelect, h]

/-! ## The rows on a live block in a banked mode -/

/-- A command in a banked mode ends `ok` with the instance it makes (R200). -/
theorem State.writeTxn_bankCommand {s : State} {b : Bus} (h : s.live b) (banked : b.bc.mode ≠ .romOnly)
    (command : Bus → Bus) :
    (s.writeTxn fun x => bankCommand x (.done (command x))) = s.writeOk (command b) [] := by
  rw [State.writeTxn_live h, bankCommand_banked banked, State.finish_done]

theorem exec_bcRamen_banked {s : State} {b : Bus} (h : s.live b) (banked : b.bc.mode ≠ .romOnly) (a : Addr) (v : Byte) :
    exec (.bcRamen a v) s = .next (s.writeOk (bankRamEnable b v) []) :=
  congrArg Host.Outcome.next (State.writeTxn_bankCommand h banked fun x => bankRamEnable x v)

theorem exec_bcHisel_banked {s : State} {b : Bus} (h : s.live b) (banked : b.bc.mode ≠ .romOnly) (a : Addr) (v : Byte) :
    exec (.bcHisel a v) s = .next (s.writeOk (bankHighSelect b v) []) :=
  congrArg Host.Outcome.next (State.writeTxn_bankCommand h banked fun x => bankHighSelect x v)

/-! ## The statements -/

/-- Settles O34: in RomBanking the command stores the offset of the assembled bank number, and no other register. -/
theorem upperRomBitsCommand : Obligations.UpperRomBitsCommand := by
  intro s b a v live _ _ banked romBanking
  refine ⟨romOffsetOf (hiSelRomBank b.bc.romBankOffset v), ?_, romOffsetOf_hiSelRomBank _ v⟩
  rw [exec_bcHisel_banked live banked, bankHighSelect_romBanking romBanking]
  rfl

/-- Settles O32: the command stores the test of the low nibble, and no other register. -/
theorem ramEnableCommand : Obligations.RamEnableCommand := by
  intro s b a v live _ _ banked
  rw [exec_bcRamen_banked live banked, bankRamEnable_eq]
  rfl

end Sys2Proof.Machine
end

section
/-! PROOFS. The unimplemented addresses of the I/O Register Router (spec/42_io_router.md R268, R269): on a live block a
read answers 0 and a write keeps the instance, each with its one event. -/

namespace Sys2Proof.Machine

theorem exec_rd8IoUnimpl_live {s : State} {b : Bus} (h : s.live b) (a : Addr) :
    exec (.rd8IoUnimpl a) s = .next (s.readOk 0 [.unimplRead a]) :=
  congrArg Host.Outcome.next (State.readTxn_ok (v := 0) h rfl)

theorem exec_wr8IoUnimpl_live {s : State} {b : Bus} (h : s.live b) (a : Addr) (v : Byte) :
    exec (.wr8IoUnimpl a v) s = .next (s.writeOk b [.unimplWrite a v]) :=
  congrArg Host.Outcome.next ((State.writeTxn_live h _).trans (State.finish_ok s rfl))

/-- Settles O20: the write leaves the block live, so the read after it answers 0 as any read of the row does. -/
theorem unimplementedRegisters : Obligations.UnimplementedRegisters := by
  intro s b a v live _
  have live_after_write : (s.writeOk b [.unimplWrite a v]).live b := State.live_writeOk live b _
  exact ⟨exec_rd8IoUnimpl_live live a, exec_wr8IoUnimpl_live live a v, exec_rd8IoUnimpl_live live_after_write a⟩

end Sys2Proof.Machine
end

section
/-! PROOFS. Decoder and encoder (spec/30_encoding.md R120, R138): every word is the encoding of some row but for the
bits the format ignores, and every well-formed row is read back; so a byte word's row is the byte access at its
address. -/

namespace Sys2Proof.Laws

open Sys2Proof.Machine

/-- Every row is read back from its own word. -/
theorem roundTrip : (i : Instr) → RoundTrip.Statement i
  | .rd8IoFF00 => RoundTrip.rd8IoFF00
  | .rd8IoFF04 => RoundTrip.rd8IoFF04
  | .rd8IoFF05 => RoundTrip.rd8IoFF05
  | .rd8IoFF06 => RoundTrip.rd8IoFF06
  | .rd8IoFF07 => RoundTrip.rd8IoFF07
  | .rd8IoFF0F => RoundTrip.rd8IoFF0F
  | .rd8IoFF40 => RoundTrip.rd8IoFF40
  | .rd8IoFF41 => RoundTrip.rd8IoFF41
  | .rd8IoFF42 => RoundTrip.rd8IoFF42
  | .rd8IoFF43 => RoundTrip.rd8IoFF43
  | .rd8IoFF44 => RoundTrip.rd8IoFF44
  | .rd8IoFF45 => RoundTrip.rd8IoFF45
  | .rd8IoFF46 => RoundTrip.rd8IoFF46
  | .rd8IoFF47 => RoundTrip.rd8IoFF47
  | .rd8IoFF48 => RoundTrip.rd8IoFF48
  | .rd8IoFF49 => RoundTrip.rd8IoFF49
  | .rd8IoFF50 => RoundTrip.rd8IoFF50
  | .rd8IoFFFF => RoundTrip.rd8IoFFFF
  | .wr8IoFF00 v => RoundTrip.wr8IoFF00 v
  | .wr8IoFF04 v => RoundTrip.wr8IoFF04 v
  | .wr8IoFF05 v => RoundTrip.wr8IoFF05 v
  | .wr8IoFF06 v => RoundTrip.wr8IoFF06 v
  | .wr8IoFF07 v => RoundTrip.wr8IoFF07 v
  | .wr8IoFF0F v => RoundTrip.wr8IoFF0F v
  | .wr8IoFF40 v => RoundTrip.wr8IoFF40 v
  | .wr8IoFF41 v => RoundTrip.wr8IoFF41 v
  | .wr8IoFF42 v => RoundTrip.wr8IoFF42 v
  | .wr8IoFF43 v => RoundTrip.wr8IoFF43 v
  | .wr8IoFF44 v => RoundTrip.wr8IoFF44 v
  | .wr8IoFF45 v => RoundTrip.wr8IoFF45 v
  | .wr8IoFF46 v => RoundTrip.wr8IoFF46 v
  | .wr8IoFF47 v => RoundTrip.wr8IoFF47 v
  | .wr8IoFF48 v => RoundTrip.wr8IoFF48 v
  | .wr8IoFF49 v => RoundTrip.wr8IoFF49 v
  | .wr8IoFF50 v => RoundTrip.wr8IoFF50 v
  | .wr8IoFFFF v => RoundTrip.wr8IoFFFF v
  | .rd8Zp a => RoundTrip.rd8Zp a
  | .rd8IoUnimpl a => RoundTrip.rd8IoUnimpl a
  | .rd8UnmappedA a => RoundTrip.rd8UnmappedA a
  | .rd8UnmappedB a => RoundTrip.rd8UnmappedB a
  | .rd8Oam a => RoundTrip.rd8Oam a
  | .rd8Echo a => RoundTrip.rd8Echo a
  | .rd8Wram a => RoundTrip.rd8Wram a
  | .rd8Eram a => RoundTrip.rd8Eram a
  | .rd8Vram a => RoundTrip.rd8Vram a
  | .rd8Bios a => RoundTrip.rd8Bios a
  | .rd8Rom0 a => RoundTrip.rd8Rom0 a
  | .rd8Romx a => RoundTrip.rd8Romx a
  | .wr8Zp a v => RoundTrip.wr8Zp a v
  | .wr8IoUnimpl a v => RoundTrip.wr8IoUnimpl a v
  | .wr8UnmappedA a v => RoundTrip.wr8UnmappedA a v
  | .wr8UnmappedB a v => RoundTrip.wr8UnmappedB a v
  | .wr8Oam a v => RoundTrip.wr8Oam a v
  | .wr8Echo a v => RoundTrip.wr8Echo a v
  | .wr8Wram a v => RoundTrip.wr8Wram a v
  | .wr8Eram a v => RoundTrip.wr8Eram a v
  | .wr8Vram a v => RoundTrip.wr8Vram a v
  | .bcNone a v => RoundTrip.bcNone a v
  | .bcRamen a v => RoundTrip.bcRamen a v
  | .bcRomsel a v => RoundTrip.bcRomsel a v
  | .bcHisel a v => RoundTrip.bcHisel a v
  | .bcModesel a v => RoundTrip.bcModesel a v
  | .rd16 a => RoundTrip.rd16 a
  | .wr16 a w => RoundTrip.wr16 a w
  | .setbios flag => RoundTrip.setbios flag
  | .reserved5 => RoundTrip.reserved5
  | .reserved6 => RoundTrip.reserved6
  | .reserved7 => RoundTrip.reserved7
  | .attachDisplay => RoundTrip.attachDisplay
  | .attachTimer => RoundTrip.attachTimer
  | .attachIrq => RoundTrip.attachIrq
  | .attachKbd => RoundTrip.attachKbd
  | .construct rom mbcCode ramCode => RoundTrip.construct rom mbcCode ramCode
/-- Settles O1: by the instruction's own row. -/
theorem decodeReadsBackEveryInstruction : Obligations.DecodeReadsBackEveryInstruction :=
  fun i => roundTrip i

theorem decode_of_encode {i : Instr} {p : PortWord} (he : encode i = p) {inBios : Bool} (hw : i.wf = true)
    (hs : i.selectable inBios = true) : decode inBios p = .ok i :=
  he ▸ roundTrip i inBios hw hs

/-! ## The words of the two byte op codes -/

/-- A word of op 0 is the RD8 word of its address, but for ignored data bits. -/
theorem decodeReq_op0 {w : BitVec 35} (h : reqOp w = 0) (inBios : Bool) :
    decode inBios (.req w) = decode inBios (rd8Word (reqAddr w)) :=
  decode_same_key (by rw [h, reqOp_reqWord]) (reqAddr_reqWord ..).symm (.inl h)

/-- A word of op 1 is the WR8 word of its address and low data byte, but for ignored data bits. -/
theorem decodeReq_op1 {w : BitVec 35} (h : reqOp w = 1) (inBios : Bool) :
    decode inBios (.req w) = decode inBios (wr8Word (reqAddr w) (dataByte (reqData w))) :=
  decode_same_key (by rw [h, reqOp_reqWord]) (reqAddr_reqWord ..).symm
    (.inr ⟨h, by rw [reqData_reqWord, dataByte_setWidth]⟩)

theorem decode_req {w : BitVec 35} {op : BitVec 3} (h : reqOp w = op) (inBios : Bool) :
    decode inBios (.req w) = decodeReq inBios (reqWord op (reqAddr w) (reqData w)) :=
  h ▸ congrArg (decodeReq inBios) (reqWord_fields w)

/-- Settles O2: op 0 and op 1 have a row at every address, each other op code has one row. -/
theorem everyRequestWordDecodes : Obligations.EveryRequestWordDecodes := by
  intro inBios w
  obtain ⟨row2, row3, row4, row5, row6, row7⟩ := decodeReq_wide inBios (reqAddr w) (reqData w)
  rcases op_cases (reqOp w) with h | h | h | h | h | h | h | h
  · obtain ⟨i, he, hw, hs⟩ := readRow inBios (reqAddr w)
    exact ⟨i, (decodeReq_op0 h inBios).trans (decode_of_encode he hw hs), hw, hs⟩
  · obtain ⟨i, he, hw, hs⟩ := writeRow inBios (reqAddr w) (dataByte (reqData w))
    exact ⟨i, (decodeReq_op1 h inBios).trans (decode_of_encode he hw hs), hw, hs⟩
  · exact ⟨_, (decode_req h inBios).trans row2, rfl, rfl⟩
  · exact ⟨_, (decode_req h inBios).trans row3, rfl, rfl⟩
  · exact ⟨_, (decode_req h inBios).trans row4, rfl, rfl⟩
  · exact ⟨_, (decode_req h inBios).trans row5, rfl, rfl⟩
  · exact ⟨_, (decode_req h inBios).trans row6, rfl, rfl⟩
  · exact ⟨_, (decode_req h inBios).trans row7, rfl, rfl⟩

/-- Settles O3: by the op code; a byte word is taken to its row's bits, every other op code has one row. -/
theorem ignoredBitsDoNotMatter : Obligations.IgnoredBitsDoNotMatter := by
  intro inBios w w' hop haddr hbyte hword hflag
  obtain ⟨row2, row3, row4, row5, row6, row7⟩ := decodeReq_wide inBios (reqAddr w) (reqData w)
  obtain ⟨row2', row3', row4', row5', row6', row7'⟩ := decodeReq_wide inBios (reqAddr w') (reqData w')
  rcases op_cases (reqOp w) with h | h | h | h | h | h | h | h
  · exact decode_same_key hop (haddr (by rw [h]; decide)) (.inl h)
  · exact decode_same_key hop (haddr (by rw [h]; decide)) (.inr ⟨h, dataByte_eq (hbyte h)⟩)
  all_goals rw [decode_req h, decode_req (hop.symm.trans h)]
  · rw [row2, row2', haddr (by rw [h]; decide)]
  · rw [row3, row3', haddr (by rw [h]; decide), hword h]
  · rw [row4, row4', dataFlag_eq (hflag h)]
  · rw [row5, row5']
  · rw [row6, row6']
  · rw [row7, row7']

/-- Settles O4: each word's row is found by running the decoder. -/
theorem specWordsDecode : Obligations.SpecWordsDecode := by
  unfold Obligations.SpecWordsDecode
  decide

/-- Settles O38: the decoder gives a byte word the row that encodes to it, and such a row is the byte access. -/
theorem byteRowsAreTheDecodeList : Obligations.ByteRowsAreTheDecodeList := by
  intro s a v i
  refine ⟨fun h => ?_, fun h => ?_⟩
  · obtain ⟨j, he, hw, hs⟩ := readRow s.overlay a
    obtain rfl : j = i := Except.ok.inj ((decode_of_encode he hw hs).symm.trans h)
    exact exec_rd8 he hw s
  · obtain ⟨j, he, hw, hs⟩ := writeRow s.overlay a v
    obtain rfl : j = i := Except.ok.inj ((decode_of_encode he hw hs).symm.trans h)
    exact exec_wr8 he hw s

end Sys2Proof.Laws
end

section
/-! PROOFS. Every instruction answers (spec/00_scope.md R13, spec/30_encoding.md R122), and what one step is
(spec/00_scope.md R12, spec/10_state.md R46): the next request's meaning, or an owner step, or nothing. -/

namespace Sys2Proof.Machine

open Sys2Proof.Laws

/-! ## Every instruction answers -/

/-- `t` answers a transaction made in `s`: it carries a response, and the parameters and the inputs still to come are
those of `s`. -/
def Answers (s t : State) : Prop := (∃ r, t.rsp = some r) ∧ t.cfg = s.cfg ∧ t.pending = s.pending

theorem State.respond_answers (s : State) (r : Response) : Answers s (s.respond r) := ⟨⟨r, rfl⟩, rfl, rfl⟩

theorem State.stop_answers (s : State) (x : Stop) (e : List Event) : Answers s (s.stop x e) := by
  cases x with
  | fatal c => exact ⟨⟨_, rfl⟩, rfl, rfl⟩
  | refuse r => exact s.respond_answers _

theorem State.finish_answers (s : State) (r : Run) : Answers s (s.finish r) := by
  obtain ⟨cfg, pending, -⟩ := s.finish_frame r
  refine ⟨?_, cfg, pending⟩
  rcases r.ending_cases with h | ⟨x, h⟩
  · rw [finish_ok s h]; exact ⟨_, rfl⟩
  · rw [finish_stop s h]; cases x <;> exact ⟨_, rfl⟩

/-- An ending is `ok`, or that of an access that was not made. -/
theorem Ending.ok_or_stop (e : Ending) : e = .ok ∨ ∃ x : Stop, e = x.ending := by
  cases e with
  | ok => exact .inl rfl
  | fatal c => exact .inr ⟨.fatal c, rfl⟩
  | refuse x => exact .inr ⟨.refuse x, rfl⟩

theorem State.finishRead_answers (s : State) (r : Reads) : Answers s (s.finishRead r) := by
  rcases r.ending.ok_or_stop with h | ⟨x, h⟩
  · rw [finishRead_ok s h]; exact ⟨⟨_, rfl⟩, rfl, rfl⟩
  · rw [finishRead_stopped h]; exact s.stop_answers x _

/-- What holds of a refusal and of every admitted transaction holds after admission (R160). -/
theorem State.onInstance_holds {P : State → Prop} {s : State} {k : Bus → State} (refused : ∀ x, P (s.refuse x))
    (made : ∀ b, P (k b)) : P (s.onInstance k) := by
  rcases s.admit_cases k with ⟨_, _, h⟩ | ⟨_, _, h⟩ | ⟨b, _, h⟩
  · rw [h]; exact refused _
  · rw [h]; exact refused _
  · rw [h]; exact made b

/-- The same of a word transaction, which is refused at the top address (R188). -/
theorem State.wordTxn_holds {P : State → Prop} {s : State} {a : Addr} {k : Bus → State}
    (refused : ∀ x, P (s.refuse x)) (made : a ≠ 0xFFFF → ∀ b, P (k b)) :
    P (s.onInstance fun b => if a = 0xFFFF then s.refuse .wordAtTop else k b) := by
  refine onInstance_holds refused fun b => ?_
  split
  · exact refused _
  · exact made ‹_› b

theorem State.refuse_answers (s : State) (x : Reason) : Answers s (s.refuse x) := s.respond_answers _

theorem State.readTxn_answers (s : State) (k : Bus → ByteRead) : Answers s (s.readTxn k) :=
  onInstance_holds s.refuse_answers fun _ => s.finishRead_answers _

theorem State.writeTxn_answers (s : State) (k : Bus → Run) : Answers s (s.writeTxn k) :=
  onInstance_holds s.refuse_answers fun _ => s.finish_answers _

theorem refuseReserved_answers (s : State) : Answers s (refuseReserved s) :=
  State.onInstance_holds s.refuse_answers fun _ => s.refuse_answers _

theorem execConstruct_ok {s : State} {m r : Byte} {mode : Mode} {size : RamSize} (hm : modeOfCode s.cfg m = some mode)
    (hr : ramSizeOfCode r = some size) (rom : Image) :
    execConstruct rom m r s = .next (constructOk s (Bus.reset s.cfg rom mode size)) := by
  simp only [execConstruct, hm, hr]

theorem execConstruct_unknownMode {s : State} {m : Byte} (hm : modeOfCode s.cfg m = none) (rom : Image) (r : Byte) :
    execConstruct rom m r s = .next (constructFatal s .unsupportedBankController) := by
  simp only [execConstruct, hm]

theorem execConstruct_unknownSize {s : State} {m r : Byte} (hm : modeOfCode s.cfg m ≠ none)
    (hr : ramSizeOfCode r = none) (rom : Image) :
    execConstruct rom m r s = .next (constructFatal s .unsupportedRamSize) := by
  obtain ⟨mode, hm⟩ := Option.ne_none_iff_exists'.1 hm
  simp only [execConstruct, hm, hr]

/-- Every CONSTRUCT ends fatal by its first or its second code, or makes an instance (R300). -/
theorem execConstruct_cases (rom : Image) (m r : Byte) (s : State) :
    (modeOfCode s.cfg m = none ∧
      execConstruct rom m r s = .next (constructFatal s .unsupportedBankController)) ∨
    (modeOfCode s.cfg m ≠ none ∧ ramSizeOfCode r = none ∧
      execConstruct rom m r s = .next (constructFatal s .unsupportedRamSize)) ∨
    ∃ mode size, modeOfCode s.cfg m = some mode ∧ ramSizeOfCode r = some size ∧
      execConstruct rom m r s = .next (constructOk s (Bus.reset s.cfg rom mode size)) := by
  cases hm : modeOfCode s.cfg m with
  | none => exact .inl ⟨rfl, execConstruct_unknownMode hm rom r⟩
  | some mode =>
    cases hr : ramSizeOfCode r with
    | none => exact .inr (.inl ⟨nofun, rfl, execConstruct_unknownSize (hm ▸ nofun) hr rom⟩)
    | some size => exact .inr (.inr ⟨mode, size, rfl, rfl, execConstruct_ok hm hr rom⟩)

theorem execConstruct_answers (rom : Image) (m r : Byte) (s : State) :
    ∃ t, execConstruct rom m r s = .next t ∧ Answers s t := by
  rcases execConstruct_cases rom m r s with ⟨_, h⟩ | ⟨_, _, h⟩ | ⟨_, _, _, _, h⟩
  · exact ⟨_, h, ⟨_, rfl⟩, rfl, rfl⟩
  · exact ⟨_, h, ⟨_, rfl⟩, rfl, rfl⟩
  · exact ⟨_, h, ⟨_, rfl⟩, rfl, rfl⟩

/-- By the kind of transaction each row is: a byte read, a byte write or a change of a flag, a word, a refusal,
CONSTRUCT. -/
theorem exec_answers (i : Instr) (s : State) : ∃ t, exec i s = .next t ∧ Answers s t := by
  cases i
  case rd8IoFF00 | rd8IoFF04 | rd8IoFF05 | rd8IoFF06 | rd8IoFF07 | rd8IoFF0F | rd8IoFF40 | rd8IoFF41 | rd8IoFF42 |
      rd8IoFF43 | rd8IoFF44 | rd8IoFF45 | rd8IoFF46 | rd8IoFF47 | rd8IoFF48 | rd8IoFF49 | rd8IoFF50 | rd8IoFFFF |
      rd8Zp | rd8IoUnimpl | rd8UnmappedA | rd8UnmappedB | rd8Oam | rd8Echo | rd8Wram | rd8Eram | rd8Vram |
      rd8Bios | rd8Rom0 | rd8Romx =>
    exact ⟨_, rfl, State.readTxn_answers s _⟩
  case wr8IoFF00 | wr8IoFF04 | wr8IoFF05 | wr8IoFF06 | wr8IoFF07 | wr8IoFF0F | wr8IoFF40 | wr8IoFF41 | wr8IoFF42 |
      wr8IoFF43 | wr8IoFF44 | wr8IoFF45 | wr8IoFF46 | wr8IoFF47 | wr8IoFF48 | wr8IoFF49 | wr8IoFF50 | wr8IoFFFF |
      wr8Zp | wr8IoUnimpl | wr8UnmappedA | wr8UnmappedB | wr8Oam | wr8Echo | wr8Wram | wr8Eram | wr8Vram | bcNone |
      bcRamen | bcRomsel | bcHisel | bcModesel | setbios | attachDisplay | attachTimer | attachIrq | attachKbd =>
    exact ⟨_, rfl, State.writeTxn_answers s _⟩
  case rd16 a => exact ⟨_, rfl, State.wordTxn_holds s.refuse_answers fun _ _ => s.finishRead_answers _⟩
  case wr16 a w => exact ⟨_, rfl, State.wordTxn_holds s.refuse_answers fun _ _ => s.finish_answers _⟩
  case reserved5 | reserved6 | reserved7 => exact ⟨_, rfl, refuseReserved_answers s⟩
  case construct rom m r => exact execConstruct_answers rom m r s

/-- Settles O56: each kind of transaction ends in a state that answers. -/
theorem everyInstructionAnswers : Obligations.EveryInstructionAnswers := by
  intro i s
  obtain ⟨t, h, ⟨r, hr⟩, hc, hp⟩ := exec_answers i s
  exact ⟨t, r, h, hr, hc, hp⟩

/-! ## One step -/

theorem step_idle {s : State} (h : s.pending = []) : step s = .next s := by
  simp only [step, h]

theorem step_owner {s : State} {x : OwnerByte} {v : Byte} {rest : List Input} (h : s.pending = .owner x v :: rest) :
    step s = .next ((s.taken rest).ownerStep x v) := by
  simp only [step, h]

theorem step_request {s : State} {w : PortWord} {rest : List Input} {i : Instr} (h : s.pending = .port w :: rest)
    (hd : decode s.overlay w = .ok i) : step s = exec i (s.taken rest) := by
  simp only [step, h, hd]

theorem step_malformed {s : State} {w : PortWord} {rest : List Input} {e : DecodeError}
    (h : s.pending = .port w :: rest) (hd : decode s.overlay w = .error e) : step s = .refused (refusalOf e) := by
  simp only [step, h, hd]

/-- Settles O5: by the branch of the step for a port word. -/
theorem stepRunsTheDecodedInstruction : Obligations.StepRunsTheDecodedInstruction :=
  fun _ _ _ _ h hd => step_request h hd

theorem ownerStep_unconstructed {s : State} (h : s.session = none) (x : OwnerByte) (v : Byte) :
    s.ownerStep x v = s := by
  simp only [State.ownerStep, h]

/-- Settles O8: without an instance an owner step is the identity but for the queue. -/
theorem idleStepChangesNothing : Obligations.IdleStepChangesNothing := by
  intro s
  refine ⟨step_idle, fun x v rest h hs => ?_⟩
  have same := ownerStep_unconstructed (s := s.taken rest) hs x v
  exact (step_owner h).trans (congrArg _ same)

theorem decode_image {inBios : Bool} {rom : Image} {m r : Byte} (h : rom.wf = true) :
    decode inBios (.construct rom m r) = .ok (.construct rom m r) :=
  if_pos h

theorem decode_malformed {inBios : Bool} {rom : Image} {m r : Byte} (h : rom.wf = false) :
    decode inBios (.construct rom m r) = .error .malformedImage :=
  if_neg (by rw [h]; exact Bool.false_ne_true)

/-- What the decoder reads is a well-formed instruction (R138). -/
theorem decode_wf {inBios : Bool} {w : PortWord} {i : Instr} (h : decode inBios w = .ok i) : i.wf = true := by
  cases w with
  | req w =>
    obtain ⟨j, hj, hw, -⟩ := everyRequestWordDecodes inBios w
    obtain rfl : j = i := Except.ok.inj (hj.symm.trans h)
    exact hw
  | host hop =>
    obtain rfl : decodeHost hop = i := Except.ok.inj h
    unfold decodeHost
    split <;> rfl
  | construct rom m r =>
    cases hw : rom.wf with
    | true => obtain rfl := Except.ok.inj ((decode_image hw).symm.trans h); exact hw
    | false => exact nomatch (decode_malformed hw).symm.trans h

/-- Only the operand of a CONSTRUCT can make a port word no request. -/
theorem decode_error {inBios : Bool} {w : PortWord} {e : DecodeError} (h : decode inBios w = .error e) :
    ∃ rom m r, w = .construct rom m r ∧ rom.wf = false := by
  cases w with
  | req w =>
    obtain ⟨j, hj, -⟩ := everyRequestWordDecodes inBios w
    exact nomatch hj.symm.trans h
  | host hop => cases h
  | construct rom m r =>
    cases hw : rom.wf with
    | true => exact nomatch (decode_image hw).symm.trans h
    | false => exact ⟨rom, m, r, rfl, hw⟩

/-- Every step ends in a next state, or stops at a CONSTRUCT whose operand is no image. -/
theorem step_cases (s : State) :
    (∃ t, step s = .next t) ∨
    ∃ rom m r rest, s.pending = .port (.construct rom m r) :: rest ∧ rom.wf = false := by
  cases hp : s.pending with
  | nil => exact .inl ⟨s, step_idle hp⟩
  | cons input rest =>
    cases input with
    | owner x v => exact .inl ⟨_, step_owner hp⟩
    | port w =>
      cases hd : decode s.overlay w with
      | ok i =>
        obtain ⟨t, h, -⟩ := exec_answers i (s.taken rest)
        exact .inl ⟨t, (step_request hp hd).trans h⟩
      | error e =>
        obtain ⟨rom, m, r, rfl, hw⟩ := decode_error hd
        exact .inr ⟨rom, m, r, rest, rfl, hw⟩

/-- Settles O6: every instruction answers, and only a malformed image makes a word no request. -/
theorem stepStopsOnlyAtAMalformedImage : Obligations.StepStopsOnlyAtAMalformedImage := by
  intro s
  have malformed : ∀ {rom m r rest}, s.pending = .port (.construct rom m r) :: rest → rom.wf = false →
      step s = .refused .malformedImage := fun hp hw => step_malformed hp (decode_malformed hw)
  refine ⟨fun f hf => ?_, fun ⟨x, hx⟩ => ?_, fun ⟨rom, m, r, rest, hp, hw⟩ => ⟨_, malformed hp hw⟩⟩
  · rcases step_cases s with ⟨t, h⟩ | ⟨rom, m, r, rest, hp, hw⟩
    · exact nomatch h.symm.trans hf
    · exact nomatch (malformed hp hw).symm.trans hf
  · rcases step_cases s with ⟨t, h⟩ | h
    · exact nomatch h.symm.trans hx
    · exact h

/-! ## Owner steps -/

theorem changedAt_ownerSet (o : Owners) (c : RegCell) (v : Byte) : changedAt o (ownerSet o c v) (.cell c) v := by
  intro y
  cases y with
  | cell d => simp only [ownerByte, ownerGet_ownerSet, OwnerByte.cell.injEq]
  | vram i => simp only [ownerByte, ownerSet_vram, reduceCtorEq, if_false]
  | oam i => simp only [ownerByte, ownerSet_oam, reduceCtorEq, if_false]

theorem changedAt_ownerSetVram {o : Owners} (h : o.lcd.vram.wf = true) (i : Fin 8192) (v : Byte) :
    changedAt o (ownerSetVram o i.val v) (.vram i) v := by
  intro y
  cases y with
  | cell d => simp only [ownerByte, ownerGet_setVram, reduceCtorEq, if_false]
  | vram j => simp only [ownerByte, ownerSetVram, Memory.read_write h, OwnerByte.vram.injEq, Fin.ext_iff]
  | oam j => simp only [ownerByte, ownerSetVram, reduceCtorEq, if_false]

theorem changedAt_ownerSetOam {o : Owners} (h : o.lcd.oam.wf = true) (i : Fin 160) (v : Byte) :
    changedAt o (ownerSetOam o i.val v) (.oam i) v := by
  intro y
  cases y with
  | cell d => simp only [ownerByte, ownerGet_setOam, reduceCtorEq, if_false]
  | vram j => simp only [ownerByte, ownerSetOam, reduceCtorEq, if_false]
  | oam j => simp only [ownerByte, ownerSetOam, Memory.read_write h, OwnerByte.oam.injEq, Fin.ext_iff]

theorem ownersLegal_iff {o : Owners} :
    ownersLegal o = true ↔ o.lcd.vram.fits 8192 = true ∧ o.lcd.oam.fits 160 = true :=
  Bool.and_eq_true_iff

/-- An owner step replaces what the owners hold, changed at the one byte (R46). -/
theorem ownerStep_changes {s : State} {b : Bus} (h : s.session = some b) (legal : ownersLegal b.own = true)
    (x : OwnerByte) (v : Byte) : ∃ o, s.ownerStep x v = s.withBus (b.withOwn o) ∧ changedAt b.own o x v := by
  obtain ⟨vram, oam⟩ := ownersLegal_iff.1 legal
  unfold State.ownerStep
  rw [h]
  cases x with
  | cell c => exact ⟨_, rfl, changedAt_ownerSet _ c v⟩
  | vram i => exact ⟨_, rfl, changedAt_ownerSetVram (Memory.wf_of_fits vram) i v⟩
  | oam i => exact ⟨_, rfl, changedAt_ownerSetOam (Memory.wf_of_fits oam) i v⟩

/-- Settles O7: the step is the owner step of the taken state. -/
theorem ownerStepChangesOneByte : Obligations.OwnerStepChangesOneByte := by
  intro s b x v rest hp hs legal
  obtain ⟨o, h, changed⟩ := ownerStep_changes (s := s.taken rest) hs legal x v
  exact ⟨o, (step_owner hp).trans (congrArg _ h), changed⟩

end Sys2Proof.Machine
end

section
/-! PROOFS. What a well-formed instruction means, by its shape (spec/40_bus_access.md R161, R175), and the invariant:
every step from a legal state leaves a legal state (spec/10_state.md R48, R49). -/

namespace Sys2Proof.Machine

/-! ## The meanings -/

/-- What an instruction whose operands its row admits does: one of eight kinds of transaction. -/
inductive Meaning : Instr → Prop where
  | read {i : Instr} {a : Addr} : encode i = rd8Word a →
      (∀ s, exec i s = .next (s.readTxn fun b => read8 b a)) → Meaning i
  | write {i : Instr} {a : Addr} {v : Byte} : encode i = wr8Word a v →
      (∀ s, exec i s = .next (s.writeTxn fun b => write8 s.cfg b a v)) → Meaning i
  | readWord (a : Addr) : Meaning (.rd16 a)
  | writeWord (a : Addr) (w : Word) : Meaning (.wr16 a w)
  | setbios (flag : Bool) : Meaning (.setbios flag)
  | reserved {i : Instr} : i = .reserved5 ∨ i = .reserved6 ∨ i = .reserved7 →
      (∀ s, exec i s = .next (refuseReserved s)) → Meaning i
  | attach {i : Instr} (o : Owner) :
      i = .attachDisplay ∨ i = .attachTimer ∨ i = .attachIrq ∨ i = .attachKbd →
      (∀ s, exec i s = .next (attachOwner s o)) → Meaning i
  | construct (rom : Image) (m r : Byte) : Meaning (.construct rom m r)

theorem Instr.meaning {i : Instr} (hw : i.wf = true) : Meaning i := by
  rcases Instr.shape i with ⟨a, he⟩ | ⟨a, v, he⟩ | ⟨a, rfl⟩ | ⟨a, w, rfl⟩ | ⟨f, rfl⟩ | rfl | rfl | rfl | rfl | rfl |
    rfl | rfl | ⟨rom, m, r, rfl⟩
  · exact .read he (exec_rd8 he hw)
  · exact .write he (exec_wr8 he hw)
  · exact .readWord a
  · exact .writeWord a w
  · exact .setbios f
  · exact .reserved (.inl rfl) fun _ => rfl
  · exact .reserved (.inr (.inl rfl)) fun _ => rfl
  · exact .reserved (.inr (.inr rfl)) fun _ => rfl
  · exact .attach .display (.inl rfl) fun _ => rfl
  · exact .attach .timer (.inr (.inl rfl)) fun _ => rfl
  · exact .attach .irq (.inr (.inr (.inl rfl))) fun _ => rfl
  · exact .attach .kbd (.inr (.inr (.inr rfl))) fun _ => rfl
  · exact .construct rom m r

theorem next_eq {i : Instr} {s t u : State} (h : exec i s = .next t) (hx : exec i s = .next u) : t = u :=
  next_inj (h.symm.trans hx)

/-! ## The invariant -/

theorem setbios_legal {s : State} (hs : s.legal = true) (flag : Bool) :
    (s.writeTxn fun b => .idle (b.withInBios flag)).legal = true :=
  legal_writeTxn hs _ fun _ hb => ⟨legal_inBios flag hb, nofun, nofun⟩

theorem write_legal {s : State} (hs : s.legal = true) (a : Addr) (v : Byte) :
    (s.writeTxn fun b => write8 s.cfg b a v).legal = true :=
  legal_writeTxn hs _ fun b hb => ⟨write8_legal a v hb, write8_ending s.cfg b a v⟩

theorem reserved_legal {s : State} (hs : s.legal = true) : (refuseReserved s).legal = true :=
  legal_admit hs _ fun _ _ => legal_respond _ hs

theorem exec_legal {i : Instr} {s t : State} (hs : s.legal = true) (hw : i.wf = true) (h : exec i s = .next t) :
    t.legal = true := by
  cases Instr.meaning hw with
  | read he hx => rw [next_eq h (hx s)]; exact legal_readTxn hs _
  | write he hx => rw [next_eq h (hx s)]; exact write_legal hs _ _
  | readWord a => exact legal_rd16 hs a h
  | writeWord a w => exact legal_wr16 hs a w h
  | setbios flag => rw [next_eq h rfl]; exact setbios_legal hs flag
  | reserved he hx => rw [next_eq h (hx s)]; exact reserved_legal hs
  | attach o he hx => rw [next_eq h (hx s)]; exact legal_attach hs o
  | construct rom m r => exact legal_construct hs hw m r h

/-- Settles O54: the queue is no part of the invariant, and an owner step and every decoded instruction keep it. -/
theorem everyStepKeepsTheStateLegal : Obligations.EveryStepKeepsTheStateLegal := by
  intro s t hs h
  cases hp : s.pending with
  | nil => exact next_inj ((step_idle hp).symm.trans h) ▸ hs
  | cons input rest =>
    have taken : (s.taken rest).legal = true := hs
    cases input with
    | owner x v => exact next_inj ((step_owner hp).symm.trans h) ▸ legal_owner taken x v
    | port w =>
      cases hd : decode s.overlay w with
      | ok i => exact exec_legal taken (decode_wf hd) ((step_request hp hd).symm.trans h)
      | error e => exact nomatch (step_malformed hp hd).symm.trans h

/-- Settles O53: reset is what a CONSTRUCT leaves, with parameters of the shapes R10 gives them. -/
theorem resetStateIsLegal : Obligations.ResetStateIsLegal := by
  have params : configLegal Config.atReset = true := by decide
  refine legal_iff.2 ⟨params, fun b hb => ?_, rfl⟩
  cases hb
  exact legal_reset params rfl _ _

end Sys2Proof.Machine
end

section
/-! PROOFS. Admission and the fatal state (spec/40_bus_access.md R160, spec/60_exceptions.md R320 to R331): which
requests are refused before they are made, which accesses latch which cause, and what leaves the fatal state. -/

namespace Sys2Proof.Machine

/-! ## Refused requests -/

/-- Settles O9: admission refuses whatever transaction the instruction is. -/
theorem afterFatalEveryRequestIsRefused : Obligations.AfterFatalEveryRequestIsRefused := by
  intro i s c hf hi
  obtain ⟨k, hk⟩ := exec_admits i hi s
  exact hk.trans (congrArg _ (State.admit_fatal hf k))

/-- Settles O10: admission refuses whatever transaction the instruction is. -/
theorem beforeConstructEveryRequestIsRefused : Obligations.BeforeConstructEveryRequestIsRefused := by
  intro i s hf hs hi
  obtain ⟨k, hk⟩ := exec_admits i hi s
  exact hk.trans (congrArg _ (State.admit_unconstructed hf hs k))

theorem State.refuse_live {s : State} {b : Bus} (h : s.live b) (x : Reason) : s.refuse x = s.refusedIn b x [] :=
  State.stop_live h (.refuse x) []

/-- Settles O13: on a live block the three rows are one refusal. -/
theorem reservedOpsAreRefused : Obligations.ReservedOpsAreRefused := by
  intro s b live
  have refused : refuseReserved s = s.refusedIn b .reservedOp [] :=
    (State.admit_live live _).trans (State.refuse_live live _)
  exact ⟨congrArg _ refused, congrArg _ refused, congrArg _ refused⟩

/-! ## Leaving the fatal state -/

/-- A CONSTRUCT depends on nothing of the old session, latch or response (R300, R331). -/
theorem execConstruct_forgets (rom : Image) (m r : Byte) (s : State) (b : Option Bus) (f : Option Cause)
    (p : Option Response) :
    execConstruct rom m r { s with session := b, fatal := f, rsp := p } = execConstruct rom m r s := by
  unfold execConstruct
  cases modeOfCode s.cfg m with
  | none => rfl
  | some mode => cases ramSizeOfCode r <;> rfl

theorem Instr.construct_of_isConstruct {i : Instr} (h : i.isConstruct = true) : ∃ rom m r, i = .construct rom m r := by
  cases i
  case construct rom m r => exact ⟨rom, m, r, rfl⟩
  all_goals exact nomatch h

/-- Settles O11: every other instruction is refused, which keeps the latch and the session. -/
theorem fatalStateLeftOnlyByConstruct : Obligations.FatalStateLeftOnlyByConstruct := by
  intro i s t c hf h
  cases hi : i.isConstruct with
  | false =>
    obtain rfl := next_eq h (afterFatalEveryRequestIsRefused i s c hf hi)
    exact .inl ⟨hf, rfl⟩
  | true =>
    obtain ⟨rom, m, r, rfl⟩ := Instr.construct_of_isConstruct hi
    exact .inr ⟨rfl, fun b f p => (execConstruct_forgets rom m r s b f p).trans h⟩

/-! ## Entering the fatal state -/

/-- A group of reads is fatal only by a read that is (R321). -/
theorem finishRead_fatal_of {s : State} (hs : s.fatal = none) {r : Reads} {c : Cause}
    (h : (s.finishRead r).fatal = some c) : r.ending = .fatal c := by
  rcases r.ending.ok_or_stop with he | ⟨x, he⟩
  · rw [State.finishRead_ok s he] at h
    exact nomatch hs.symm.trans h
  · rw [State.finishRead_stopped he] at h
    rw [he, stop_fatal_of hs h]
    rfl

theorem Reads.one_fatal {r : ByteRead} {c : Cause} (h : (Reads.one r).ending = .fatal c) :
    r = .error (.fatal c) := by
  cases r with
  | ok p => cases h
  | error x =>
    cases x with
    | fatal d => cases h; rfl
    | refuse y => cases h

/-- A word read is fatal by its low or by its high byte (R189). -/
theorem readWord_fatal {b : Bus} {a : Addr} {c : Cause} (h : (readWord b a).ending = .fatal c) :
    read8 b a = .error (.fatal c) ∨ read8 b (nextAddr a) = .error (.fatal c) := by
  cases low : read8 b a with
  | error x =>
    refine .inl (Reads.one_fatal ?_)
    rw [readWord, low, Reads.two_error rfl] at h
    exact h
  | ok p =>
    refine .inr (Reads.one_fatal ?_)
    cases high : read8 b (nextAddr a) with
    | error x => rw [readWord, low, high, Reads.two_ok_error rfl rfl] at h; exact h
    | ok q => rw [readWord, low, high, Reads.two_ok rfl rfl] at h; exact h

/-- A word write is fatal by its low or by its high byte (R189). -/
theorem writeWord_fatal {cfg : Config} {b : Bus} {a : Addr} {w : Word} {c : Cause}
    (h : (writeWord cfg b a w).ending = .fatal c) :
    (write8 cfg b a (lowByte w)).ending = .fatal c ∨
    ∃ b', (write8 cfg b' (nextAddr a) (highByte w)).ending = .fatal c := by
  unfold writeWord at h
  by_cases low : (write8 cfg b a (lowByte w)).ending = .ok
  · rw [Run.andThen_ok low] at h
    exact .inr ⟨_, h⟩
  · rw [Run.andThen_stop low] at h
    exact .inl h

theorem wordTxn_fatal_of {s : State} (hs : s.fatal = none) {a : Addr} {k : Bus → State} {c : Cause}
    (h : (s.onInstance fun b => if a = 0xFFFF then s.refuse .wordAtTop else k b).fatal = some c) :
    ∃ b, a ≠ 0xFFFF ∧ (k b).fatal = some c := by
  obtain ⟨b, -, hk⟩ := admit_fatal_of hs h
  split at hk
  · exact nomatch hs.symm.trans hk
  · exact ⟨b, ‹_›, hk⟩

theorem execConstruct_fatal {rom : Image} {m r : Byte} {s t : State} {c : Cause}
    (h : execConstruct rom m r s = .next t) (hc : t.fatal = some c) : c.code ≤ 2 := by
  rcases execConstruct_cases rom m r s with ⟨_, he⟩ | ⟨_, _, he⟩ | ⟨_, _, _, _, he⟩ <;>
    (obtain rfl := next_inj (he.symm.trans h); cases hc)
  · decide
  · decide

theorem Instr.selectable_some (i : Instr) : ∃ inBios, i.selectable inBios = true := by
  cases i
  case rd8Rom0 a => exact ⟨false, rfl⟩
  all_goals exact ⟨true, rfl⟩

/-- The row that writes the DMA trigger is the one whose word does (R257). -/
theorem Instr.eq_trigger {i : Instr} (hw : i.wf = true) {v : Byte} (he : encode i = wr8Word 0xFF46 v) :
    i = .wr8IoFF46 v := by
  obtain ⟨inBios, hs⟩ := Instr.selectable_some i
  have row := Laws.decode_of_encode (i := .wr8IoFF46 v) (inBios := inBios) rfl rfl rfl
  exact Except.ok.inj ((Laws.decode_of_encode he hw hs).symm.trans row)

/-- An ATTACH on a live block (R304, R305). -/
theorem attachOwner_live {s : State} {b : Bus} (h : s.live b) (o : Owner) :
    attachOwner s o = if b.wired.has o = true then s.refusedIn b .alreadyWired []
      else s.writeOk (b.withWired (b.wired.attach o)) [] := by
  unfold attachOwner
  rw [State.writeTxn_live h]
  split
  · exact State.finish_stopped s b _
  · exact State.finish_idle s _

/-- Settles O12: by the kind of transaction; a copy is fatal by the page of its value. -/
theorem onlyTheFourFatalConditions : Obligations.OnlyTheFourFatalConditions := by
  intro i s t c hw hs h hc
  cases Instr.meaning hw with
  | @read _ a he hx =>
    rw [next_eq h (hx s)] at hc
    obtain ⟨b, -, hk⟩ := admit_fatal_of hs hc
    obtain ⟨lo, hi, code⟩ := read8_fatal (Reads.one_fatal (finishRead_fatal_of hs hk))
    exact .inr ⟨isConstruct_req he, code, .inl ⟨a, .inl (readAt_of he), lo, hi⟩⟩
  | @write _ a v he hx =>
    rw [next_eq h (hx s)] at hc
    obtain ⟨b, -, hk⟩ := admit_fatal_of hs hc
    obtain ⟨code, range | ⟨rfl, page⟩⟩ := write8_fatal (finish_fatal_of hs hk)
    · exact .inr ⟨isConstruct_req he, code, .inl ⟨a, .inr (.inr (.inr (by simp [writesAt_of he]))), range⟩⟩
    · exact .inr ⟨isConstruct_req he, code,
        .inr ⟨by simp [writesAt_of he], v, page.1, page.2, .inl (Instr.eq_trigger hw he)⟩⟩
  | readWord a =>
    obtain ⟨b, top, hk⟩ := wordTxn_fatal_of hs (next_eq h rfl ▸ hc)
    refine .inr ⟨rfl, ?_⟩
    rcases readWord_fatal (finishRead_fatal_of hs hk) with hr | hr
    · obtain ⟨lo, hi, code⟩ := read8_fatal hr
      exact ⟨code, .inl ⟨a, .inr (.inl rfl), lo, hi⟩⟩
    · obtain ⟨lo, hi, code⟩ := read8_fatal hr
      obtain ⟨nonzero, before⟩ := next_ne top
      exact ⟨code, .inl ⟨nextAddr a, .inr (.inr (.inl ⟨by rw [before], nonzero⟩)), lo, hi⟩⟩
  | writeWord a w =>
    obtain ⟨b, -, hk⟩ := wordTxn_fatal_of hs (next_eq h rfl ▸ hc)
    refine .inr ⟨rfl, ?_⟩
    rw [writesAt_wr16]
    rcases writeWord_fatal (finish_fatal_of hs hk) with low | ⟨b', high⟩
    · obtain ⟨code, range | ⟨rfl, page⟩⟩ := write8_fatal low
      · exact ⟨code, .inl ⟨a, .inr (.inr (.inr (by simp))), range⟩⟩
      · exact ⟨code, .inr ⟨by simp, lowByte w, page.1, page.2, .inr ⟨_, w, rfl, .inl rfl⟩⟩⟩
    · obtain ⟨code, range | ⟨next, page⟩⟩ := write8_fatal high
      · exact ⟨code, .inl ⟨nextAddr a, .inr (.inr (.inr (by simp))), range⟩⟩
      · exact ⟨code, .inr ⟨by simp [next], highByte w, page.1, page.2, .inr ⟨a, w, rfl, .inr rfl⟩⟩⟩
  | setbios flag =>
    obtain ⟨b, -, hk⟩ := admit_fatal_of hs (next_eq h rfl ▸ hc)
    exact nomatch finish_fatal_of hs hk
  | reserved he hx =>
    rw [next_eq h (hx s)] at hc
    obtain ⟨b, -, hk⟩ := admit_fatal_of hs hc
    exact nomatch hs.symm.trans hk
  | attach o he hx =>
    rw [next_eq h (hx s)] at hc
    obtain ⟨b, live, -⟩ := admit_fatal_of hs hc
    rw [attachOwner_live live] at hc
    split at hc
    · exact nomatch hs.symm.trans hc
    · exact nomatch hs.symm.trans hc
  | construct rom m r => exact .inl ⟨rfl, execConstruct_fatal h hc⟩

end Sys2Proof.Machine
end

section
/-! PROOFS. Byte reads of the cartridge windows, the display's buffers, external RAM, the unmapped area and the listed
registers (spec/40_bus_access.md R162 to R172, spec/42_io_router.md R232 to R266): what each row answers on a live
block. -/

namespace Sys2Proof.Machine

/-! ## The two checks of a byte read -/

/-- A read that needs an owner answers its byte, or is refused `Unwired` (R307). -/
theorem State.readTxn_needs {s : State} {b : Bus} (h : s.live b) {k : Bus → ByteRead} {o : Owner} {v : Byte}
    (hk : k b = b.needsForRead o (.ok (v, []))) :
    s.readTxn k = if b.wired.has o = true then s.readOk (v.setWidth 16) [] else s.refusedIn b .unwired [] := by
  split
  · rename_i wired
    exact readTxn_ok h (hk.trans (Bus.needsForRead_wired wired _))
  · rename_i unwired
    exact readTxn_error h (hk.trans (Bus.needsForRead_unwired (Bool.eq_false_iff.2 unwired) _))

/-- A read of the image answers the byte at its index, or is refused beyond the end (R162). -/
theorem State.readTxn_romByte {s : State} {b : Bus} (h : s.live b) {k : Bus → ByteRead} {i : Nat}
    (hk : k b = romByte b i) :
    s.readTxn k = if i < b.rom.len then s.readOk ((b.rom.bytes.read i).setWidth 16) []
      else s.refusedIn b .romIndexOutOfRange [] := by
  split
  · rename_i inside
    exact readTxn_ok h (hk.trans (if_pos inside))
  · rename_i beyond
    exact readTxn_error h (hk.trans (if_neg beyond))

/-! ## Cartridge, display buffers, external RAM, unmapped area -/

/-- Settles O15: outside the overlay both windows read the image at their index. -/
theorem cartridgeReads : Obligations.CartridgeReads := by
  intro s b a live
  refine ⟨fun _ above => ?_, fun _ _ => congrArg _ (State.readTxn_romByte live rfl)⟩
  have fixed : readLow b a = romByte b a.toNat := if_neg fun ⟨low, latch⟩ => by have := above latch; omega
  exact congrArg _ (State.readTxn_romByte live fixed)

/-- Settles O17: both buffers are the display's. -/
theorem displayBufferReads : Obligations.DisplayBufferReads := by
  intro s b a live
  exact ⟨fun _ _ => congrArg _ (State.readTxn_needs live (o := .display) rfl),
    fun _ _ => congrArg _ (State.readTxn_needs live (o := .display) rfl)⟩

theorem exec_rd8Eram_fatal {s : State} {b : Bus} (h : s.live b) {a : Addr} {c : Cause}
    (hc : eramIndex b a = .error c) : exec (.rd8Eram a) s = .next (s.fatalIn b c []) := by
  have stopped : readEram b a = .error (.fatal c) := by rw [readEram, hc]
  exact congrArg _ (State.readTxn_error (k := fun b => readEram b a) h stopped)

theorem exec_rd8Eram_ok {s : State} {b : Bus} (h : s.live b) {a : Addr} (inside : eramOffset b a < b.ramSize.bytes) :
    exec (.rd8Eram a) s = .next (s.readOk ((b.eram.read (eramOffset b a)).setWidth 16) []) := by
  have made : readEram b a = .ok (b.eram.read (eramOffset b a), []) := by rw [readEram, eramIndex_ok inside]
  exact congrArg _ (State.readTxn_ok (k := fun b => readEram b a) h made)

/-- Settles O18: by the two checks of the index, the size-zero one first. -/
theorem externalRamReads : Obligations.ExternalRamReads := by
  intro s b a live _ _
  by_cases unsized : b.ramSize.bytes = 0
  · rw [if_pos unsized, exec_rd8Eram_fatal live (eramIndex_unconfigured unsized)]
  · rw [if_neg unsized]
    split
    · rename_i beyond
      exact exec_rd8Eram_fatal live (eramIndex_beyond unsized beyond)
    · rename_i inside
      exact exec_rd8Eram_ok live (Nat.lt_of_not_le inside)

/-- Settles O19: neither row looks at the owners; a write leaves the instance. -/
theorem unmappedAreaIsInert : Obligations.UnmappedAreaIsInert := by
  intro s b a v live
  have read : (s.readTxn fun _ => readUnmapped) = s.readOk 0 [] := State.readTxn_ok (v := 0) live rfl
  have write : s.writeTxn writeUnmapped = s.writeOk b [] := (State.writeTxn_live live _).trans (State.finish_done s b)
  exact ⟨fun _ _ => ⟨congrArg _ read, congrArg _ write⟩, fun _ _ => ⟨congrArg _ read, congrArg _ write⟩⟩

/-! ## Registers -/

/-- A read of an owner's cell on a live block (R231). -/
theorem exec_reads_cell {i : Instr} {s : State} {b : Bus} (c : RegCell)
    (hi : exec i s = .next (s.readTxn fun b => readIoReg b (.cell c))) (h : s.live b)
    (wired : b.wired.has c.owner = true) : exec i s = .next (s.readOk ((ownerGet b.own c).setWidth 16) []) :=
  hi.trans (congrArg _ ((State.readTxn_needs h rfl).trans (if_pos wired)))

theorem exec_reads_cell_unwired {i : Instr} {s : State} {b : Bus} (c : RegCell)
    (hi : exec i s = .next (s.readTxn fun b => readIoReg b (.cell c))) (h : s.live b)
    (unwired : b.wired.has c.owner = false) : exec i s = .next (s.refusedIn b .unwired []) :=
  hi.trans (congrArg _ ((State.readTxn_needs h rfl).trans (if_neg (Bool.eq_false_iff.1 unwired))))

/-- Settles O21: each row reads one cell of its owner. -/
theorem keyboardTimerInterruptReads : Obligations.KeyboardTimerInterruptReads := by
  intro s b live
  refine ⟨fun kbd => ?_, fun kbd => ?_, fun timer => ⟨?_, ?_, ?_, ?_⟩, fun timer => ⟨?_, ?_, ?_, ?_⟩,
    fun irq => ⟨?_, ?_⟩, fun irq => ⟨?_, ?_⟩⟩
  · exact exec_reads_cell .joypad rfl live kbd
  · exact exec_reads_cell_unwired .joypad rfl live kbd
  · exact exec_reads_cell .divider rfl live timer
  · exact exec_reads_cell .counter rfl live timer
  · exact exec_reads_cell .modulo rfl live timer
  · exact exec_reads_cell .timerControl rfl live timer
  · exact exec_reads_cell_unwired .divider rfl live timer
  · exact exec_reads_cell_unwired .counter rfl live timer
  · exact exec_reads_cell_unwired .modulo rfl live timer
  · exact exec_reads_cell_unwired .timerControl rfl live timer
  · exact exec_reads_cell .irqFlags rfl live irq
  · exact exec_reads_cell .irqEnable rfl live irq
  · exact exec_reads_cell_unwired .irqFlags rfl live irq
  · exact exec_reads_cell_unwired .irqEnable rfl live irq

/-- Settles O22: each row reads one cell of the display. -/
theorem displayRegisterReads : Obligations.DisplayRegisterReads := by
  intro s b live
  refine ⟨fun wired => ⟨?_, ?_, ?_, ?_, ?_, ?_, ?_, ?_, ?_⟩, fun unwired => ?_⟩
  · exact exec_reads_cell .lcdControl rfl live wired
  · exact exec_reads_cell .lcdStatus rfl live wired
  · exact exec_reads_cell .scrollY rfl live wired
  · exact exec_reads_cell .scrollX rfl live wired
  · exact exec_reads_cell .scanline rfl live wired
  · exact exec_reads_cell .scanlineCompare rfl live wired
  · exact exec_reads_cell .palette0 rfl live wired
  · exact exec_reads_cell .palette1 rfl live wired
  · exact exec_reads_cell .palette2 rfl live wired
  · simp only [List.forall_mem_cons, List.not_mem_nil, false_implies, implies_true, and_true]
    exact ⟨exec_reads_cell_unwired .lcdControl rfl live unwired, exec_reads_cell_unwired .lcdStatus rfl live unwired,
      exec_reads_cell_unwired .scrollY rfl live unwired, exec_reads_cell_unwired .scrollX rfl live unwired,
      exec_reads_cell_unwired .scanline rfl live unwired, exec_reads_cell_unwired .scanlineCompare rfl live unwired,
      exec_reads_cell_unwired .palette0 rfl live unwired, exec_reads_cell_unwired .palette1 rfl live unwired,
      exec_reads_cell_unwired .palette2 rfl live unwired⟩

theorem latchByte_setWidth (inBios : Bool) :
    (latchByte inBios).setWidth 16 = if inBios = true then (1 : Word) else 0 := by
  cases inBios <;> rfl

/-- Settles O23: neither register is an owner's. -/
theorem triggerAndLatchReads : Obligations.TriggerAndLatchReads := by
  intro s b live
  refine ⟨congrArg _ (State.readTxn_ok (v := 0) live rfl), ?_⟩
  rw [← latchByte_setWidth]
  exact congrArg _ (State.readTxn_ok live rfl)

end Sys2Proof.Machine
end

section
/-! PROOFS. Byte writes of the display's buffers, external RAM, the listed registers and the overlay latch
(spec/40_bus_access.md R177, R178, R181, spec/42_io_router.md R233 to R267): what each row leaves on a live block. -/

namespace Sys2Proof.Machine

/-! ## Writes that need an owner -/

/-- A write that needs an owner is made, or is refused `Unwired` (R307). -/
theorem State.writeTxn_needs {s : State} {b b' : Bus} (h : s.live b) {k : Bus → Run} {o : Owner}
    (hk : k b = b.needsForWrite o (.done b')) :
    s.writeTxn k = if b.wired.has o = true then s.writeOk b' [] else s.refusedIn b .unwired [] := by
  rw [writeTxn_live h, hk]
  split
  · rename_i wired
    rw [Bus.needsForWrite_wired wired, finish_done]
  · rename_i unwired
    rw [Bus.needsForWrite_unwired (Bool.eq_false_iff.2 unwired), finish_stopped]
    rfl

theorem State.writeTxn_wired {s : State} {b b' : Bus} (h : s.live b) {k : Bus → Run} {o : Owner}
    (hk : k b = b.needsForWrite o (.done b')) (wired : b.wired.has o = true) : s.writeTxn k = s.writeOk b' [] :=
  (writeTxn_needs h hk).trans (if_pos wired)

theorem State.writeTxn_unwired {s : State} {b b' : Bus} (h : s.live b) {k : Bus → Run} {o : Owner}
    (hk : k b = b.needsForWrite o (.done b')) (unwired : b.wired.has o = false) :
    s.writeTxn k = s.refusedIn b .unwired [] :=
  (writeTxn_needs h hk).trans (if_neg (Bool.eq_false_iff.1 unwired))

/-! ## Display buffers and external RAM -/

/-- Settles O26: both buffers are the display's, and the index is the offset from the window's base. -/
theorem displayBufferWrites : Obligations.DisplayBufferWrites := by
  intro s b a v live legal
  obtain ⟨vram, oam⟩ := ownersLegal_iff.1 legal
  refine ⟨fun lo hi => ⟨fun wired => ?_, fun unwired => ?_⟩, fun lo hi => ⟨fun wired => ?_, fun unwired => ?_⟩⟩
  · have below : vramIndex a < 8192 := by unfold vramIndex; omega
    exact ⟨_, ⟨vramIndex a, below⟩, congrArg _ (State.writeTxn_wired live (o := .display) rfl wired), rfl,
      changedAt_ownerSetVram (Memory.wf_of_fits vram) ⟨_, below⟩ v⟩
  · exact congrArg _ (State.writeTxn_unwired live (o := .display) rfl unwired)
  · have below : oamIndex a < 160 := by unfold oamIndex; omega
    exact ⟨_, ⟨oamIndex a, below⟩, congrArg _ (State.writeTxn_wired live (o := .display) rfl wired), rfl,
      changedAt_ownerSetOam (Memory.wf_of_fits oam) ⟨_, below⟩ v⟩
  · exact congrArg _ (State.writeTxn_unwired live (o := .display) rfl unwired)

theorem eramStore_ok {b : Bus} {a : Addr} (h : eramOffset b a < b.ramSize.bytes) (v : Byte) :
    eramStore b a v = .done (b.withEram (b.eram.write (eramOffset b a) v)) := by
  rw [eramStore, eramIndex_ok h]

theorem eramStore_error {b : Bus} {a : Addr} {c : Cause} (h : eramIndex b a = .error c) (v : Byte) :
    eramStore b a v = .stop b (.fatal c) := by
  rw [eramStore, h]

/-- The row on a live block: dropped where a banked mode has RAM disabled, else the checked store (R178, R209). -/
theorem exec_wr8Eram_live {s : State} {b : Bus} (h : s.live b) {a : Addr} (lo : 0xA000 ≤ a.toNat)
    (hi : a.toNat ≤ 0xBFFF) (v : Byte) :
    exec (.wr8Eram a v) s = .next (s.finish
      (if b.bc.mode = .romOnly ∨ b.bc.ramEnabled = true then eramStore b a v else .done b)) := by
  rw [← writeEram_cases b a v lo hi]
  exact congrArg _ (State.writeTxn_live h _)

theorem exec_wr8Eram_fatal {s : State} {b : Bus} (h : s.live b) {a : Addr} (lo : 0xA000 ≤ a.toNat)
    (hi : a.toNat ≤ 0xBFFF) (stores : b.bc.mode = .romOnly ∨ b.bc.ramEnabled = true) {c : Cause}
    (hc : eramIndex b a = .error c) (v : Byte) : exec (.wr8Eram a v) s = .next (s.fatalIn b c []) := by
  rw [exec_wr8Eram_live h lo hi, if_pos stores, eramStore_error hc, State.finish_stopped]
  rfl

/-- Settles O27: the drop comes before the checks, the size-zero check before the range check. -/
theorem externalRamWrites : Obligations.ExternalRamWrites := by
  intro s b a v live canonical lo hi
  refine ⟨fun banked disabled => ?_, fun stores => ⟨fun unsized => ?_, fun sized beyond => ?_, fun inside => ?_⟩⟩
  · rw [exec_wr8Eram_live live lo hi, if_neg (by simp [banked, disabled]), State.finish_done]
  · exact exec_wr8Eram_fatal live lo hi stores (eramIndex_unconfigured unsized) v
  · exact exec_wr8Eram_fatal live lo hi stores (eramIndex_beyond sized beyond) v
  · refine ⟨b.eram.write (eramOffset b a) v, ?_, Memory.read_write_same canonical _ v,
      fun _ => Memory.read_write_other _ _ v⟩
    rw [exec_wr8Eram_live live lo hi, if_pos stores, eramStore_ok inside, State.finish_done]
    rfl

/-! ## Registers -/

theorem writeReg_cell {c : RegCell} {v x : Byte} (h : storedInCell c v = some x) (cfg : Config) (b : Bus) :
    writeReg cfg b (.cell c) v = b.needsForWrite c.owner (.done (b.withOwn (ownerSet b.own c x))) := by
  simp only [writeReg, writeIoReg, h]

/-- A write of an owner's cell on a live block: the cell holds what the row stores of `v` (R231). -/
theorem exec_writes_cell {i : Instr} {s : State} {b : Bus} (c : RegCell) {v : Byte}
    (hi : exec i s = .next (s.writeTxn fun b => writeReg s.cfg b (.cell c) v)) (h : s.live b)
    (wired : b.wired.has c.owner = true) {x : Byte} (stored : storedInCell c v = some x) :
    ∃ o, exec i s = .next (s.writeOk { b with own := o } []) ∧ changedAt b.own o (.cell c) x :=
  ⟨ownerSet b.own c x, hi.trans (congrArg _ (State.writeTxn_wired h (writeReg_cell stored s.cfg b) wired)),
    changedAt_ownerSet _ c x⟩

theorem exec_writes_cell_unwired {i : Instr} {s : State} {b : Bus} (c : RegCell) {v : Byte}
    (hi : exec i s = .next (s.writeTxn fun b => writeReg s.cfg b (.cell c) v)) (h : s.live b)
    (unwired : b.wired.has c.owner = false) {x : Byte} (stored : storedInCell c v = some x) :
    exec i s = .next (s.refusedIn b .unwired []) :=
  hi.trans (congrArg _ (State.writeTxn_unwired h (writeReg_cell stored s.cfg b) unwired))

/-- Settles O28: each row stores the whole byte in one cell of its owner. -/
theorem keyboardTimerInterruptWrites : Obligations.KeyboardTimerInterruptWrites := by
  intro s b v live
  refine ⟨fun kbd => ?_, fun kbd => ?_, fun timer => ⟨?_, ?_⟩, fun timer => ⟨?_, ?_⟩, fun irq => ⟨?_, ?_⟩,
    fun irq => ⟨?_, ?_⟩⟩
  · exact exec_writes_cell .joypad rfl live kbd rfl
  · exact exec_writes_cell_unwired .joypad rfl live kbd rfl
  · exact exec_writes_cell .counter rfl live timer rfl
  · exact exec_writes_cell .modulo rfl live timer rfl
  · exact exec_writes_cell_unwired .counter rfl live timer rfl
  · exact exec_writes_cell_unwired .modulo rfl live timer rfl
  · exact exec_writes_cell .irqFlags rfl live irq rfl
  · exact exec_writes_cell .irqEnable rfl live irq rfl
  · exact exec_writes_cell_unwired .irqFlags rfl live irq rfl
  · exact exec_writes_cell_unwired .irqEnable rfl live irq rfl

theorem mask3 (n : Nat) : n &&& 7 = n % 8 := Nat.and_two_pow_sub_one_eq_mod n 3

/-- Settles O29: the divider stores 0, the timer control a masked byte; the scanline's write touches no owner. -/
theorem dividerControlScanlineWrites : Obligations.DividerControlScanlineWrites := by
  intro s b v live
  refine ⟨fun timer => ⟨?_, ?_⟩, fun timer => ⟨?_, ?_⟩, ?_⟩
  · exact exec_writes_cell .divider rfl live timer rfl
  · obtain ⟨o, h, changed⟩ := exec_writes_cell (i := .wr8IoFF07 v) .timerControl rfl live timer rfl
    exact ⟨o, v &&& 0x07, h, by simp [mask3], changed⟩
  · exact exec_writes_cell_unwired .divider rfl live timer rfl
  · exact exec_writes_cell_unwired .timerControl rfl live timer rfl
  · exact congrArg _ ((State.writeTxn_live live _).trans (State.finish_done s b))

/-- Settles O30: each row stores the whole byte in one cell of the display. -/
theorem displayRegisterWrites : Obligations.DisplayRegisterWrites := by
  intro s b v live
  have row : ∀ {i : Instr} (c : RegCell), c.owner = .display → storedInCell c v = some v →
      exec i s = .next (s.writeTxn fun b => writeReg s.cfg b (.cell c) v) →
      (b.wired.display = true →
        ∃ o, exec i s = .next (s.writeOk { b with own := o } []) ∧ changedAt b.own o (.cell c) v) ∧
      (b.wired.display = false → exec i s = .next (s.refusedIn b .unwired [])) :=
    fun c display stored hi =>
      ⟨fun wired => exec_writes_cell c hi live (by rw [display]; exact wired) stored,
        fun unwired => exec_writes_cell_unwired c hi live (by rw [display]; exact unwired) stored⟩
  simp only [List.forall_mem_cons, List.not_mem_nil, false_implies, implies_true, and_true]
  exact ⟨row .lcdControl rfl rfl rfl, row .lcdStatus rfl rfl rfl, row .scrollY rfl rfl rfl, row .scrollX rfl rfl rfl,
    row .scanlineCompare rfl rfl rfl, row .palette0 rfl rfl rfl, row .palette1 rfl rfl rfl, row .palette2 rfl rfl rfl⟩

/-! ## The overlay latch -/

/-- The latch is cleared by the values `BIOS_DISABLE_ON` holds of, and never set (R265). -/
theorem latchAfterWrite_eq (cfg : Config) (inBios : Bool) (v : Byte) :
    latchAfterWrite cfg inBios v = (inBios && !biosDisableOn cfg v) := by
  unfold latchAfterWrite
  cases inBios <;> cases biosDisableOn cfg v <;> rfl

theorem exec_wr8IoFF50_live {s : State} {b : Bus} (h : s.live b) (v : Byte) :
    exec (.wr8IoFF50 v) s = .next (s.writeOk { b with inBios := b.inBios && !biosDisableOn s.cfg v } []) := by
  rw [← latchAfterWrite_eq]
  have done := State.finish_done s (b.withInBios (latchAfterWrite s.cfg b.inBios v))
  exact congrArg _ ((State.writeTxn_live h _).trans done)

/-- Settles O31: the value 1 always clears the latch, and with it cleared the low read takes the image. -/
theorem overlayLatchWrite : Obligations.OverlayLatchWrite := by
  intro s b v live
  have cleared : (b.inBios && !biosDisableOn s.cfg 1) = false := by simp [biosDisableOn]
  refine ⟨exec_wr8IoFF50_live live v, ?_, fun a _ inside => ?_⟩
  · rw [exec_wr8IoFF50_live live, cleared]
  · have image : readLow { b with inBios := false } a = .ok (b.rom.bytes.read a.toNat, []) :=
      (if_neg (by simp)).trans (if_pos inside)
    exact congrArg _ (State.readTxn_ok (State.live_writeOk live _ _) image)

end Sys2Proof.Machine
end

section
/-! PROOFS. Bank Controller commands that select banks and modes, or do nothing (spec/41_bank_controller.md R200 to
R208), and the host operations (spec/44_host_ops.md R300 to R308). -/

namespace Sys2Proof.Machine

/-! ## Commands in the banked modes -/

theorem exec_bcRomsel_banked {s : State} {b : Bus} (h : s.live b) (banked : b.bc.mode ≠ .romOnly) (a : Addr)
    (v : Byte) : exec (.bcRomsel a v) s = .next (s.writeOk (bankRomSelect b v) []) :=
  congrArg Host.Outcome.next (State.writeTxn_bankCommand h banked fun x => bankRomSelect x v)

theorem exec_bcModesel_banked {s : State} {b : Bus} (h : s.live b) (banked : b.bc.mode ≠ .romOnly) (a : Addr)
    (v : Byte) : exec (.bcModesel a v) s = .next (s.writeOk (bankModeSelect b v) []) :=
  congrArg Host.Outcome.next (State.writeTxn_bankCommand h banked fun x => bankModeSelect x v)

/-- Settles O33: the command stores the offset of the low five bits, and no other register. -/
theorem romBankSelectCommand : Obligations.RomBankSelectCommand := by
  intro s b a v live _ _ banked
  exact ⟨romOffsetOf (romSelBank v), exec_bcRomsel_banked live banked a v, romOffsetOf_romSelBank v⟩

/-- The mode MODESEL stores (R208). -/
theorem bankingModeOf_eq (v : Byte) : bankingModeOf v = if v.toNat % 2 = 1 then .ramBanking else .romBanking := by
  have bit : v.getLsbD 0 = true ↔ v.toNat % 2 = 1 := by simp [BitVec.getLsbD, Nat.testBit_zero]
  unfold bankingModeOf
  exact if_congr bit rfl rfl

/-- Settles O36: the command stores the mode of bit 0, and no other register. -/
theorem bankingModeCommand : Obligations.BankingModeCommand := by
  intro s b a v live _ _ banked
  rw [exec_bcModesel_banked live banked, bankModeSelect, bankingModeOf_eq]
  rfl

/-- HISEL in RamBanking replaces the RAM offset (R207). -/
theorem bankHighSelect_ramBanking {b : Bus} (h : b.bc.bankingMode = .ramBanking) (v : Byte) :
    bankHighSelect b v = b.withBc { b.bc with ramBankOffset := ramOffsetOf (hiSelRamBank v) } := by
  rw [bankHighSelect, h]

theorem RamSize.bytes_le (size : RamSize) : size.bytes ≤ 0x2000 := by
  cases size <;> decide

/-- Past the first bank no index of external RAM is in range, whatever its size (R207, R321). -/
theorem eramIndex_beyond_bank0 {b : Bus} (h : 0x2000 ≤ b.bc.ramBankOffset.toNat) (a : Addr) :
    ∃ c, (c = .eramNotConfigured ∨ c = .eramOutOfRange) ∧ eramIndex b a = .error c := by
  have size := b.ramSize.bytes_le
  by_cases unsized : b.ramSize.bytes = 0
  · exact ⟨_, .inl rfl, eramIndex_unconfigured unsized⟩
  · exact ⟨_, .inr rfl, eramIndex_beyond unsized (by unfold eramOffset; omega)⟩

/-- So every read of external RAM, and every enabled store to it, is fatal (R207). -/
theorem exec_eram_beyond_bank0 {s : State} {b : Bus} (h : s.live b) (offset : 0x2000 ≤ b.bc.ramBankOffset.toNat)
    {a : Addr} (lo : 0xA000 ≤ a.toNat) (hi : a.toNat ≤ 0xBFFF) :
    ∃ c, (c = .eramNotConfigured ∨ c = .eramOutOfRange) ∧ exec (.rd8Eram a) s = .next (s.fatalIn b c []) ∧
      (b.bc.ramEnabled = true → ∀ v, exec (.wr8Eram a v) s = .next (s.fatalIn b c [])) := by
  obtain ⟨c, cause, failed⟩ := eramIndex_beyond_bank0 offset a
  exact ⟨c, cause, exec_rd8Eram_fatal h failed,
    fun enabled v => exec_wr8Eram_fatal h lo hi (.inr enabled) failed v⟩

/-- Settles O35: the offset stored is past the size of every external RAM, so both accesses meet a failing check. -/
theorem ramBankCommand : Obligations.RamBankCommand := by
  intro s b a v live _ _ banked ramBanking
  have stored := ramOffsetOf_hiSelRamBank v
  refine ⟨ramOffsetOf (hiSelRamBank v), ?_, stored, fun x lo hi nonzero => ?_⟩
  · rw [exec_bcHisel_banked live banked, bankHighSelect_ramBanking ramBanking]
    rfl
  · have offset : 0x2000 ≤ (ramOffsetOf (hiSelRamBank v)).toNat := by omega
    exact exec_eram_beyond_bank0 (State.live_writeOk live _ []) offset lo hi

/-! ## Commands without effect -/

/-- A command in RomOnly mode ends `ok` and leaves the instance (R200). -/
theorem State.writeTxn_bankCommand_romOnly {s : State} {b : Bus} (h : s.live b) (romOnly : b.bc.mode = .romOnly)
    (command : Bus → Bus) : (s.writeTxn fun x => bankCommand x (.done (command x))) = s.writeOk b [] := by
  rw [State.writeTxn_live h, bankCommand_romOnly romOnly, State.finish_done]

/-- Settles O37: BC.NONE is no access of the instance, the other rows are commands. -/
theorem commandsWithoutEffect : Obligations.CommandsWithoutEffect := by
  intro s b a v live
  refine ⟨fun _ => congrArg _ ((State.writeTxn_live live _).trans (State.finish_done s b)), fun romOnly => ?_⟩
  have unchanged := State.writeTxn_bankCommand_romOnly live romOnly
  exact ⟨fun _ _ => congrArg _ (unchanged fun x => bankRamEnable x v),
    fun _ _ => congrArg _ (unchanged fun x => bankRomSelect x v),
    fun _ _ => congrArg _ (unchanged fun x => bankHighSelect x v),
    fun _ _ => congrArg _ (unchanged fun x => bankModeSelect x v)⟩

/-! ## SETBIOS and ATTACH -/

/-- Settles O49: the transaction makes no byte access and leaves the latch its flag. -/
theorem setbiosSetsTheLatch : Obligations.SetbiosSetsTheLatch := by
  intro s b flag live
  have left := State.finish_idle s (b.withInBios flag)
  exact congrArg _ ((State.writeTxn_live live _).trans left)

/-- Settles O50: each row is the ATTACH of its owner. -/
theorem attachWiresOnce : Obligations.AttachWiresOnce := by
  intro s b live
  exact ⟨congrArg _ (attachOwner_live live .display), congrArg _ (attachOwner_live live .timer),
    congrArg _ (attachOwner_live live .irq), congrArg _ (attachOwner_live live .kbd)⟩

/-! ## CONSTRUCT -/

theorem ramSizeOfCode_beyond {r : Byte} (h : 3 ≤ r.toNat) : ramSizeOfCode r = none := by
  unfold ramSizeOfCode
  split
  · omega
  · omega
  · omega
  · rfl

/-- Settles O51: the reset state holds the value of the table of R52 in every field. -/
theorem constructLeavesTheResetState : Obligations.ConstructLeavesTheResetState := by
  intro s rom m r mode size hm hr
  have known : ramSizeOfCode r = some size := by
    rcases hr with ⟨rfl, rfl⟩ | ⟨rfl, rfl⟩ | ⟨rfl, rfl⟩ <;> rfl
  exact ⟨Bus.reset s.cfg rom mode size, execConstruct_ok hm known rom, rfl, rfl, rfl, rfl, rfl, rfl, rfl, rfl, rfl,
    rfl, rfl, fun _ below => Memory.read_below _ below, rfl, rfl⟩

/-- Settles O52: the bank-controller code is looked up first. -/
theorem constructFatalConditions : Obligations.ConstructFatalConditions := by
  intro s rom m r
  exact ⟨fun unknown => execConstruct_unknownMode unknown rom r,
    fun known beyond => execConstruct_unknownSize known (ramSizeOfCode_beyond beyond) rom⟩

end Sys2Proof.Machine
end

section
/-! PROOFS. Stores to plain storage and the word transactions (spec/20_memory.md R87, R90, R93,
spec/40_bus_access.md R185 to R189). -/

namespace Sys2Proof.Machine

/-- Settles O40: the row is the byte write, and a byte write of plain storage is one store. -/
theorem storeIsSeenExactlyAtItsPlace : Obligations.StoreIsSeenExactlyAtItsPlace := by
  intro s b a v i live legal plain hw he
  obtain ⟨b', store, -, -, -, seen⟩ := plain_store s.cfg b a v legal plain
  refine ⟨b', ?_, seen⟩
  rw [exec_wr8 he hw, State.writeTxn_live live, store, State.finish_done]

/-! ## Words on a live block -/

theorem exec_rd16_live {s : State} {b : Bus} (h : s.live b) {a : Addr} (top : a ≠ 0xFFFF) :
    exec (.rd16 a) s = .next (s.finishRead (readWord b a)) :=
  congrArg _ ((State.admit_live h _).trans (if_neg top))

theorem exec_wr16_live {s : State} {b : Bus} (h : s.live b) {a : Addr} (top : a ≠ 0xFFFF) (w : Word) :
    exec (.wr16 a w) s = .next (s.finish (writeWord s.cfg b a w)) :=
  congrArg _ ((State.admit_live h _).trans (if_neg top))

theorem exec_rd16_top {s : State} {b : Bus} (h : s.live b) :
    exec (.rd16 0xFFFF) s = .next (s.refusedIn b .wordAtTop []) :=
  congrArg _ ((State.admit_live h _).trans (State.refuse_live h _))

theorem exec_wr16_top {s : State} {b : Bus} (h : s.live b) (w : Word) :
    exec (.wr16 0xFFFF w) s = .next (s.refusedIn b .wordAtTop []) :=
  congrArg _ ((State.admit_live h _).trans (State.refuse_live h _))

/-- Two byte reads that are made answer the word of their bytes, low address first (R185). -/
theorem exec_rd16_ok {s : State} {b : Bus} (h : s.live b) {a : Addr} (top : a ≠ 0xFFFF) {lo hi : Byte}
    {e e' : List Event} (low : read8 b a = .ok (lo, e)) (high : read8 b (nextAddr a) = .ok (hi, e')) :
    exec (.rd16 a) s = .next (s.readOk (hi ++ lo) (e ++ e')) := by
  rw [exec_rd16_live h top, readWord, Reads.two_ok low high, State.finishRead_ok s rfl]
  rfl

/-- Settles O41: by which of the two reads is made. -/
theorem wordReads : Obligations.WordReads := by
  intro s b a live
  refine ⟨fun top => top ▸ exec_rd16_top live, fun top => ⟨fun x low => ?_, fun lo e x low high => ?_,
    fun lo e hi e' low high => ⟨hi ++ lo, exec_rd16_ok live top low high, append_toNat hi lo⟩⟩⟩
  · rw [exec_rd16_live live top, readWord, Reads.two_error low, State.finishRead_stop live rfl]
  · have high : read8 b (nextAddr a) = .error x := high
    rw [exec_rd16_live live top, readWord, Reads.two_ok_error low high, State.finishRead_stop live rfl]

theorem lowByte_eq {w : Word} {lo hi : Byte} (h : w.toNat = hi.toNat * 256 + lo.toNat) : lowByte w = lo := by
  have := lo.isLt
  exact BitVec.eq_of_toNat_eq (by rw [lowByte_toNat]; omega)

theorem highByte_eq {w : Word} {lo hi : Byte} (h : w.toNat = hi.toNat * 256 + lo.toNat) : highByte w = hi := by
  have := lo.isLt
  exact BitVec.eq_of_toNat_eq (by rw [highByte_toNat]; omega)

/-- A word write whose low byte is not made is that byte's write (R189). -/
theorem writeWord_stop {cfg : Config} {b : Bus} {a : Addr} {w : Word} {x : Stop}
    (h : (write8 cfg b a (lowByte w)).ending = x.ending) : writeWord cfg b a w = write8 cfg b a (lowByte w) :=
  Run.andThen_stop (h ▸ x.ending_ne_ok) _

/-- A word write whose low byte is made ends as the high byte's write does, in the state the low byte left (R187). -/
theorem writeWord_ok {cfg : Config} {b : Bus} {a : Addr} {w : Word}
    (h : (write8 cfg b a (lowByte w)).ending = .ok) :
    writeWord cfg b a w =
      { bus := (write8 cfg (write8 cfg b a (lowByte w)).bus (nextAddr a) (highByte w)).bus
        events := (write8 cfg b a (lowByte w)).events ++
          (write8 cfg (write8 cfg b a (lowByte w)).bus (nextAddr a) (highByte w)).events
        ending := (write8 cfg (write8 cfg b a (lowByte w)).bus (nextAddr a) (highByte w)).ending
        accesses := (write8 cfg b a (lowByte w)).accesses +
          (write8 cfg (write8 cfg b a (lowByte w)).bus (nextAddr a) (highByte w)).accesses } :=
  Run.andThen_ok h _

/-- Settles O42: by which of the two writes is made. -/
theorem wordWrites : Obligations.WordWrites := by
  intro s b a w lo hi live bytes
  obtain rfl := lowByte_eq bytes
  obtain rfl := highByte_eq bytes
  refine ⟨fun top => top ▸ exec_wr16_top live w,
    fun top => ⟨fun x low => ?_, fun low => ⟨fun x high => ?_, fun high => ?_⟩⟩⟩
  · rw [exec_wr16_live live top, writeWord_stop low, State.finish_stop s low]
  · rw [exec_wr16_live live top, writeWord_ok low]
    exact congrArg _ (State.finish_stop s high)
  · rw [exec_wr16_live live top, writeWord_ok low]
    exact congrArg _ (State.finish_ok s high)

/-- A word written to plain storage: two stores, after which each byte reads back at its own address (R87). -/
theorem writeWord_plain (cfg : Config) (b : Bus) {a : Addr} (w : Word) (legal : busLegal cfg b = true)
    (top : a ≠ 0xFFFF) (low : plainStorage b a = true) (high : plainStorage b (nextAddr a) = true) :
    ∃ b', writeWord cfg b a w = { bus := b', events := [], ending := .ok, accesses := 2 } ∧
      read8 b' a = .ok (lowByte w, []) ∧ read8 b' (nextAddr a) = .ok (highByte w, []) := by
  obtain ⟨b₁, store₁, legal₁, plain₁, place₁, seen₁⟩ := plain_store cfg b a (lowByte w) legal low
  obtain ⟨b₂, store₂, -, -, -, seen₂⟩ :=
    plain_store cfg b₁ (nextAddr a) (highByte w) legal₁ ((plain₁ _).trans high)
  have apart : placeOf b₁ a ≠ placeOf b₁ (nextAddr a) := by
    rw [place₁, place₁]
    exact (next_place b a top low high).symm
  refine ⟨b₂, ?_, ?_, ?_⟩
  · rw [writeWord_ok (by rw [store₁]; rfl), store₁]
    simp only [Run.done, store₂, List.append_nil]
  · rw [seen₂, if_neg apart, seen₁, if_pos rfl]
  · rw [seen₂, if_pos rfl]

/-- Settles O43: the two stores leave the bytes at different places, and the word read joins them. -/
theorem wordRoundTripIsLittleEndian : Obligations.WordRoundTripIsLittleEndian := by
  intro s b a w live legal top low high
  obtain ⟨b', write, readLow, readHigh⟩ := writeWord_plain s.cfg b w legal top low high
  refine ⟨b', ?_, ⟨lowByte w, readLow, lowByte_toNat w⟩, ⟨highByte w, readHigh, highByte_toNat w⟩, ?_⟩
  · rw [exec_wr16_live live top, write, State.finish_ok s rfl]
  · rw [exec_rd16_ok (State.live_writeOk live b' []) top readLow readHigh, append_bytes]
    rfl

end Sys2Proof.Machine
end

section
/-! PROOFS. The DMA Engine (spec/43_dma.md R281 to R288): a copy that completes, one that meets an unreadable byte, the
explicit script it equals, a copy of OAM onto itself, and a copy of the I/O page. -/

namespace Sys2Proof.Machine

open Sys2Proof.Laws

/-! ## The trigger's row -/

theorem dmaSource_eq (page : Byte) {i : Nat} (h : i < 160) :
    dmaSource page i = BitVec.ofNat 16 (page.toNat * 256 + i) := by
  have := page.isLt
  apply BitVec.eq_of_toNat_eq
  rw [dmaSource_toNat page h, BitVec.toNat_ofNat]
  omega

/-- The count of accesses is no part of how a transaction ends. -/
theorem State.finish_accesses (s : State) (r : Run) (n : Nat) : s.finish { r with accesses := n } = s.finish r := rfl

/-- The trigger's row on a live block: the copy (R257). -/
theorem exec_trigger_live {s : State} {b : Bus} (h : s.live b) (page : Byte) :
    exec (.wr8IoFF46 page) s = .next (s.finish (dmaFrom s.cfg page 160 0 b)) := by
  have row : exec (.wr8IoFF46 page) s = .next (s.writeTxn fun b => dmaCopy s.cfg b page) := rfl
  rw [row, State.writeTxn_live h, dmaCopy_eq, State.finish_accesses]

/-- A copy whose source bytes are all readable (R281, R283). -/
theorem exec_trigger_ok {s : State} {b : Bus} {page : Byte} {f : Nat → Byte} {e : Nat → List Event} (h : s.live b)
    (wired : b.wired.display = true) (oam : b.own.lcd.oam.fits 160 = true)
    (readable : ∀ i, i < 160 → read8 b (dmaSource page i) = .ok (f i, e i)) :
    ∃ m, exec (.wr8IoFF46 page) s = .next (s.writeOk (b.withOam m) ((List.range 160).map e).flatten) ∧
      m.fits 160 = true ∧ ∀ i, m.read i = if i < 160 then f i else b.own.lcd.oam.read i := by
  obtain ⟨m, run, -, fits, read⟩ := dmaFrom_ok s.cfg page f e 160 0 b (by decide) wired (Memory.wf_of_fits oam)
    fun i _ below => readable i (by omega)
  refine ⟨m, ?_, fits oam, fun i => by simpa using read i⟩
  rw [exec_trigger_live h, run, State.finish_ok s rfl, List.range_eq_range']

/-- Settles O44: the copy of a page all of which is readable. -/
theorem dmaCopiesThePage : Obligations.DmaCopiesThePage := by
  intro s b page f e live wired oam readable
  obtain ⟨m, run, fits, read⟩ := exec_trigger_ok live wired oam
    fun i below => (congrArg (read8 b) (dmaSource_eq page below)).trans (readable i below)
  exact ⟨m, run, fits, fun i below => (read i).trans (if_pos below)⟩

/-- Settles O45: the copy of the bytes before the first unreadable one. -/
theorem dmaStopsAtTheFirstUnreadableByte : Obligations.DmaStopsAtTheFirstUnreadableByte := by
  intro s b page f e k x live wired oam below readable unreadable
  rw [← dmaSource_eq page below] at unreadable
  obtain ⟨m, run, -, -, read⟩ := dmaFrom_stop s.cfg page f e below (Nat.le_refl 160) wired (Memory.wf_of_fits oam)
    (fun j hj => (congrArg (read8 b) (dmaSource_eq page (by omega))).trans (readable j hj)) unreadable
  refine ⟨m, ?_, read⟩
  rw [exec_trigger_live live, run, State.finish_stop s rfl]
  rfl

/-! ## The explicit script -/

/-- A request is the meaning of the instruction its word decodes to (R12). -/
theorem State.request_eq {s t : State} {w : PortWord} {i : Instr} (hd : decode s.overlay w = .ok i)
    (hx : exec i s = .next t) : s.request w = t := by
  have made : step (s.requestFirst w) = .next t := (step_request (s := s.requestFirst w) rfl hd).trans hx
  simp only [State.request, made]

theorem State.request_rd8 (s : State) (a : Addr) : s.request (rd8Word a) = s.readTxn fun b => read8 b a := by
  obtain ⟨i, he, hw, hs⟩ := readRow s.overlay a
  exact State.request_eq (decode_of_encode he hw hs) (exec_rd8 he hw s)

theorem State.request_wr8 (s : State) (a : Addr) (v : Byte) :
    s.request (wr8Word a v) = s.writeTxn fun b => write8 s.cfg b a v := by
  obtain ⟨i, he, hw, hs⟩ := writeRow s.overlay a v
  exact State.request_eq (decode_of_encode he hw hs) (exec_wr8 he hw s)

theorem State.stoppedIn_rsp (s : State) (b : Bus) (x : Stop) (e : List Event) :
    (s.stoppedIn b x e).rsp = some { outcome := x.ending, rdata := none, events := e } := by
  cases x <;> rfl

/-- The response of a transaction that writes (R122). -/
theorem State.finish_rsp (s : State) (r : Run) :
    (s.finish r).rsp = some { outcome := r.ending, rdata := none, events := r.events } := by
  rcases r.ending_cases with h | ⟨x, h⟩
  · rw [finish_ok s h, h]; rfl
  · rw [finish_stop s h, h]; exact s.stoppedIn_rsp r.bus x r.events

/-- The latch after a transaction that writes (R330). -/
theorem State.finish_latch {s : State} (hf : s.fatal = none) (r : Run) : (s.finish r).fatal = latchOf r.ending := by
  rcases r.ending_cases with h | ⟨x, h⟩
  · rw [finish_ok s h, h]; exact hf
  · obtain ⟨-, -, latch, -⟩ := stoppedIn_fields s r.bus x r.events hf
    rw [finish_stop s h, h]; exact latch

/-- Settles O46: the script and the trigger's row both leave what the run of 160 bytes leaves. -/
theorem dmaEqualsExplicitAccesses : Obligations.DmaEqualsExplicitAccesses := by
  intro s b page live t r u log ht hr hscript
  obtain ⟨ucfg, usession, ufatal, upending, ulog, ursp⟩ :=
    copyScript_dmaFrom State.request_rd8 State.request_wr8 page 160 0 s b [] live (by decide)
  rw [hscript] at ucfg usession ufatal upending ulog ursp
  have made : t = s.finish (dmaFrom s.cfg page 160 0 b) :=
    ht.symm.trans (State.request_eq (decode_of_encode (i := .wr8IoFF46 page) rfl rfl rfl) (exec_trigger_live live page))
  obtain ⟨tcfg, tpending, tsession⟩ := State.finish_frame s (dmaFrom s.cfg page 160 0 b)
  have tfatal := State.finish_latch live.1 (dmaFrom s.cfg page 160 0 b)
  have trsp := s.finish_rsp (dmaFrom s.cfg page 160 0 b)
  rw [← made] at tcfg tpending tsession tfatal trsp
  obtain rfl := Option.some.inj (trsp.symm.trans hr)
  exact ⟨tcfg.trans ucfg.symm, tsession.trans usession.symm, tfatal.trans ufatal.symm, tpending.trans upending.symm,
    ulog.symm, ursp (.inr (by decide))⟩

/-! ## A copy of OAM onto itself -/

theorem read8_oam {b : Bus} (wired : b.wired.display = true) {a : Addr} (w : windowOf a = .oam) :
    read8 b a = .ok (b.own.lcd.oam.read (oamIndex a), []) := by
  simp only [read8, w]
  exact Bus.needsForRead_wired (o := .display) wired _

/-- Settles O47: each byte of OAM is copied onto itself, and two canonical buffers that read alike are equal. -/
theorem dmaSelfCopyChangesNothing : Obligations.DmaSelfCopyChangesNothing := by
  intro s b live wired oam
  have readable : ∀ i, i < 160 → read8 b (dmaSource 0xFE i) = .ok (b.own.lcd.oam.read i, []) := by
    intro i below
    have source : (dmaSource 0xFE i).toNat = 0xFE * 256 + i := dmaSource_toNat 0xFE below
    have index : oamIndex (dmaSource 0xFE i) = i := by unfold oamIndex; omega
    rw [read8_oam wired (windowOf_oam (by omega) (by omega)), index]
  obtain ⟨m, run, fits, read⟩ := exec_trigger_ok live wired oam readable
  obtain rfl : m = b.own.lcd.oam := by
    refine Memory.ext_of_read (Memory.wf_of_fits fits) (Memory.wf_of_fits oam) fun i => ?_
    rw [read, ite_self]
  rw [run, Bus.withOam_self]
  simp

end Sys2Proof.Machine
end

section
/-! PROOFS. A DMA copy of the I/O page (spec/43_dma.md R288): what each of its 160 source bytes reads, and which of them
emit an event. -/

namespace Sys2Proof.Machine

/-! ## Reads of the I/O page with every owner wired -/

/-- The byte an address of 0xFF00 to 0xFF7F reads with its owner wired (R230, R268). -/
def ioByte (b : Bus) (a : Addr) : Byte :=
  match ioRegOf a with
  | some (.cell c) => ownerGet b.own c
  | some .biosLatch => latchByte b.inBios
  | some .dmaTrigger => 0
  | none => 0

/-- A read of the address emits an event: it is unimplemented, or the DMA trigger (R256, R268). -/
def announces (a : Addr) : Bool := a.isUnimplemented || a == 0xFF46

/-- The events of a read of the address. -/
def ioEvents (a : Addr) : List Event := if announces a = true then [.unimplRead a] else []

theorem has_of_fullyWired {b : Bus} (h : fullyWired b = true) (o : Owner) : b.wired.has o = true := by
  simp only [fullyWired, Bool.and_eq_true] at h
  obtain ⟨⟨⟨display, timer⟩, irq⟩, kbd⟩ := h
  cases o
  · exact display
  · exact timer
  · exact irq
  · exact kbd

/-- Every address of the I/O window that the router's table does not list is unimplemented (R131, R268). -/
theorem isUnimplemented_of_unlisted {a : Addr} (w : windowOf a = .io) (h : ioRegOf a = none) :
    a.isUnimplemented = true := by
  have range : Window.io.holds a := w ▸ windowOf_holds a
  have unlisted : a.toNat ∉ listedIo := by
    simpa [ioRegOf, ioTable, listedIo, List.lookup_eq_none_iff] using h
  simp [Addr.isUnimplemented, within_iff, range, unlisted]

theorem announces_iff {a : Addr} (w : windowOf a = .io) :
    announces a = true ↔ ioRegOf a = none ∨ ioRegOf a = some .dmaTrigger := by
  simp only [announces, Bool.or_eq_true, beq_iff_eq]
  constructor
  · rintro (unimplemented | rfl)
    · exact .inl (ioRegOf_unimplemented unimplemented).2
    · exact .inr rfl
  · rintro (unlisted | trigger)
    · exact .inl (isUnimplemented_of_unlisted w unlisted)
    · exact .inr (BitVec.eq_of_toNat_eq (ioRegOf_dmaTrigger trigger))

/-- A read of the I/O window with every owner wired, by the register its address selects. -/
theorem read8_io {b : Bus} (wired : fullyWired b = true) {a : Addr} (w : windowOf a = .io) :
    read8 b a = .ok (ioByte b a, ioEvents a) := by
  have events := announces_iff w
  simp only [read8, w, ioRead, ioByte, ioEvents]
  cases hr : ioRegOf a with
  | none => rw [if_pos (events.2 (.inl hr))]; rfl
  | some r =>
    cases r with
    | cell c =>
      rw [if_neg (by rw [events, hr]; simp)]
      exact Bus.needsForRead_wired (has_of_fullyWired wired _) _
    | dmaTrigger =>
      rw [if_pos (events.2 (.inr hr)), show a = 0xFF46 from BitVec.eq_of_toNat_eq (ioRegOf_dmaTrigger hr)]
      rfl
    | biosLatch => rw [if_neg (by rw [events, hr]; simp)]; rfl

theorem read8_zp {b : Bus} {a : Addr} (w : windowOf a = .zp) : read8 b a = .ok (b.zp.read (zpIndex a), []) := by
  simp only [read8, w]
  rfl

/-! ## The page as a copy's source -/

/-- Byte `i` of a copy from page 0xFF: a register or an unimplemented address, then the zero page. -/
def ioPageByte (b : Bus) (i : Nat) : Byte :=
  if i < 128 then ioByte b (dmaSource 0xFF i) else b.zp.read (i - 128)

/-- The events of byte `i` of a copy from page 0xFF. -/
def ioPageEvents (i : Nat) : List Event := if i < 128 then ioEvents (dmaSource 0xFF i) else []

theorem read8_ioPage {b : Bus} (wired : fullyWired b = true) {i : Nat} (below : i < 160) :
    read8 b (dmaSource 0xFF i) = .ok (ioPageByte b i, ioPageEvents i) := by
  have source : (dmaSource 0xFF i).toNat = 0xFF * 256 + i := dmaSource_toNat 0xFF below
  unfold ioPageByte ioPageEvents
  split
  · exact read8_io wired (windowOf_io (by omega) (by omega))
  · have index : zpIndex (dmaSource 0xFF i) = i - 128 := by unfold zpIndex; omega
    rw [read8_zp (windowOf_zp (by omega) (by omega)), index]

/-- The bytes of a copy that emit an event read 0. -/
theorem ioByte_of_announces {b : Bus} {a : Addr} (w : windowOf a = .io) (h : announces a = true) : ioByte b a = 0 := by
  rcases (announces_iff w).1 h with unlisted | trigger
  · simp only [ioByte, unlisted]
  · simp only [ioByte, trigger]

set_option maxRecDepth 8000 in
/-- The events of the whole copy, and their number: a closed computation over its 160 bytes. -/
theorem ioPageEvents_all :
    ((List.range 160).map ioPageEvents).flatten =
      (((List.range 128).map fun i => (BitVec.ofNat 16 (0xFF00 + i) : Addr)).filter
        fun a => Addr.isUnimplemented a || a == 0xFF46).map Event.unimplRead ∧
    ((List.range 160).map ioPageEvents).flatten.length = 112 := by
  decide

/-- Settles O48: the copy of a page all of which is readable, with the bytes and events of the I/O page. -/
theorem dmaFromTheIoPage : Obligations.DmaFromTheIoPage := by
  intro s b live wired oam
  obtain ⟨m, run, -, read⟩ := exec_trigger_ok live (has_of_fullyWired wired .display) oam
    fun i below => read8_ioPage wired below
  obtain ⟨log, count⟩ := ioPageEvents_all
  refine ⟨m, _, run, log, count, fun i below silent => ?_, read 0x00, read 0x04, read 0x05, read 0x06, read 0x07,
    read 0x0F, read 0x40, read 0x41, read 0x42, read 0x43, read 0x44, read 0x45, read 0x47, read 0x48, read 0x49,
    read 0x50, fun i below => ?_⟩
  · have announced : announces (dmaSource 0xFF i) = true := by
      rcases silent with unimplemented | rfl
      · rw [show dmaSource 0xFF i = BitVec.ofNat 16 (0xFF00 + i) from dmaSource_eq 0xFF (by omega), announces,
          unimplemented, Bool.true_or]
      · rfl
    have source : (dmaSource 0xFF i).toNat = 0xFF * 256 + i := dmaSource_toNat 0xFF (by omega)
    rw [read, if_pos (by omega), ioPageByte, if_pos below,
      ioByte_of_announces (windowOf_io (by omega) (by omega)) announced]
  · rw [read, if_pos (by omega), ioPageByte, if_neg (by omega), Nat.add_sub_cancel_left]

end Sys2Proof.Machine
end

section
/-! PROOFS. Index and address assembly in a legal state (spec/20_memory.md R83, R96). -/

namespace Sys2Proof.Machine

theorem nextAddr_toNat {a : Addr} (h : a ≠ 0xFFFF) : (nextAddr a).toNat = a.toNat + 1 := by
  have top : a.toNat ≠ 0xFFFF := fun h' => h (BitVec.eq_of_toNat_eq h')
  have := a.isLt
  unfold nextAddr
  rw [BitVec.toNat_add]
  show (a.toNat + 1) % 65536 = _
  omega

/-- A legal ROM bank number is 1 to 127, so its offset is 0x4000 to 0x1FC000 (R48). -/
theorem romBankOffset_range {c : Bank} (h : romBankLegal c = true) :
    0x4000 ≤ c.romBankOffset.toNat ∧ c.romBankOffset.toNat ≤ 0x1FC000 := by
  obtain ⟨aligned, lower, upper, -⟩ := (romBankLegal_iff c).1 h
  omega

theorem ramBankOffset_le {c : Bank} (h : ramBankLegal c = true) : c.ramBankOffset.toNat ≤ 0x6000 := by
  rcases (ramBankLegal_iff c).1 h with h | h | h | h <;> omega

/-- Settles O55: the bank offsets from the invariant, everything else from the range of the address. -/
theorem indexesStayInRange : Obligations.IndexesStayInRange := by
  intro s b a page i legal hs
  obtain ⟨-, -, rom, ram, -⟩ := busLegal_iff.1 ((legal_iff.1 legal).2.1 b hs)
  obtain ⟨romLower, romUpper⟩ := romBankOffset_range rom
  have ramUpper := ramBankOffset_le ram
  refine ⟨fun lo hi => ?_, fun lo hi => ⟨?_, fun j hj => ?_⟩, fun lo hi => ?_, fun lo hi => ?_, fun lo hi => ?_,
    fun lo hi => ?_, fun lo hi => ?_, romUpper, ramUpper, nextAddr_toNat,
    fun below => ⟨dmaSource_toNat page below, dmaDest_toNat below⟩⟩
  · unfold romxIndex; omega
  · unfold eramOffset; omega
  · obtain ⟨inside, index⟩ := eramIndex_ok_iff.1 hj
    exact ⟨index, Nat.lt_of_le_of_lt (Nat.le_of_eq index) inside⟩
  · unfold vramIndex; omega
  · unfold wramIndex; omega
  · unfold echoIndex; omega
  · unfold oamIndex; omega
  · unfold zpIndex; omega

end Sys2Proof.Machine
end

section
/-! PROOFS. What a response carries, and what a read leaves (spec/30_encoding.md R122, spec/20_memory.md R92,
spec/41_bank_controller.md R210). -/

namespace Sys2Proof.Machine

open Sys2Proof.Laws

/-! ## What an instruction's word says of it -/

theorem isRead_rd8 {i : Instr} {a : Addr} (h : encode i = rd8Word a) : i.isRead = true := by
  simp only [Instr.isRead, h, rd8Word, reqOp_reqWord]
  rfl

theorem isRead_wr8 {i : Instr} {a : Addr} {v : Byte} (h : encode i = wr8Word a v) : i.isRead = false := by
  simp only [Instr.isRead, h, wr8Word, reqOp_reqWord]
  rfl

theorem isRead_rd16 (a : Addr) : (Instr.rd16 a).isRead = true := by
  simp only [Instr.isRead, encode, reqOp_reqWord]
  rfl

theorem isRead_wr16 (a : Addr) (w : Word) : (Instr.wr16 a w).isRead = false := by
  simp only [Instr.isRead, encode, reqOp_reqWord]
  rfl

theorem isRead_setbios (flag : Bool) : (Instr.setbios flag).isRead = false := by
  simp only [Instr.isRead, encode, reqOp_reqWord]
  rfl

theorem isRead_reserved {i : Instr} (h : i = .reserved5 ∨ i = .reserved6 ∨ i = .reserved7) : i.isRead = false := by
  rcases h with rfl | rfl | rfl <;> decide

theorem isRead_attach {i : Instr} (h : i = .attachDisplay ∨ i = .attachTimer ∨ i = .attachIrq ∨ i = .attachKbd) :
    i.isRead = false := by
  rcases h with rfl | rfl | rfl | rfl <;> rfl

theorem readAt_rd16 (a : Addr) : (Instr.rd16 a).readAt = none := by
  simp only [Instr.readAt, encode, reqOp_reqWord]
  rfl

/-! ## Responses -/

/-- The shape of a response to `i` (R122). -/
def Shaped (i : Instr) (r : Response) : Prop :=
  (r.rdata.isSome = true ↔ r.outcome = .ok ∧ i.isRead = true) ∧
  (i.readAt.isSome = true → ∀ d, r.rdata = some d → d.toNat < 256) ∧ r.events.length ≤ 112

/-- A response without data: of a transaction that did not end `ok`, or was no read. -/
theorem Shaped.withoutData {i : Instr} {x : Ending} {e : List Event} (h : x = .ok → i.isRead = false)
    (he : e.length ≤ 112) : Shaped i { outcome := x, rdata := none, events := e } := by
  refine ⟨⟨nofun, fun ⟨ok, read⟩ => ?_⟩, nofun, he⟩
  rw [h ok] at read
  cases read

/-- A response with data: of a read that ended `ok`. -/
theorem Shaped.withData {i : Instr} {d : Word} {e : List Event} (read : i.isRead = true)
    (byte : i.readAt.isSome = true → d.toNat < 256) (he : e.length ≤ 112) :
    Shaped i { outcome := .ok, rdata := some d, events := e } := by
  refine ⟨⟨fun _ => ⟨rfl, read⟩, fun _ => rfl⟩, fun h d' hd => ?_, he⟩
  cases hd
  exact byte h

theorem Shaped.refusal (i : Instr) (x : Reason) : Shaped i { outcome := .refuse x, rdata := none, events := [] } :=
  .withoutData nofun (by decide)

/-- The state answers with a response of the shape. -/
def Shapes (i : Instr) (t : State) : Prop := ∃ r, t.rsp = some r ∧ Shaped i r

theorem Shapes.refuse (i : Instr) (s : State) (x : Reason) : Shapes i (s.refuse x) := ⟨_, rfl, .refusal i x⟩

theorem Shapes.finish {i : Instr} (read : i.isRead = false) (s : State) {r : Run} (he : r.events.length ≤ 112) :
    Shapes i (s.finish r) :=
  ⟨_, s.finish_rsp r, .withoutData (fun _ => read) he⟩

theorem State.stop_rsp (s : State) (x : Stop) (e : List Event) :
    (s.stop x e).rsp = some { outcome := x.ending, rdata := none, events := e } := by
  cases x <;> rfl

theorem Shapes.finishRead {i : Instr} (read : i.isRead = true) (s : State) {r : Reads}
    (byte : r.ending = .ok → i.readAt.isSome = true → r.data.toNat < 256) (he : r.events.length ≤ 112) :
    Shapes i (s.finishRead r) := by
  rcases r.ending.ok_or_stop with h | ⟨x, h⟩
  · rw [State.finishRead_ok s h]
    exact ⟨_, rfl, .withData read (byte h) he⟩
  · rw [State.finishRead_stopped h]
    exact ⟨_, s.stop_rsp x _, .withoutData (fun ok => absurd ok x.ending_ne_ok) he⟩

/-! ## The reads of a transaction -/

theorem Reads.one_events {b : Bus} {a : Addr} : (Reads.one (read8 b a)).events.length ≤ 1 := by
  cases h : read8 b a with
  | error x => exact Nat.zero_le 1
  | ok p => exact read8_events h

/-- The data of one byte read is the byte, zero-extended (R122). -/
theorem Reads.one_data_lt {r : ByteRead} (h : (Reads.one r).ending = .ok) : (Reads.one r).data.toNat < 256 := by
  cases r with
  | error x => exact absurd h x.ending_ne_ok
  | ok p =>
    have := p.1.isLt
    show (p.1.setWidth 16).toNat < 256
    rw [BitVec.toNat_setWidth]
    omega

theorem readWord_events (b : Bus) (a : Addr) : (readWord b a).events.length ≤ 2 := by
  unfold readWord
  cases low : read8 b a with
  | error x => rw [Reads.two_error rfl]; exact Nat.zero_le 2
  | ok p =>
    have lowEvents := read8_events low
    cases high : read8 b (nextAddr a) with
    | error x => rw [Reads.two_ok_error rfl rfl]; exact Nat.le_succ_of_le lowEvents
    | ok q =>
      have highEvents := read8_events high
      rw [Reads.two_ok rfl rfl]
      show (p.2 ++ q.2).length ≤ 2
      rw [List.length_append]
      omega

theorem write8_events_le (cfg : Config) (b : Bus) (a : Addr) (v : Byte) : (write8 cfg b a v).events.length ≤ 112 := by
  refine Nat.le_trans (write8_events cfg b a v) ?_
  split
  · exact Nat.le_refl 112
  · split <;> decide

theorem attachOwner_shapes {i : Instr} (read : i.isRead = false) (s : State) (o : Owner) :
    Shapes i (attachOwner s o) := by
  refine State.onInstance_holds (Shapes.refuse _ s) fun b => .finish read s ?_
  show (ite _ _ _ : Run).events.length ≤ 112
  split <;> exact Nat.zero_le 112

theorem execConstruct_shapes {rom : Image} {m r : Byte} {s t : State} (h : execConstruct rom m r s = .next t) :
    Shapes (.construct rom m r) t := by
  rcases execConstruct_cases rom m r s with ⟨_, he⟩ | ⟨_, _, he⟩ | ⟨_, _, _, _, he⟩
  · obtain rfl := next_inj (he.symm.trans h); exact ⟨_, rfl, .withoutData nofun (by decide)⟩
  · obtain rfl := next_inj (he.symm.trans h); exact ⟨_, rfl, .withoutData nofun (by decide)⟩
  · obtain rfl := next_inj (he.symm.trans h); exact ⟨_, rfl, .withoutData (fun _ => rfl) (by decide)⟩

/-- Every well-formed instruction answers with a response of the shape. -/
theorem exec_shapes {i : Instr} {s t : State} (hw : i.wf = true) (h : exec i s = .next t) : Shapes i t := by
  cases Instr.meaning hw with
  | read he hx =>
    rw [next_eq h (hx s)]
    exact State.onInstance_holds (Shapes.refuse _ s) fun b =>
      .finishRead (isRead_rd8 he) s (fun ok _ => Reads.one_data_lt ok) (Nat.le_trans Reads.one_events (by decide))
  | write he hx =>
    rw [next_eq h (hx s)]
    exact State.onInstance_holds (Shapes.refuse _ s) fun b => .finish (isRead_wr8 he) s (write8_events_le s.cfg b _ _)
  | readWord a =>
    rw [next_eq h rfl]
    have noByte : (Instr.rd16 a).readAt.isSome = false := by rw [readAt_rd16]; rfl
    exact State.wordTxn_holds (Shapes.refuse _ s) fun _ b =>
      .finishRead (isRead_rd16 a) s (fun _ byte => nomatch noByte.symm.trans byte)
        (Nat.le_trans (readWord_events b a) (by decide))
  | writeWord a w =>
    rw [next_eq h rfl]
    exact State.wordTxn_holds (Shapes.refuse _ s) fun top b =>
      .finish (isRead_wr16 a w) s (writeWord_events s.cfg b a w top)
  | setbios flag =>
    rw [next_eq h rfl]
    exact State.onInstance_holds (Shapes.refuse _ s) fun b => .finish (isRead_setbios flag) s (Nat.zero_le 112)
  | reserved he hx =>
    rw [next_eq h (hx s)]
    exact State.onInstance_holds (Shapes.refuse _ s) fun b => .refuse _ s _
  | attach o he hx =>
    rw [next_eq h (hx s)]
    exact attachOwner_shapes (isRead_attach he) s o
  | construct rom m r => exact execConstruct_shapes h

/-- Settles O57: the response is the one the transaction answers with. -/
theorem responsesHaveTheirShape : Obligations.ResponsesHaveTheirShape := by
  intro i s t r hw h hr
  obtain ⟨r', hr', shaped⟩ := exec_shapes hw h
  obtain rfl := Option.some.inj (hr'.symm.trans hr)
  exact shaped

/-! ## Reads -/

/-- `t` is `s` but for the response and a latched cause 3 or 4. -/
def OnlyLatches (s t : State) : Prop :=
  t.session = s.session ∧ t.cfg = s.cfg ∧ t.pending = s.pending ∧
  (t.fatal = s.fatal ∨ t.fatal = some .eramNotConfigured ∨ t.fatal = some .eramOutOfRange)

theorem OnlyLatches.respond (s : State) (r : Response) : OnlyLatches s (s.respond r) := ⟨rfl, rfl, rfl, .inl rfl⟩

theorem OnlyLatches.refuse (s : State) (x : Reason) : OnlyLatches s (s.refuse x) := .respond s _

/-- Reads change the latch only where one of them is fatal (R92, R330). -/
theorem OnlyLatches.finishRead (s : State) {r : Reads}
    (hr : ∀ c, r.ending = .fatal c → c = .eramNotConfigured ∨ c = .eramOutOfRange) :
    OnlyLatches s (s.finishRead r) := by
  rcases r.ending.ok_or_stop with h | ⟨x, h⟩
  · rw [State.finishRead_ok s h]; exact .respond s _
  · rw [State.finishRead_stopped h]
    cases x with
    | refuse y => exact .respond s _
    | fatal c =>
      refine ⟨rfl, rfl, rfl, .inr ?_⟩
      rcases hr c h with rfl | rfl
      · exact .inl rfl
      · exact .inr rfl

theorem read8_cause {b : Bus} {a : Addr} {c : Cause} (h : read8 b a = .error (.fatal c)) :
    c = .eramNotConfigured ∨ c = .eramOutOfRange := by
  rcases read8_error h with (h | h) | h | h <;> cases h
  · exact .inl rfl
  · exact .inr rfl

/-- Settles O58: the reads of a word are two byte reads, and a byte read is fatal only at external RAM. -/
theorem readsChangeNoState : Obligations.ReadsChangeNoState := by
  intro i s t hw read h
  have noRead : ∀ {p : Prop}, i.isRead = false → p := fun no => nomatch no.symm.trans read
  cases Instr.meaning hw with
  | read he hx =>
    rw [next_eq h (hx s)]
    exact State.onInstance_holds (OnlyLatches.refuse s) fun b =>
      .finishRead s fun c hc => read8_cause (Reads.one_fatal hc)
  | readWord a =>
    rw [next_eq h rfl]
    exact State.wordTxn_holds (OnlyLatches.refuse s) fun _ b =>
      .finishRead s fun c hc => (readWord_fatal hc).elim read8_cause read8_cause
  | write he hx => exact noRead (isRead_wr8 he)
  | writeWord a w => exact noRead (isRead_wr16 a w)
  | setbios flag => exact noRead (isRead_setbios flag)
  | reserved he hx => exact noRead (isRead_reserved he)
  | attach o he hx => exact noRead (isRead_attach he)
  | construct rom m r => exact noRead rfl

end Sys2Proof.Machine
end

section
/-! PROOFS. The byte accesses of a transaction that completes (spec/70_reset_and_hazards.md R392): as it counts them,
and as they are read off its word. -/

namespace Sys2Proof.Machine

open Sys2Proof.Laws

/-! ## The count read off a word -/

theorem writeAccesses_eq (a : Addr) : writeAccesses a = if a = 0xFF46 then 321 else 1 := rfl

theorem nextAddr_eq_trigger (a : Addr) : nextAddr a = 0xFF46 ↔ a = 0xFF45 :=
  BitVec.add_left_inj (x := a) (y := 0xFF45#16) 1#16

theorem byteAccesses_rd8 (a : Addr) : byteAccesses (rd8Word a) = 1 := by
  simp only [byteAccesses, rd8Word, reqOp_reqWord]
  rfl

theorem byteAccesses_wr8 (a : Addr) (v : Byte) : byteAccesses (wr8Word a v) = writeAccesses a := by
  simp only [byteAccesses, wr8Word, reqOp_reqWord, reqAddr_reqWord]
  rfl

theorem byteAccesses_rd16 (a : Addr) : byteAccesses (encode (.rd16 a)) = 2 := by
  simp only [byteAccesses, encode, reqOp_reqWord]
  rfl

/-- A word write starts at most one copy (R392). -/
theorem byteAccesses_wr16 (a : Addr) (w : Word) :
    byteAccesses (encode (.wr16 a w)) = if a = 0xFF46 ∨ a = 0xFF45 then 322 else 2 := by
  have sum : byteAccesses (encode (.wr16 a w)) = writeAccesses a + writeAccesses (nextAddr a) := by
    simp only [byteAccesses, encode, reqOp_reqWord, reqAddr_reqWord]
    rfl
  rw [sum, writeAccesses_eq, writeAccesses_eq]
  simp only [nextAddr_eq_trigger]
  by_cases low : a = 0xFF46
  · have high : a ≠ 0xFF45 := by rw [low]; decide
    rw [if_pos low, if_neg high, if_pos (.inl low)]
  · by_cases high : a = 0xFF45
    · rw [if_neg low, if_pos high, if_pos (.inr high)]
    · rw [if_neg low, if_neg high, if_neg (not_or.2 ⟨low, high⟩)]

theorem byteAccesses_setbios (flag : Bool) : byteAccesses (encode (.setbios flag)) = 0 := by
  simp only [byteAccesses, encode, reqOp_reqWord]
  rfl

/-! ## The count of the accesses made -/

theorem Reads.one_accesses {r : ByteRead} (h : (Reads.one r).ending = .ok) : (Reads.one r).accesses = 1 := by
  cases r with
  | error x => exact absurd h x.ending_ne_ok
  | ok p => rfl

theorem isRead_of_readAt {i : Instr} {a : Addr} (h : i.readAt = some a) : i.isRead = true := by
  unfold Instr.readAt at h
  unfold Instr.isRead
  cases he : encode i with
  | req w =>
    simp only [he] at h
    split at h
    · rename_i op
      simp [op]
    · cases h
  | host hop => simp only [he] at h; cases h
  | construct rom m r => simp only [he] at h; cases h

/-- An instruction that reads a byte is an RD8 row (R121). -/
theorem encode_of_readAt {i : Instr} (hw : i.wf = true) {a : Addr} (h : i.readAt = some a) : encode i = rd8Word a := by
  have noRead : ∀ {p : Prop}, i.isRead = false → p := fun no => nomatch no.symm.trans (isRead_of_readAt h)
  cases Instr.meaning hw with
  | read he hx =>
    obtain rfl := Option.some.inj ((readAt_of he).symm.trans h)
    exact he
  | readWord a => exact nomatch (readAt_rd16 a).symm.trans h
  | write he hx => exact noRead (isRead_wr8 he)
  | writeWord a w => exact noRead (isRead_wr16 a w)
  | setbios flag => exact noRead (isRead_setbios flag)
  | reserved he hx => exact noRead (isRead_reserved he)
  | attach o he hx => exact noRead (isRead_attach he)
  | construct rom m r => exact noRead rfl

/-- Settles O60: each row is the run of its accesses, and each run that completes counts what its word says. -/
theorem byteAccessCounts : Obligations.ByteAccessCounts := by
  intro i s b hw live
  refine ⟨fun a ha => ?_, fun a v he => ?_, fun a hi top => ?_, fun a w hi top => ?_, fun flag hi => ?_⟩
  · have he := encode_of_readAt hw ha
    rw [exec_rd8 he hw, he, byteAccesses_rd8]
    exact ⟨congrArg _ (State.admit_live live _), fun ok => ⟨Reads.one_accesses ok, rfl⟩⟩
  · rw [exec_wr8 he hw, he, byteAccesses_wr8]
    exact ⟨congrArg _ (State.writeTxn_live live _), fun ok => ⟨write8_accesses ok, (write8_accesses ok).symm⟩⟩
  · subst hi
    exact ⟨exec_rd16_live live top, fun ok => ⟨readWord_accesses ok, byteAccesses_rd16 a⟩⟩
  · subst hi
    rw [byteAccesses_wr16]
    exact ⟨exec_wr16_live live top w, fun ok => ⟨writeWord_accesses ok, (writeWord_accesses ok).symm⟩⟩
  · subst hi
    exact ⟨congrArg _ (State.writeTxn_live live _), rfl, byteAccesses_setbios flag⟩

end Sys2Proof.Machine
end

section
/-! PROOFS. Which instruction can change which state of an instance (spec/10_state.md R53). -/

namespace Sys2Proof.Machine

/-- Where a byte of the instruction lands on the DMA trigger, only OAM and the two registers beside the trigger can
differ, and each of those only where the other byte lands on it (R285). -/
def OnlyCopied (ws : List Addr) (b b' : Bus) : Prop :=
  0xFF46 ∈ ws → ∃ m x y, b' = b.withCopied m x y ∧
    (x ≠ b.own.lcd.scanlineCompare → 0xFF45 ∈ ws) ∧ (y ≠ b.own.lcd.palette0 → 0xFF47 ∈ ws)

theorem OnlyCopied.withOam (ws : List Addr) (b : Bus) (m : Memory) : OnlyCopied ws b (b.withOam m) :=
  fun _ => ⟨m, _, _, rfl, fun h => absurd rfl h, fun h => absurd rfl h⟩

theorem OnlyCopied.refl (ws : List Addr) (b : Bus) : OnlyCopied ws b b := .withOam ws b b.own.lcd.oam

theorem write8_onlyCopied (cfg : Config) (b : Bus) (a : Addr) (v : Byte) : OnlyCopied [a] b (write8 cfg b a v).bus := by
  intro trigger
  obtain rfl := List.mem_singleton.1 trigger
  obtain ⟨m, h⟩ := write8_trigger cfg b v
  exact h ▸ OnlyCopied.withOam _ b m trigger

/-- What `i` can change of an instance `b` that is there before and after it (R53). -/
def Changes (i : Instr) (b b' : Bus) : Prop :=
  b'.bios = b.bios ∧ b'.rom = b.rom ∧ b'.bc.mode = b.bc.mode ∧ b'.ramSize = b.ramSize ∧
  (b'.bc ≠ b.bc → b.bc.mode ≠ .romOnly ∧ ∃ a ∈ i.writesAt, 0x1000 ≤ a.toNat ∧ a.toNat ≤ 0x7FFF) ∧
  (b'.eram ≠ b.eram → ∃ a ∈ i.writesAt, 0xA000 ≤ a.toNat ∧ a.toNat ≤ 0xBFFF) ∧
  (b'.wram ≠ b.wram → ∃ a ∈ i.writesAt, 0xC000 ≤ a.toNat ∧ a.toNat ≤ 0xFDFF) ∧
  (b'.zp ≠ b.zp → ∃ a ∈ i.writesAt, 0xFF80 ≤ a.toNat ∧ a.toNat ≤ 0xFFFE) ∧
  (b'.inBios ≠ b.inBios → 0xFF50 ∈ i.writesAt ∨ ∃ f, i = .setbios f) ∧
  (b.inBios = false → b'.inBios = true → i = .setbios true) ∧
  (b'.wired ≠ b.wired → i = .attachDisplay ∨ i = .attachTimer ∨ i = .attachIrq ∨ i = .attachKbd) ∧
  OnlyCopied i.writesAt b b'

/-- What the written addresses can change, the instruction can. -/
theorem Changes.of_owned {i : Instr} {ws : List Addr} {b b' : Bus} (hws : i.writesAt = ws) (owned : Owned ws b b')
    (copied : OnlyCopied ws b b') : Changes i b b' := by
  subst hws
  obtain ⟨bios, rom, mode, size, bc, eram, wram, zp, latch, unset, wired⟩ := owned
  exact ⟨bios, rom, mode, size, bc, eram, wram, zp, fun h => .inl (latch h),
    fun off on => absurd ((unset off).symm.trans on) Bool.false_ne_true, fun h => absurd wired h, copied⟩

theorem Changes.refl (i : Instr) (b : Bus) : Changes i b b :=
  .of_owned rfl (.refl _ b) (.refl _ b)

theorem writesAt_setbios (flag : Bool) : (Instr.setbios flag).writesAt = [] := by
  cases flag <;> decide

theorem Changes.setbios (flag : Bool) (b : Bus) : Changes (.setbios flag) b (b.withInBios flag) := by
  obtain ⟨bios, rom, mode, size, bc, eram, wram, zp, -, -, wired, -⟩ := Changes.refl (.setbios flag) b
  refine ⟨bios, rom, mode, size, bc, eram, wram, zp, fun _ => .inr ⟨flag, rfl⟩, fun _ on => congrArg _ on, wired, ?_⟩
  rw [writesAt_setbios]
  exact nofun

theorem writesAt_attach {i : Instr} (h : i = .attachDisplay ∨ i = .attachTimer ∨ i = .attachIrq ∨ i = .attachKbd) :
    i.writesAt = [] := by
  rcases h with rfl | rfl | rfl | rfl <;> rfl

theorem Changes.attach {i : Instr} (h : i = .attachDisplay ∨ i = .attachTimer ∨ i = .attachIrq ∨ i = .attachKbd)
    (b : Bus) (w : Wiring) : Changes i b (b.withWired w) := by
  obtain ⟨bios, rom, mode, size, bc, eram, wram, zp, latch, unset, -, -⟩ := Changes.refl i b
  refine ⟨bios, rom, mode, size, bc, eram, wram, zp, latch, unset, fun _ => h, ?_⟩
  rw [writesAt_attach h]
  exact nofun

/-! ## The instance a transaction leaves -/

/-- The instance after a transaction of an instance: as it was, or what the admitted transaction leaves. -/
theorem onInstance_session {s : State} {k : Bus → State} {b b' : Bus} (hs : s.session = some b)
    (h : (s.onInstance k).session = some b') : b' = b ∨ (s.live b ∧ (k b).session = some b') := by
  have same : s.session = some b' → b' = b := fun h => Option.some.inj (h.symm.trans hs)
  rcases s.admit_cases k with ⟨_, _, he⟩ | ⟨_, _, he⟩ | ⟨c, live, he⟩
  · rw [he] at h; exact .inl (same h)
  · rw [he] at h; exact .inl (same h)
  · obtain rfl : c = b := Option.some.inj (live.2.symm.trans hs)
    rw [he] at h
    exact .inr ⟨live, h⟩

theorem writeTxn_session {s : State} {k : Bus → Run} {b b' : Bus} (hs : s.session = some b)
    (h : (s.writeTxn k).session = some b') : b' = b ∨ b' = (k b).bus := by
  rcases onInstance_session hs h with same | ⟨-, h⟩
  · exact .inl same
  · obtain ⟨-, -, left⟩ := s.finish_frame (k b)
    exact .inr (Option.some.inj (h.symm.trans left))

/-- Settles O59: by the kind of transaction; what a byte write can change is said of its address. -/
theorem ownedStateChangesOnlyByItsWrites : Obligations.OwnedStateChangesOnlyByItsWrites := by
  intro i s t b b' hw hc h hs ht
  show Changes i b b'
  have unchanged : b' = b → Changes i b b' := fun same => same ▸ .refl i b
  cases Instr.meaning hw with
  | read he hx =>
    obtain ⟨session, -⟩ := readsChangeNoState i s t hw (isRead_rd8 he) h
    exact unchanged (Option.some.inj (ht.symm.trans (session.trans hs)))
  | readWord a =>
    obtain ⟨session, -⟩ := readsChangeNoState _ s t hw (isRead_rd16 a) h
    exact unchanged (Option.some.inj (ht.symm.trans (session.trans hs)))
  | write he hx =>
    rw [next_eq h (hx s)] at ht
    rcases writeTxn_session hs ht with same | rfl
    · exact unchanged same
    · exact .of_owned (writesAt_of he) (write8_owned ..) (write8_onlyCopied s.cfg b _ _)
  | writeWord a w =>
    rw [next_eq h rfl] at ht
    rcases onInstance_session hs ht with same | ⟨live, made⟩
    · exact unchanged same
    · split at made
      · exact unchanged (Option.some.inj (made.symm.trans hs))
      · obtain ⟨-, -, left⟩ := s.finish_frame (writeWord s.cfg b a w)
        obtain rfl := Option.some.inj (made.symm.trans left)
        exact .of_owned (writesAt_wr16 a w) (writeWord_owned ..) (writeWord_trigger s.cfg b w)
  | setbios flag =>
    rw [next_eq h rfl] at ht
    rcases writeTxn_session hs ht with same | rfl
    · exact unchanged same
    · exact .setbios flag b
  | reserved he hx =>
    rw [next_eq h (hx s)] at ht
    rcases onInstance_session hs ht with same | ⟨-, refused⟩
    · exact unchanged same
    · exact unchanged (Option.some.inj (refused.symm.trans hs))
  | attach o he hx =>
    rw [next_eq h (hx s)] at ht
    rcases writeTxn_session hs ht with same | rfl
    · exact unchanged same
    · split
      · exact .refl i b
      · exact .attach he b _
  | construct rom m r => exact nomatch hc

end Sys2Proof.Machine
end
